-- ==== Sys2Proof/Word.lean ====
section
/-! DEFINITION. The two word types of the block: the 8-bit byte of the ring buffer and of every stored field (R8, R42), and
the 32-bit word of commands and responses (R55, R56). Every value is unsigned (R9). -/

namespace Sys2Proof

/-- A byte: the one access width of `MEM` (R38) and the width of every Packet header field (R8). -/
abbrev Byte := BitVec 8

/-- A command word or a response value (R56, R57). -/
abbrev Word := BitVec 32

end Sys2Proof
end

