-- ==== Sys2Proof/Config.lean ====
section
/-! DEFINITION. The constants and the one build parameter of the block (R7), and the free value of a byte of `MEM` that no
command has written since reset (R38, 93 U1). -/

namespace Sys2Proof

/-- The build parameter `K` of R7 (D10, 93 P1: open, 9 to 16), kept as `K - 9` so that every value of the type is legal. -/
structure Config where
  kMinus9 : Fin 8
deriving DecidableEq, Repr

/-- `K`, 9 ≤ K ≤ 16 (R7). -/
def Config.K (c : Config) : Nat := 9 + c.kMinus9.val

/-- The default `K = 10` (R7). -/
def Config.default : Config := ⟨1⟩

/-- `CAP = 2^K`, the size of `MEM` in bytes (R7, R38). -/
def Config.cap (c : Config) : Nat := 2 ^ c.K

/-- `HDR`: four header fields of one byte each (R7, R8). -/
abbrev hdr : Nat := 4

/-- `MAXLEN`: the largest number of data bytes of a Packet (R7, C1). -/
abbrev maxLen : Nat := 252

/-- `MINSPAN = HDR + 1` (R7). -/
abbrev minSpan : Nat := 5

/-- `MAXSPAN = HDR + MAXLEN + 1` (R7). -/
abbrev maxSpan : Nat := 257

/-- `SRC_LIMIT`: a legal source tag is below it (R7, C3). -/
abbrev srcLimit : Nat := 41

/-- `DELIM` (R7). -/
abbrev delim : Byte := 0x0A#8

/-- `ESC` (R7). -/
abbrev esc : Byte := 0xDB#8

/-- `ESC_DELIM`, the continuation that stands for `DELIM` (R7). -/
abbrev escDelim : Byte := 0xDC#8

/-- `ESC_ESC`, the continuation that stands for `ESC` (R7). -/
abbrev escEsc : Byte := 0xDD#8

/-- `NPK_MAX`, the most Packets that can occupy the store (R7, R46). -/
def Config.npkMax (c : Config) : Nat := (c.cap - maxSpan) / minSpan + 1

/-- `NW`, the width of the Packet counter: the least `n` with `2^n > NPK_MAX` (R7, D42). -/
def Config.nw (c : Config) : Nat := Nat.log2 c.npkMax + 1

/-- FREE VALUE (R38, R109, 93 U1, U2; log 2). The unknown value of the byte at index `a` of `MEM`, after `draws` resets, while
no command has written that byte. It has no body: nothing can be proved about which byte it is. One value for each byte and
each reset, and not one for each read, because repeating `RD` gives the same result (R51). -/
opaque Config.unwrittenByte (draws : Nat) (a : Nat) : Byte

end Sys2Proof
end

