-- ==== Sys2Proof/Syntax.lean ====
section
/-! DEFINITION. The ports (R55) and the commands (R60): one constructor of `Instr` for each row of spec/opcode_table.json, with
the operands of its format (R58, R59). -/

namespace Sys2Proof

/-- The three command ports, one for each agent (R55). -/
inductive Port where
  | producer
  | consumer
  | tx
deriving DecidableEq, Repr

/-- The 22 commands (R60). Operand types are the widths of the fields, so no operand can be out of the encoding's range; the
legal range of a value operand is checked by the command's rule, not here (R59). -/
inductive Instr where
  /-- `NOP`, legal on every port (R95); `p` is the port that received it, which its word does not say (log 9). -/
  | nop (p : Port)
  /-- `RX_BYTE b, e` (R68). -/
  | rxByte (b : Byte) (e : BitVec 4)
  /-- `STORE_RAW b` (R77). -/
  | storeRaw (b : Byte)
  /-- `STORE_DATA b` (R78). -/
  | storeData (b : Byte)
  /-- `FINISH` (R76). -/
  | finish
  /-- `FORCE_SYNC` (R69). -/
  | forceSync
  /-- `CAN_ACCEPT` (R79). -/
  | canAccept
  /-- `IS_FULL` (R80). -/
  | isFull
  /-- `SET_MODE v` (R70). -/
  | setMode (v : Byte)
  /-- `SET_SOURCE v` (R91). -/
  | setSource (v : Byte)
  /-- `COUNT` (R81). -/
  | count
  /-- `IS_EMPTY` (R82). -/
  | isEmpty
  /-- `DISPATCH_BEGIN` (R83). -/
  | dispatchBegin
  /-- `DISPATCH_END` (R84). -/
  | dispatchEnd
  /-- `COPY_OUT` (R85). -/
  | copyOut
  /-- `RD a` (R88); `a` is the whole field `cmd[23:8]`, masked to K bits when the command runs (R59; log 8). -/
  | rd (a : BitVec 16)
  /-- `WR_CURSOR v` (R89). -/
  | wrCursor (v : Byte)
  /-- `STATUS` (R92). -/
  | status
  /-- `CHECK` (R94). -/
  | check
  /-- `CLEAR_LOST` (R93). -/
  | clearLost
  /-- `TX_BYTE b` (R71). -/
  | txByte (b : Byte)
  /-- `TX_END` (R72). -/
  | txEnd
deriving DecidableEq, Repr

/-- The port a command belongs to (R60); for `NOP` the port that received it (R57). -/
def Instr.port : Instr → Port
  | .nop p => p
  | .rxByte _ _ | .storeRaw _ | .storeData _ | .finish | .forceSync | .canAccept | .isFull | .setMode _
  | .setSource _ => .producer
  | .count | .isEmpty | .dispatchBegin | .dispatchEnd | .copyOut | .rd _ | .wrCursor _ | .status | .check
  | .clearLost => .consumer
  | .txByte _ | .txEnd => .tx

end Sys2Proof
end

