-- ==== Sys2Proof/WellFormed.lean ====
section
/-! DEFINITION. Which commands may stand on which port (R60, R61 check 2). The operands need no check: their types are exactly
the fields of the encoding (R58), and every value of a field is a legal encoding (R59). -/

namespace Sys2Proof

/-- The command `i` is well formed as a command of port `p`: its opcode belongs to that port (R57, R60). -/
def Instr.wellFormedOn (p : Port) (i : Instr) : Bool := i.port == p

end Sys2Proof
end

