-- ==== Sys2Proof/Decode.lean ====
section
/-! DEFINITION. The command words: fields (R57), formats (R58), the opcode map (R60), the decoder of a word received on a port
with its three named rejections in order (R61), and the encoder, written from the same tables. -/

namespace Sys2Proof

/-- The five formats (R58). -/
inductive Format where
  | N
  | B
  | V
  | E
  | A
deriving DecidableEq, Repr

/-- The reserved bits of a format, which must be zero (R58, R61 check 3). -/
def Format.reserved : Format → Word
  | .N => 0x00FFFFFF#32
  | .B => 0x00FFFF00#32
  | .V => 0x00FFFF00#32
  | .E => 0x00FFF000#32
  | .A => 0x000000FF#32

/-- The opcodes (R60), one for each row. -/
inductive Opcode where
  | nop | rxByte | storeRaw | storeData | finish | forceSync | canAccept | isFull | setMode | setSource
  | count | isEmpty | dispatchBegin | dispatchEnd | copyOut | rd | wrCursor | status | check | clearLost
  | txByte | txEnd
deriving DecidableEq, Repr

/-- All rows of the opcode map (R60), in its order. -/
def Opcode.all : List Opcode :=
  [.nop, .rxByte, .storeRaw, .storeData, .finish, .forceSync, .canAccept, .isFull, .setMode, .setSource,
   .count, .isEmpty, .dispatchBegin, .dispatchEnd, .copyOut, .rd, .wrCursor, .status, .check, .clearLost,
   .txByte, .txEnd]

/-- `OP`, the value of `cmd[31:24]` (R60). -/
def Opcode.code : Opcode → Byte
  | .nop => 0x00#8
  | .rxByte => 0x01#8
  | .storeRaw => 0x02#8
  | .storeData => 0x03#8
  | .finish => 0x04#8
  | .forceSync => 0x05#8
  | .canAccept => 0x06#8
  | .isFull => 0x07#8
  | .setMode => 0x08#8
  | .setSource => 0x09#8
  | .count => 0x41#8
  | .isEmpty => 0x42#8
  | .dispatchBegin => 0x43#8
  | .dispatchEnd => 0x44#8
  | .copyOut => 0x45#8
  | .rd => 0x46#8
  | .wrCursor => 0x47#8
  | .status => 0x48#8
  | .check => 0x49#8
  | .clearLost => 0x4A#8
  | .txByte => 0x81#8
  | .txEnd => 0x82#8

/-- The format column of R60. -/
def Opcode.format : Opcode → Format
  | .nop => .N
  | .rxByte => .E
  | .storeRaw => .B
  | .storeData => .B
  | .finish => .N
  | .forceSync => .N
  | .canAccept => .N
  | .isFull => .N
  | .setMode => .V
  | .setSource => .V
  | .count => .N
  | .isEmpty => .N
  | .dispatchBegin => .N
  | .dispatchEnd => .N
  | .copyOut => .N
  | .rd => .A
  | .wrCursor => .V
  | .status => .N
  | .check => .N
  | .clearLost => .N
  | .txByte => .B
  | .txEnd => .N

/-- Does the opcode belong to port `p`? The port column of R60; `NOP` is legal on every port (R57). -/
def Opcode.onPort (o : Opcode) (p : Port) : Bool :=
  match o with
  | .nop => true
  | .rxByte | .storeRaw | .storeData | .finish | .forceSync | .canAccept | .isFull | .setMode | .setSource =>
    p == .producer
  | .count | .isEmpty | .dispatchBegin | .dispatchEnd | .copyOut | .rd | .wrCursor | .status | .check
  | .clearLost => p == .consumer
  | .txByte | .txEnd => p == .tx

/-- The row of the opcode map whose `OP` is `op`, if there is one (R60, R61 check 1). -/
def Opcode.ofCode (op : Byte) : Option Opcode := Opcode.all.find? (fun o => o.code == op)

/-- `OP = cmd[31:24]` (R57). -/
def fieldOp (w : Word) : Byte := w.extractLsb' 24 8

/-- `A = cmd[23:8]` (R57). -/
def fieldA (w : Word) : BitVec 16 := w.extractLsb' 8 16

/-- `E = cmd[11:8]` (R57). -/
def fieldE (w : Word) : BitVec 4 := w.extractLsb' 8 4

/-- `B = cmd[7:0]` (R57). -/
def fieldB (w : Word) : Byte := w.extractLsb' 0 8

/-- The command of opcode `o` received on port `p` in the word `w`, its operands assembled as R59 says. -/
def Opcode.instr (o : Opcode) (p : Port) (w : Word) : Instr :=
  match o with
  | .nop => .nop p
  | .rxByte => .rxByte (fieldB w) (fieldE w)
  | .storeRaw => .storeRaw (fieldB w)
  | .storeData => .storeData (fieldB w)
  | .finish => .finish
  | .forceSync => .forceSync
  | .canAccept => .canAccept
  | .isFull => .isFull
  | .setMode => .setMode (fieldB w)
  | .setSource => .setSource (fieldB w)
  | .count => .count
  | .isEmpty => .isEmpty
  | .dispatchBegin => .dispatchBegin
  | .dispatchEnd => .dispatchEnd
  | .copyOut => .copyOut
  | .rd => .rd (fieldA w)
  | .wrCursor => .wrCursor (fieldB w)
  | .status => .status
  | .check => .check
  | .clearLost => .clearLost
  | .txByte => .txByte (fieldB w)
  | .txEnd => .txEnd

/-- Why a word is illegal (R61), in the order of the checks. -/
inductive Illegal where
  /-- (1) `cmd[31:24]` is not an opcode. -/
  | unassignedOpcode
  /-- (2) The opcode belongs to another port. -/
  | otherPort
  /-- (3) A reserved bit of the format is 1. -/
  | reservedBit
deriving DecidableEq, Repr

/-- The command that the word `w` is on port `p`, or why it is illegal (R60, R61). -/
def decode (p : Port) (w : Word) : Except Illegal Instr :=
  match Opcode.ofCode (fieldOp w) with
  | none => .error .unassignedOpcode
  | some o =>
    if o.onPort p = false then .error .otherPort
    else if w &&& o.format.reserved = 0#32 then .ok (o.instr p w)
    else .error .reservedBit

/-- The row of the opcode map a command stands for. -/
def Instr.opcode : Instr → Opcode
  | .nop _ => .nop
  | .rxByte _ _ => .rxByte
  | .storeRaw _ => .storeRaw
  | .storeData _ => .storeData
  | .finish => .finish
  | .forceSync => .forceSync
  | .canAccept => .canAccept
  | .isFull => .isFull
  | .setMode _ => .setMode
  | .setSource _ => .setSource
  | .count => .count
  | .isEmpty => .isEmpty
  | .dispatchBegin => .dispatchBegin
  | .dispatchEnd => .dispatchEnd
  | .copyOut => .copyOut
  | .rd _ => .rd
  | .wrCursor _ => .wrCursor
  | .status => .status
  | .check => .check
  | .clearLost => .clearLost
  | .txByte _ => .txByte
  | .txEnd => .txEnd

/-- `cmd[23:8]` of a command's word (R58). -/
def Instr.bitsA : Instr → BitVec 16
  | .rd a => a
  | .rxByte _ e => e.setWidth 16
  | .nop _ | .storeRaw _ | .storeData _ | .finish | .forceSync | .canAccept | .isFull | .setMode _ | .setSource _
  | .count | .isEmpty | .dispatchBegin | .dispatchEnd | .copyOut | .wrCursor _ | .status | .check | .clearLost
  | .txByte _ | .txEnd => 0#16

/-- `cmd[7:0]` of a command's word (R58). -/
def Instr.bitsB : Instr → Byte
  | .rxByte b _ | .storeRaw b | .storeData b | .txByte b => b
  | .setMode v | .setSource v | .wrCursor v => v
  | .nop _ | .finish | .forceSync | .canAccept | .isFull | .count | .isEmpty | .dispatchBegin | .dispatchEnd
  | .copyOut | .rd _ | .status | .check | .clearLost | .txEnd => 0#8

/-- The word of a command (R57, R58): `OP`, `A`, `B` from the high bits down. -/
def encode (i : Instr) : Word := i.opcode.code ++ i.bitsA ++ i.bitsB

/-- The port that `OP[7:6]` names (R57): 00 producer, 01 consumer, 10 TX. Opcodes with `11` belong to no port; a word with
such an opcode is illegal on every port, and here stands on the producer port, as `NOP` does (log 9). -/
def portOfWord (w : Word) : Port :=
  if w.extractLsb' 30 2 = 1#2 then .consumer
  else if w.extractLsb' 30 2 = 2#2 then .tx
  else .producer

/-- The command the decoder reads from a word of the opcode table, received on the port its opcode names. -/
def decodeTableWord (nbits w : Nat) : Option Instr :=
  if nbits ≤ 32 ∧ w < 2 ^ 32 then
    match decode (portOfWord (BitVec.ofNat 32 w)) (BitVec.ofNat 32 w) with
    | .ok i => some i
    | .error _ => none
  else none

end Sys2Proof
end

