-- ==== Sys2Proof/Machine/State.lean ====
section
/-! DEFINITION. The state of the block: every register of R15, the ring-buffer memory, the output streams and the response
records, and what the agents will present. Plain data; `State.reset` is R108. -/

namespace Sys2Proof.Machine

/-- Why a run is not a successful one. No step of the model ends in a fault: the spec describes the effect of every word in
every state (R61, R99, R101), so every step gives a next state. -/
inductive Fault where
  /-- The block is halted with this diagnostic code: "a halted block is a fault state: it is never a successful end of a run"
  (R101). Raised only by `Sys2Proof.Safety.verdict`, which judges the end of a run; safe: it accepts fewer runs. -/
  | fatalHalt (code : Byte)
deriving DecidableEq, Repr

/-- Why the model refuses. No arm of `exec` refuses. -/
inductive Refusal where
  /-- Raised by an arm of `exec` whose instruction has no meaning yet; safe: the model stops where the block goes on. -/
  | notModelled (mnemonic : String)
deriving DecidableEq, Repr

/-- A mode selector (R23): 0 = packet mode, 1 = byte mode. -/
inductive Mode where
  | packet
  | byte
deriving DecidableEq, Repr

/-- The response record of one command (R35, R56). -/
structure Response where
  halted : Bool
  value : Word
  out : List Byte
deriving DecidableEq, Repr

/-- The response record of the last command of each port; `none` where the port has had no command since reset (log 5). -/
structure Responses where
  producer : Option Response
  consumer : Option Response
  tx : Option Response
deriving DecidableEq, Repr

/-- What the outside world does to the block in one hardware step (R52, R104, R108; log 3, log 4). -/
inductive Event where
  /-- Reset is applied, between commands (R108). -/
  | reset
  /-- The agents present at most one command word on each port (R55); they are applied consumer, producer, TX (R52). -/
  | present (c p t : Option Word)
deriving DecidableEq, Repr

/-- The bytes of `MEM` that a command has written since reset: pairs of index and byte, indices strictly rising. An index that is not listed
has no value here; reading it gives the free value `Config.unwrittenByte` (R38; log 2). -/
abbrev Memory := List Host.Cell

/-- The state of the block. -/
structure State where
  /-- The build parameter `K` (R7; log 1). Nothing changes it. -/
  cfg : Config
  /-- `W` (R16), K bits: header position of the in-progress Packet (log 7). -/
  w : Nat
  /-- `OLD` (R17), K bits: header position of the oldest occupying Packet (log 7). -/
  old : Nat
  /-- `LEN` (R18): data bytes stored in the in-progress Packet. -/
  len : Byte
  /-- `PFL` (R19): flags accumulated for the in-progress Packet. -/
  pfl : Byte
  /-- `ESCP` (R20): an escape is pending. -/
  escp : Bool
  /-- `NPK` (R21), NW bits: the number of occupying Packets (log 7). -/
  npk : Nat
  /-- `LOCK` (R22): a dispatch is in progress and holds the oldest Packet. -/
  lock : Bool
  /-- `IN_MODE` (R23). -/
  inMode : Mode
  /-- `OUT_MODE` (R23). -/
  outMode : Mode
  /-- `SRC` (R24): the source tag stamped into every Packet. -/
  src : Byte
  /-- `LOST` (R25), sticky: a Packet could not be placed at all. -/
  lost : Bool
  /-- `HALT` (R26). -/
  halt : Bool
  /-- `DIAG` (R26). -/
  diag : Byte
  /-- `MEM` (R38). -/
  mem : Memory
  /-- The model's own: how many times the contents of `MEM` have been left unspecified by a reset; selects the free value of
  an unwritten byte (log 2). -/
  draws : Nat
  /-- `TXOUT` (R36), oldest byte first. -/
  txOut : List Byte
  /-- `COPYOUT` (R36), oldest byte first. -/
  copyOut : List Byte
  /-- The last response record of each port (R56; log 5). -/
  resp : Responses
  /-- The model's own: what the agents will do, soonest first (R33, R52; log 4). -/
  inputs : List Event
deriving DecidableEq, Repr

/-- A block with parameter `c` right after power-on reset (R108): every register of R15 is 0, no response has been returned,
no byte of `MEM` has a known value and no command has been presented. -/
def State.resetWith (c : Config) : State where
  cfg := c
  w := 0
  old := 0
  len := 0x00#8
  pfl := 0x00#8
  escp := false
  npk := 0
  lock := false
  inMode := .packet
  outMode := .packet
  src := 0x00#8
  lost := false
  halt := false
  diag := 0x00#8
  mem := []
  draws := 0
  txOut := []
  copyOut := []
  resp := ⟨none, none, none⟩
  inputs := []

/-- The block right after reset (R108), with the spec's default `K = 10` (R7; log 1). -/
def State.reset : State := State.resetWith Config.default

end Sys2Proof.Machine
end

