-- ==== Sys2Proof/Machine/Flags.lean ====
section
/-! DEFINITION. The Packet flag bits (R28), the flag groups (R29), and the ways `PFL` is written (R30). -/

namespace Sys2Proof.Machine

/-- Flag bit 0 (R28). -/
abbrev flagOverrun : Byte := 0x01#8
/-- Flag bit 1 (R28). -/
abbrev flagParity : Byte := 0x02#8
/-- Flag bit 2 (R28). -/
abbrev flagFraming : Byte := 0x04#8
/-- Flag bit 3 (R28). -/
abbrev flagBreak : Byte := 0x08#8
/-- Flag bit 4, "buffer/length overflow" (R28). -/
abbrev flagOverflow : Byte := 0x10#8
/-- Flag bit 5 (R28). -/
abbrev flagBadEscape : Byte := 0x20#8
/-- Flag bit 6: the header is a sentinel over an abandoned tail (R28). -/
abbrev flagDeleted : Byte := 0x40#8

/-- "any byte-level error", a name for consumers; no command computes it (R29). -/
abbrev byteErrors : Byte := 0x0F#8
/-- "any packet-level error" (R29). -/
abbrev packetErrors : Byte := 0x30#8
/-- "any error" (R29). -/
abbrev anyErrors : Byte := 0x3F#8

/-- OR flag bits into `PFL`; flags accumulate (R30). -/
def orFlags (f : Byte) (s : State) : State := { s with pfl := s.pfl ||| f }

/-- The error fold `PFL <- PFL | zext_8(e)` (R59, R66). -/
def foldErrors (e : BitVec 4) (s : State) : State := orFlags (e.setWidth 8) s

end Sys2Proof.Machine
end

