-- ==== Sys2Proof/Machine/Ops.lean ====
section
/-! DEFINITION. The operations the commands share: the ring-buffer memory (R38), room and placement (R45, R47, R48, R50), the
inbound decoder and finishing (R65, R67, R75), responses (R56), the fatal halt and the halted state (R99, R101), reset (R108). -/

namespace Sys2Proof.Machine

/-! ### One-bit registers, the source tag and the modes -/

/-- `ESCP <- b` (R20). -/
def setEscp (b : Bool) (s : State) : State := { s with escp := b }

/-- `LOCK <- b` (R22). -/
def setLock (b : Bool) (s : State) : State := { s with lock := b }

/-- `LOST <- b` (R25). -/
def setLost (b : Bool) (s : State) : State := { s with lost := b }

/-- `SRC <- v` (R24). -/
def setSrc (v : Byte) (s : State) : State := { s with src := v }

/-- `IN_MODE <- i; OUT_MODE <- o` (R23). -/
def setModes (i o : Mode) (s : State) : State := { s with inMode := i, outMode := o }

/-! ### The list that holds memory -/

/-- The byte written at index `a`, if any. -/
def Memory.lookup : Memory → Nat → Option Byte
  | [], _ => none
  | (k, v) :: m, a => if a = k then some v else Memory.lookup m a

/-- Write byte `v` at index `a`, keeping the indices strictly rising. -/
def Memory.store : Memory → Nat → Byte → Memory
  | [], a, v => [(a, v)]
  | (k, x) :: m, a, v =>
    if a < k then (a, v) :: (k, x) :: m
    else if a = k then (a, v) :: m
    else (k, x) :: Memory.store m a v

/-- The canonical form: indices strictly rising, each listed once. An unlisted index has no value, so no entry can equal what
an unlisted index reads as. -/
def Memory.wf : Memory → Bool
  | [] => true
  | [_] => true
  | (k, _) :: (l, y) :: m => decide (k < l) && Memory.wf ((l, y) :: m)

/-! ### One byte of `MEM` -/

/-- `a & (CAP − 1)`: indices are masked (R10, R38). -/
def maskIndex (c : Config) (a : Nat) : Nat := a &&& (c.cap - 1)

/-- `MemRead(a, 1)` (R10, R38). A byte no command has written since reset reads as its free value (R38, 93 U1; log 2). -/
def memRead (s : State) (a : Nat) : Byte :=
  match Memory.lookup s.mem (maskIndex s.cfg a) with
  | some v => v
  | none => Config.unwrittenByte s.draws (maskIndex s.cfg a)

/-- `MemWrite(a, 1, v)` (R10, R38). -/
def memWrite (a : Nat) (v : Byte) (s : State) : State :=
  { s with mem := Memory.store s.mem (maskIndex s.cfg a) v }

/-- Several byte writes, in order. -/
def writeBytes : List (Nat × Byte) → State → State
  | [], s => s
  | (a, v) :: ws, s => writeBytes ws (memWrite a v s)

/-! ### Packets in memory (R40, R41) -/

/-- Source tag of the Packet whose header is at `p` (R40). -/
def sourceAt (s : State) (p : Nat) : Byte := memRead s p
/-- Flag byte (R40). -/
def flagsAt (s : State) (p : Nat) : Byte := memRead s (p + 1)
/-- Read cursor (R40). -/
def cursorAt (s : State) (p : Nat) : Byte := memRead s (p + 2)
/-- Length `n` in data bytes (R40). -/
def lengthAt (s : State) (p : Nat) : Nat := (memRead s (p + 3)).toNat
/-- The byte after the data (R40). -/
def trailerAt (s : State) (p : Nat) : Byte := memRead s (p + 4 + lengthAt s p)

/-- The source's `valid(packet)` (R41). -/
def validHeader (s : State) (p : Nat) : Bool :=
  decide (lengthAt s p ≤ maxLen) && decide ((cursorAt s p).toNat ≤ lengthAt s p)
    && decide ((sourceAt s p).toNat < srcLimit)

/-! ### Placement -/

/-- Where the Packet after one that ends just before `q` has its header: `q`, or 0 where a maximum-size Packet would not fit
before the end of `MEM` (R44, R48, R50). -/
def nextPosition (c : Config) (q : Nat) : Nat := if c.cap - q < maxSpan then 0 else q

/-- `Advance(p)` (R50). -/
def advance (s : State) (p : Nat) : Nat := nextPosition s.cfg (p + lengthAt s p + 5)

/-- `Room()` (R45). -/
def room (s : State) : Nat :=
  if s.npk = 0 then s.cfg.cap - s.w
  else if s.old < s.w then s.cfg.cap - s.w
  else if s.w < s.old then s.old - s.w
  else 0

/-- `REMOVABLE = NPK − LOCK` (R27). -/
def removable (s : State) : Nat := s.npk - s.lock.toNat

/-- `CAN_ACCEPT`: room for one more byte and the trailing zero (R27, R79). -/
def canAcceptByte (s : State) : Bool := decide (hdr + s.len.toNat + 2 ≤ room s)

/-- `IS_FULL`: the length limit or the room limit binds (R27, R80). -/
def bufferFull (s : State) : Bool := !(decide (s.len.toNat < maxLen) && canAcceptByte s)

/-- `AppendByte(b)` (R47). -/
def appendByte (b : Byte) (s : State) : State :=
  if s.len.toNat < maxLen ∧ hdr + s.len.toNat + 2 ≤ room s then
    { memWrite (s.w + hdr + s.len.toNat) b s with len := s.len + 1#8 }
  else orFlags flagOverflow s

/-- The writes `Commit` makes for the in-progress Packet: its header and its trailing zero (R48). -/
def packetWrites (s : State) : List (Nat × Byte) :=
  [(s.w, s.src), (s.w + 1, s.pfl), (s.w + 2, 0x00#8), (s.w + 3, s.len), (s.w + 4 + s.len.toNat, 0x00#8)]

/-- The writes `Commit` makes in the tail from `q` to the end of `MEM`, which an early wrap abandons: a sentinel, or zeros where
the tail is shorter than a header (R48). -/
def tailWrites (c : Config) (src : Byte) (q : Nat) : List (Nat × Byte) :=
  if minSpan ≤ c.cap - q then
    [(q, src), (q + 1, flagDeleted), (q + 2, 0x00#8), (q + 3, 0x00#8), (q + 4, 0x00#8)]
  else (List.range (c.cap - q)).map (fun i => (q + i, 0x00#8))

/-- Every write of `Commit`, in order (R48). -/
def commitWrites (s : State) : List (Nat × Byte) :=
  if s.cfg.cap - (s.w + s.len.toNat + 5) < maxSpan then
    packetWrites s ++ tailWrites s.cfg s.src (s.w + s.len.toNat + 5)
  else packetWrites s

/-- `Commit()` (R48). `OLD` is not written: where `NPK` was 0 it already equals `W` (log 10). -/
def commit (s : State) : State :=
  { writeBytes (commitWrites s) s with
    npk := s.npk + 1
    w := nextPosition s.cfg (s.w + s.len.toNat + 5)
    len := 0x00#8
    pfl := 0x00#8 }

/-- `DoForceSync()` (R67). -/
def doForceSync (s : State) : State := { s with escp := false, len := 0x00#8, pfl := 0x00#8 }

/-- An escape still pending when the Packet ends is a malformed escape (R75). -/
def endEscape (s : State) : State :=
  if s.escp then setEscp false (orFlags flagBadEscape s) else s

/-- The Packet cannot be placed at all (R75, C5). -/
def losePacket (s : State) : State := { s with lost := true, len := 0x00#8, pfl := 0x00#8 }

/-- `DoFinish()` (R75). -/
def doFinish (s : State) : State :=
  let s1 := endEscape s
  if hdr + s1.len.toNat + 1 ≤ room s1 then commit s1 else losePacket s1

/-- What `DecodeStep` does with a byte that no escape governs (R65): with `delimOn` a delimiter ends the Packet, `ESC` starts
an escape, any other byte is data. -/
def decodePlain (b : Byte) (delimOn : Bool) (s : State) : State :=
  if delimOn = true ∧ b = delim then doFinish s
  else if b = esc then setEscp true s
  else appendByte b s

/-- `DecodeStep(b, delim_on)` (R65). A byte that is no legal continuation is flagged and then decoded as unescaped (C9). -/
def decodeStep (b : Byte) (delimOn : Bool) (s : State) : State :=
  if s.escp then
    if b = escDelim then appendByte delim (setEscp false s)
    else if b = escEsc then appendByte esc (setEscp false s)
    else decodePlain b delimOn (orFlags flagBadEscape (setEscp false s))
  else decodePlain b delimOn s

/-- The consumer frees the oldest Packet's span: `OLD <- Advance(OLD); NPK <- NPK − 1` (R50). -/
def freeOldest (s : State) : State := { s with old := advance s s.old, npk := s.npk - 1 }

/-- The `n` bytes of `MEM` from index `p` up (R85). -/
def readSpan (s : State) (p n : Nat) : List Byte := (List.range n).map (fun i => memRead s (p + i))

/-! ### The walk of `CHECK` (R94) -/

/-- The tests `CHECK` makes of the occupying Packet whose header is at `p`. -/
def packetSound (s : State) (p : Nat) : Bool :=
  decide (p ≤ s.cfg.cap - maxSpan) && validHeader s p && trailerAt s p == 0x00#8

/-- Walk `k` Packets from `p`: each is sound, and the walk ends at `W`. -/
def walkSound (s : State) : Nat → Nat → Bool
  | 0, p => p == s.w
  | k + 1, p => packetSound s p && walkSound s k (advance s p)

/-- Everything `CHECK` tests (R94). -/
def checkPasses (s : State) : Bool :=
  decide (s.npk ≤ s.cfg.npkMax) && decide (s.lock.toNat ≤ s.npk) && (decide (0 < s.npk) || s.old == s.w)
    && decide (s.len.toNat ≤ maxLen) && walkSound s s.npk s.old

/-! ### Responses and halting -/

/-- Put a response record on port `p` (R56). -/
def setResponse (p : Port) (r : Response) (s : State) : State :=
  match p with
  | .producer => { s with resp := { s.resp with producer := some r } }
  | .consumer => { s with resp := { s.resp with consumer := some r } }
  | .tx => { s with resp := { s.resp with tx := some r } }

/-- `respond(v)` of a command that ran, with the bytes it emitted (R10, R56). -/
def respond (p : Port) (v : Word) (out : List Byte) (s : State) : State :=
  setResponse p { halted := false, value := v, out := out } s

/-- The record of a command that halted the block, or came while it was halted (R56, R99, R101). -/
abbrev haltedResponse : Response := { halted := true, value := 0#32, out := [] }

/-- `raise Fatal(code)` (R99): `HALT`, `DIAG` and the response, and no other change. -/
def fatal (p : Port) (code : Byte) (s : State) : State :=
  setResponse p haltedResponse { s with halt := true, diag := code }

/-- The diagnostic codes (R98). -/
abbrev illegalCommandCode : Byte := 0x01#8
abbrev badArgumentCode : Byte := 0x02#8
abbrev recursiveDispatchCode : Byte := 0x03#8
abbrev notDispatchingCode : Byte := 0x04#8
abbrev invalidPacketCode : Byte := 0x05#8

/-- A command that came while the block is halted is ignored (R101). -/
def ignored (p : Port) (s : State) : State := setResponse p haltedResponse s

/-- Every command but `STATUS` has its own effect only while `HALT = 0` (R101); `run` is that effect. -/
def unlessHalted (p : Port) (s run : State) : Host.Outcome State Fault Refusal :=
  if s.halt then .next (ignored p s) else .next run

/-- An illegal word received on port `p` (R61, R101). -/
def illegalWord (p : Port) (s : State) : State :=
  if s.halt then ignored p s else fatal p illegalCommandCode s

/-- `Emit(T, ..)`: bytes appended to the TX port's stream (R10, R36). -/
def emitTx (bs : List Byte) (s : State) : State := { s with txOut := s.txOut ++ bs }

/-- `Emit(C, ..)`: bytes appended to the consumer port's stream (R10, R36). -/
def emitConsumer (bs : List Byte) (s : State) : State := { s with copyOut := s.copyOut ++ bs }

/-! ### What a user sees from outside -/

/-- The STATUS word (R31, R92). -/
def statusWord (s : State) : Word :=
  (BitVec.ofBool s.halt).setWidth 32
    ||| (BitVec.ofBool s.lock).setWidth 32 <<< 1
    ||| (BitVec.ofBool s.escp).setWidth 32 <<< 2
    ||| (BitVec.ofBool (s.inMode == .byte)).setWidth 32 <<< 3
    ||| (BitVec.ofBool (s.outMode == .byte)).setWidth 32 <<< 4
    ||| (BitVec.ofBool (canAcceptByte s)).setWidth 32 <<< 5
    ||| (BitVec.ofBool (bufferFull s)).setWidth 32 <<< 6
    ||| (BitVec.ofBool s.lost).setWidth 32 <<< 7
    ||| s.diag.setWidth 32 <<< 8
    ||| s.pfl.setWidth 32 <<< 16

/-- The level output `avail_o` (R102); `AVAIL` of R27. -/
def availOut (s : State) : Bool := decide (0 < removable s)

/-- The level output `halt_o` (R102). -/
def haltOut (s : State) : Bool := s.halt

/-- The level output `lost_o` (R102). -/
def lostOut (s : State) : Bool := s.lost

/-- The output stream of a port since reset (R15, R36); the producer port never emits (R35). -/
def outStream (p : Port) (s : State) : List Byte :=
  match p with
  | .producer => []
  | .consumer => s.copyOut
  | .tx => s.txOut

/-- The last response record of a port (R56). -/
def lastResponse (p : Port) (s : State) : Option Response :=
  match p with
  | .producer => s.resp.producer
  | .consumer => s.resp.consumer
  | .tx => s.resp.tx

/-! ### Reset -/

/-- Reset of a running block (R108). The registers and streams take their reset values, `K` stays, and the contents of `MEM`
are unspecified from here on: each byte has a new free value until a command writes it (R38, R109; log 2, log 3). What the
agents have still to present stays. -/
def applyReset (s : State) : State :=
  { State.resetWith s.cfg with draws := s.draws + 1, inputs := s.inputs }

end Sys2Proof.Machine
end

