-- ==== Sys2Proof/Machine/Arbiter.lean ====
section
/-! DEFINITION. How the block takes its next command from what the agents present: at most one word on each port in one hardware
step, applied consumer, producer, TX (R52, R55), with reset between commands (R108). -/

namespace Sys2Proof.Machine

/-- What happens next. -/
inductive Taken where
  /-- No port presents a command: the state is held (R107). -/
  | idle (s : State)
  /-- Reset is applied (R108). -/
  | reset (s : State)
  /-- Port `p` presents the word `w`. -/
  | command (p : Port) (w : Word) (s : State)
deriving DecidableEq, Repr

/-- Take the next event of `inputs`. A hardware step that presents several commands gives them up one at a time, consumer
first, then producer, then TX (R52, R100, D3). -/
def takeInput (s : State) : Taken :=
  match s.inputs with
  | [] => .idle s
  | .reset :: rest => .reset { s with inputs := rest }
  | .present (some w) none none :: rest => .command .consumer w { s with inputs := rest }
  | .present (some w) p t :: rest => .command .consumer w { s with inputs := .present none p t :: rest }
  | .present none (some w) none :: rest => .command .producer w { s with inputs := rest }
  | .present none (some w) t :: rest => .command .producer w { s with inputs := .present none none t :: rest }
  | .present none none (some w) :: rest => .command .tx w { s with inputs := rest }
  | .present none none none :: rest => .idle { s with inputs := rest }

/-- One hardware step in which only port `p` presents a command, the word `w`. -/
def presentOn (p : Port) (w : Word) : Event :=
  match p with
  | .consumer => .present (some w) none none
  | .producer => .present none (some w) none
  | .tx => .present none none (some w)

end Sys2Proof.Machine
end

