-- ==== Sys2Proof/Machine/Operands.lean ====
section
/-! DEFINITION. How the operands of a command are read (R59), the layout and the legality of value operands (R32, R91), and the
response words that carry several fields (R83, R85). -/

namespace Sys2Proof.Machine

/-- The index of `RD`: `a = cmd[23:8] & (CAP − 1)` (R59, R88). -/
def operandIndex (c : Config) (a : BitVec 16) : Nat := maskIndex c a.toNat

/-- A mode selector's bit (R23): 0 = packet, 1 = byte. -/
def modeOfBit (b : Bool) : Mode := if b then .byte else .packet

/-- `v[0]`, the new `IN_MODE` (R32). -/
def operandInMode (v : Byte) : Mode := modeOfBit (v.getLsbD 0)

/-- `v[1]`, the new `OUT_MODE` (R32). -/
def operandOutMode (v : Byte) : Mode := modeOfBit (v.getLsbD 1)

/-- `v[7:2]` must be 0 (R32, R70). -/
def modeByteLegal (v : Byte) : Bool := v &&& 0xFC#8 == 0x00#8

/-- A legal source tag is below 41 (R24, R91). -/
def sourceLegal (v : Byte) : Bool := decide (v.toNat < srcLimit)

/-- A one-bit result, zero-extended to a response word (R79 to R82). -/
def boolWord (b : Bool) : Word := (BitVec.ofBool b).setWidth 32

/-- A response that carries a header position, one byte and the bit 1 (R83, R85). -/
def packetWord (p : Nat) (b : Byte) : Word := (BitVec.ofNat 32 p <<< 16) ||| (b.setWidth 32 <<< 8) ||| 1#32

end Sys2Proof.Machine
end

