-- ==== Sys2Proof/Machine/Control.lean ====
section
/-! DEFINITION. The handler access, configuration, status and debug commands of 42_control.md: one meaning for each command. -/

namespace Sys2Proof.Machine

/-- `RD a` (R88). -/
def execRd (a : BitVec 16) (s : State) : Host.Outcome State Fault Refusal :=
  unlessHalted .consumer s (respond .consumer ((memRead s (operandIndex s.cfg a)).setWidth 32) [] s)

/-- `WR_CURSOR v` (R89): "not dispatching" is tested before the argument (R100). -/
def execWrCursor (v : Byte) (s : State) : Host.Outcome State Fault Refusal :=
  unlessHalted .consumer s
    (if s.lock then
       if lengthAt s s.old < v.toNat then fatal .consumer badArgumentCode s
       else respond .consumer 0#32 [] (memWrite (s.old + 2) v s)
     else fatal .consumer notDispatchingCode s)

/-- `SET_SOURCE v` (R91). -/
def execSetSource (v : Byte) (s : State) : Host.Outcome State Fault Refusal :=
  unlessHalted .producer s
    (if sourceLegal v then respond .producer 0#32 [] (setSrc v s) else fatal .producer badArgumentCode s)

/-- `STATUS` (R92), the one command that runs while the block is halted; `halted` of its record is then 1 (R101). -/
def execStatus (s : State) : Host.Outcome State Fault Refusal :=
  .next (setResponse .consumer { halted := s.halt, value := statusWord s, out := [] } s)

/-- `CLEAR_LOST` (R93). -/
def execClearLost (s : State) : Host.Outcome State Fault Refusal :=
  unlessHalted .consumer s (respond .consumer 0#32 [] (setLost false s))

/-- `CHECK` (R94). -/
def execCheck (s : State) : Host.Outcome State Fault Refusal :=
  unlessHalted .consumer s
    (if checkPasses s then respond .consumer 1#32 [] s else fatal .consumer invalidPacketCode s)

/-- `NOP` on port `p` (R95). -/
def execNop (p : Port) (s : State) : Host.Outcome State Fault Refusal :=
  unlessHalted p s (respond p 0#32 [] s)

end Sys2Proof.Machine
end

