-- ==== Sys2Proof/Machine/Framer.lean ====
section
/-! DEFINITION. The Framer/Deframer commands of 40_framer.md: one meaning for each command. -/

namespace Sys2Proof.Machine

/-- What `RX_BYTE` does with the inbound byte once its errors are folded in (R68): in byte mode the byte is a Packet of its
own, in packet mode it is decoded. -/
def receiveByte (b : Byte) (s : State) : State :=
  match s.inMode with
  | .byte => doFinish (appendByte b s)
  | .packet => decodeStep b true s

/-- `RX_BYTE b, e` (R68): the error fold comes first (R66). -/
def execRxByte (b : Byte) (e : BitVec 4) (s : State) : Host.Outcome State Fault Refusal :=
  unlessHalted .producer s (respond .producer 0#32 [] (receiveByte b (foldErrors e s)))

/-- `FORCE_SYNC` (R69). -/
def execForceSync (s : State) : Host.Outcome State Fault Refusal :=
  unlessHalted .producer s (respond .producer 0#32 [] (doForceSync s))

/-- The new modes of a legal `SET_MODE v` (R70): a change of `IN_MODE` first abandons the partial Packet. -/
def writeModes (v : Byte) (s : State) : State :=
  setModes (operandInMode v) (operandOutMode v) (if operandInMode v = s.inMode then s else doForceSync s)

/-- `SET_MODE v` (R70). -/
def execSetMode (v : Byte) (s : State) : Host.Outcome State Fault Refusal :=
  unlessHalted .producer s
    (if modeByteLegal v then respond .producer 0#32 [] (writeModes v s) else fatal .producer badArgumentCode s)

/-- The wire bytes of one outbound data byte (R71). -/
def encodeTx (m : Mode) (b : Byte) : List Byte :=
  match m with
  | .byte => [b]
  | .packet => if b = delim then [esc, escDelim] else if b = esc then [esc, escEsc] else [b]

/-- The wire bytes that end an outbound Packet (R72). -/
def endTx (m : Mode) : List Byte :=
  match m with
  | .byte => []
  | .packet => [delim]

/-- `TX_BYTE b` (R71). -/
def execTxByte (b : Byte) (s : State) : Host.Outcome State Fault Refusal :=
  unlessHalted .tx s (respond .tx 0#32 (encodeTx s.outMode b) (emitTx (encodeTx s.outMode b) s))

/-- `TX_END` (R72). -/
def execTxEnd (s : State) : Host.Outcome State Fault Refusal :=
  unlessHalted .tx s (respond .tx 0#32 (endTx s.outMode) (emitTx (endTx s.outMode) s))

end Sys2Proof.Machine
end

