-- ==== Sys2Proof/Machine/RingStore.lean ====
section
/-! DEFINITION. The Ring Store commands of 41_ring_store.md: one meaning for each command. -/

namespace Sys2Proof.Machine

/-- `FINISH` (R76). -/
def execFinish (s : State) : Host.Outcome State Fault Refusal :=
  unlessHalted .producer s (respond .producer 0#32 [] (doFinish s))

/-- `STORE_RAW b` (R77). -/
def execStoreRaw (b : Byte) (s : State) : Host.Outcome State Fault Refusal :=
  unlessHalted .producer s (respond .producer 0#32 [] (appendByte b s))

/-- `STORE_DATA b` (R78): escape decoding without delimiter detection. -/
def execStoreData (b : Byte) (s : State) : Host.Outcome State Fault Refusal :=
  unlessHalted .producer s (respond .producer 0#32 [] (decodeStep b false s))

/-- `CAN_ACCEPT` (R79). -/
def execCanAccept (s : State) : Host.Outcome State Fault Refusal :=
  unlessHalted .producer s (respond .producer (boolWord (canAcceptByte s)) [] s)

/-- `IS_FULL` (R80). -/
def execIsFull (s : State) : Host.Outcome State Fault Refusal :=
  unlessHalted .producer s (respond .producer (boolWord (bufferFull s)) [] s)

/-- `COUNT` (R81). -/
def execCount (s : State) : Host.Outcome State Fault Refusal :=
  unlessHalted .consumer s (respond .consumer (BitVec.ofNat 32 (removable s)) [] s)

/-- `IS_EMPTY` (R82). -/
def execIsEmpty (s : State) : Host.Outcome State Fault Refusal :=
  unlessHalted .consumer s (respond .consumer (boolWord (removable s == 0)) [] s)

/-- `DISPATCH_BEGIN` (R83): a dispatch already in progress is tested before the empty store (R100). -/
def execDispatchBegin (s : State) : Host.Outcome State Fault Refusal :=
  unlessHalted .consumer s
    (if s.lock then fatal .consumer recursiveDispatchCode s
     else if s.npk = 0 then respond .consumer 0#32 [] s
     else respond .consumer (packetWord s.old (sourceAt s s.old)) [] (setLock true s))

/-- `DISPATCH_END` (R84). -/
def execDispatchEnd (s : State) : Host.Outcome State Fault Refusal :=
  unlessHalted .consumer s
    (if s.lock then respond .consumer 0#32 [] (setLock false (freeOldest s))
     else fatal .consumer notDispatchingCode s)

/-- The bytes of the Packet whose header is at `p`: header, data and trailing zero (R85). -/
def packetBytes (s : State) (p : Nat) : List Byte := readSpan s p (lengthAt s p + 5)

/-- `COPY_OUT` (R85): the whole Packet on the consumer port's stream, its span freed. -/
def execCopyOut (s : State) : Host.Outcome State Fault Refusal :=
  unlessHalted .consumer s
    (if s.lock then fatal .consumer recursiveDispatchCode s
     else if s.npk = 0 then respond .consumer 0#32 [] s
     else respond .consumer (packetWord s.old (memRead s (s.old + 3))) (packetBytes s s.old)
       (freeOldest (emitConsumer (packetBytes s s.old) s)))

end Sys2Proof.Machine
end

