-- ==== Sys2Proof/Machine/Dispatch.lean ====
section
/-! DEFINITION. What each command does to the state: one arm for each constructor of `Instr`, in the order of R60. -/

namespace Sys2Proof.Machine

def exec (i : Instr) (s : State) : Host.Outcome State Fault Refusal :=
  match i with
  | .nop p => Sys2Proof.Machine.execNop p s
  | .rxByte b e => Sys2Proof.Machine.execRxByte b e s
  | .storeRaw b => Sys2Proof.Machine.execStoreRaw b s
  | .storeData b => Sys2Proof.Machine.execStoreData b s
  | .finish => Sys2Proof.Machine.execFinish s
  | .forceSync => Sys2Proof.Machine.execForceSync s
  | .canAccept => Sys2Proof.Machine.execCanAccept s
  | .isFull => Sys2Proof.Machine.execIsFull s
  | .setMode v => Sys2Proof.Machine.execSetMode v s
  | .setSource v => Sys2Proof.Machine.execSetSource v s
  | .count => Sys2Proof.Machine.execCount s
  | .isEmpty => Sys2Proof.Machine.execIsEmpty s
  | .dispatchBegin => Sys2Proof.Machine.execDispatchBegin s
  | .dispatchEnd => Sys2Proof.Machine.execDispatchEnd s
  | .copyOut => Sys2Proof.Machine.execCopyOut s
  | .rd a => Sys2Proof.Machine.execRd a s
  | .wrCursor v => Sys2Proof.Machine.execWrCursor v s
  | .status => Sys2Proof.Machine.execStatus s
  | .check => Sys2Proof.Machine.execCheck s
  | .clearLost => Sys2Proof.Machine.execClearLost s
  | .txByte b => Sys2Proof.Machine.execTxByte b s
  | .txEnd => Sys2Proof.Machine.execTxEnd s

end Sys2Proof.Machine
end

