-- ==== Sys2Proof/Machine/Step.lean ====
section
/-! DEFINITION. One step of the block: the next command, reset or idle hardware step of its inputs (R33, R51, R52). -/

namespace Sys2Proof.Machine

/-- One step. A command is decoded on the port that received it and runs whole (R51); an illegal word is R61's fatal halt,
ignored while the block is halted (R101). -/
def step (s : State) : Host.Outcome State Fault Refusal :=
  match takeInput s with
  | .idle s' => .next s'
  | .reset s' => .next (applyReset s')
  | .command p w s' =>
    match decode p w with
    | .ok i => exec i s'
    | .error _ => .next (illegalWord p s')

/-- `s` with the table word `w` presented next, alone in its hardware step, on the port its opcode names (log 4, log 9). -/
def State.withFetchWord (s : State) (_nbits w : Nat) : State :=
  { s with inputs := presentOn (portOfWord (BitVec.ofNat 32 w)) (BitVec.ofNat 32 w) :: s.inputs }

end Sys2Proof.Machine
end

