-- ==== Sys2Proof/Safety.lean ====
section
/-! DEFINITION. What counts as a safe run, and the invariants of the block (R37), in the terms claims use. -/

/-- The end of a run, judged: "a halted block is a fault state: it is never a successful end of a run" (R101). -/
def Sys2Proof.Safety.verdict (s : Sys2Proof.Machine.State) :
    Host.Outcome Sys2Proof.Machine.State Sys2Proof.Machine.Fault Sys2Proof.Machine.Refusal :=
  if s.halt then .fault (.fatalHalt s.diag) else .next s

namespace Sys2Proof.Machine

/-- Run commands one after another, stopping at the first that gives no next state. -/
def execAll : List Instr → State → Host.Outcome State Fault Refusal
  | [], s => .next s
  | i :: is, s =>
    match exec i s with
    | .next t => execAll is t
    | .fault r => .fault r
    | .refused r => .refused r

/-- The header positions of `k` occupying Packets from `p` on, oldest first (R46, R50). -/
def walk (s : State) : Nat → Nat → List Nat
  | 0, _ => []
  | k + 1, p => p :: walk s k (advance s p)

/-- The header positions of all occupying Packets, oldest first (R46). -/
def occupying (s : State) : List Nat := walk s s.npk s.old

/-- The index just past the Packet whose header is at `p` (R8, R40). -/
def spanEnd (s : State) (p : Nat) : Nat := p + lengthAt s p + 5

/-- What a consumer takes a Packet for: its source tag, its flags and its data bytes (R40). The cursor is left out: it is the
reader's own mark (R89). -/
structure PacketView where
  source : Byte
  flags : Byte
  data : List Byte
deriving DecidableEq, Repr

/-- The Packet whose header is at `p`. -/
def packetView (s : State) (p : Nat) : PacketView :=
  { source := sourceAt s p, flags := flagsAt s p, data := readSpan s (p + 4) (lengthAt s p) }

/-- The occupying Packets, oldest first, as a consumer sees them (R46, R86). -/
def storedPackets (s : State) : List PacketView := (occupying s).map (packetView s)

/-- The data bytes of the in-progress Packet (R16). -/
def inProgressData (s : State) : List Byte := readSpan s (s.w + 4) s.len.toNat

/-- The invariants of single registers: I1, I2 for `W`, I4, I6, I8 of R37, the legal source tag (R24) and the recorded codes
(R98). -/
structure State.RegisterInv (s : State) : Prop where
  lenAtMost : s.len.toNat ≤ maxLen
  writeIndexPlaced : s.w ≤ s.cfg.cap - maxSpan
  lockHoldsPacket : s.lock = true → 1 ≤ s.npk
  pflBits : s.pfl &&& 0xC0#8 = 0x00#8
  haltIffCode : s.halt = false ↔ s.diag = 0x00#8
  codeKnown : s.diag.toNat ≤ 5
  sourceTagLegal : s.src.toNat < srcLimit

/-- `MEM` is in its canonical form and holds no index outside `0 .. CAP − 1` (R38, R39). -/
structure State.MemoryInv (s : State) : Prop where
  canonical : Memory.wf s.mem = true
  inside : ∀ c ∈ s.mem, c.1 < s.cfg.cap

/-- The invariants of the ring: I3, I5, I7 and I9 of R37, and what makes them last: the spans of the occupying Packets are
apart from each other and from the room of the in-progress Packet (R44, R46), a Packet not yet held has cursor 0 (R85), and
header flag bits 6 and 7 are 0 (R30). -/
structure State.RingInv (s : State) : Prop where
  emptyAtWrite : s.npk = 0 → s.old = s.w
  dataPlaced : 0 < s.len.toNat → hdr + s.len.toNat + 1 ≤ room s
  countAtMost : s.npk ≤ s.cfg.npkMax
  walkReachesWrite : walkSound s s.npk s.old = true
  spansApart : (occupying s).Pairwise (fun p q => spanEnd s p ≤ q ∨ spanEnd s q ≤ p)
  roomApart : ∀ p ∈ occupying s, spanEnd s p ≤ s.w ∨ s.w + room s ≤ p
  cursorsUnread : ∀ p ∈ (occupying s).drop s.lock.toNat, cursorAt s p = 0x00#8
  headerFlags : ∀ p ∈ occupying s, flagsAt s p &&& 0xC0#8 = 0x00#8

/-- Every byte a command other than `RD` may read has been written since reset (R110): the whole span of each occupying Packet
and the data of the in-progress Packet. -/
structure State.WrittenInv (s : State) : Prop where
  packets : ∀ p ∈ occupying s, ∀ j, j < lengthAt s p + 5 → (Memory.lookup s.mem (p + j)).isSome = true
  inProgress : ∀ j, j < s.len.toNat → (Memory.lookup s.mem (s.w + 4 + j)).isSome = true

/-- All invariants of R37. -/
structure State.Inv (s : State) : Prop where
  registers : s.RegisterInv
  memory : s.MemoryInv
  ring : s.RingInv

/-- A safe state: every invariant holds and the block is not halted (R101). -/
structure State.Safe (s : State) : Prop where
  inv : s.Inv
  running : s.halt = false

end Sys2Proof.Machine
end

