-- ==== Sys2Proof/Certificates/Slice0/Obligations.lean ====
section
/-! DEFINITION. The statements about the block, from the numbered rules of the spec. An update `{ s with .. }` on the right of an
equation says that every field it does not name is unchanged; `setResponse p r s` is `s` with the response record of port `p`
replaced by `r`; memory is compared through `memRead`, which masks its index (R38). -/

open Sys2Proof Sys2Proof.Machine

/-- The response of a command that ran: not halted, value `v`, bytes `out` (R56). -/
abbrev answer (v : Word) (out : List Byte := []) : Response := { halted := false, value := v, out := out }

/-- The response of a command that halted the block or came while it was halted (R56, R99, R101). -/
abbrev haltedAnswer : Response := { halted := true, value := 0#32, out := [] }

/-- `t` is `s` after the data byte `b` was appended to the in-progress Packet (the first branch of R47): one byte of `MEM` is
written, `LEN` counts it, and of the other registers only `PFL` and `ESCP` may have changed, to `pfl` and `escp`. -/
def appendedByte (b pfl : Byte) (escp : Bool) (s t : State) : Prop :=
  t = setResponse .producer (answer 0#32) { s with mem := t.mem, len := s.len + 1#8, pfl := pfl, escp := escp }
    ∧ memRead t (s.w + 4 + s.len.toNat) = b
    ∧ ∀ a, a % s.cfg.cap ≠ (s.w + 4 + s.len.toNat) % s.cfg.cap → memRead t a = memRead s a

/-- What the word `w` does on port `p`: the command it decodes to runs; an illegal word raises `Fatal(0x01)` in a running block and
is ignored by a halted one (R51, R61, R101). -/
def applyWord (p : Port) (w : Word) (s : State) : Host.Outcome State Fault Refusal :=
  match decode p w with
  | .ok i => exec i s
  | .error _ => .next (setResponse p haltedAnswer (if s.halt then s else { s with halt := true, diag := 0x01#8 }))

/-- Words applied one after another, each on its port. -/
def applyWords : List (Port × Word) → State → Host.Outcome State Fault Refusal
  | [], s => .next s
  | (p, w) :: ws, s =>
    match applyWord p w s with
    | .next t => applyWords ws t
    | .fault r => .fault r
    | .refused r => .refused r

/-- The words one hardware step presents, in the order the block applies them (R52). -/
def presentedWords (c p t : Option Word) : List (Port × Word) :=
  c.toList.map (Prod.mk .consumer) ++ p.toList.map (Prod.mk .producer) ++ t.toList.map (Prod.mk .tx)

/-- The in-progress Packet can take one more data byte (the test of R47). -/
abbrev takesByte (s : State) : Prop := s.len.toNat < 252 ∧ 4 + s.len.toNat + 2 ≤ room s

/-! ### Encoding and decoding -/

/-- Words written out from the formats of R58 and the opcodes of R60 (vectors E1 to E14): what each is on its port. -/
def Obligations.SpecWordsDecode : Prop :=
  decode .producer 0b00000001000000000000000101000001#32 = .ok (.rxByte 0x41#8 0x1#4)
    ∧ decode .producer 0b00001000000000000000000000000100#32 = .ok (.setMode 4#8)
    ∧ decode .consumer 0b01000110000000010010001100000000#32 = .ok (.rd 0x123#16)
    ∧ decode .tx 0b10000001000000000000000000001010#32 = .ok (.txByte 0x0A#8)
    ∧ decode .consumer 0#32 = .ok (.nop .consumer)
    ∧ decode .producer 0x01001041#32 = .error .reservedBit
    ∧ decode .producer 0x41000000#32 = .error .otherPort
    ∧ decode .consumer 0x46000001#32 = .error .reservedBit
    ∧ decode .producer 0x0A000000#32 = .error .unassignedOpcode
    ∧ decode .tx 0x82000001#32 = .error .reservedBit

/-- Decoding the word of a command gives the command back, for every command and every operand value (R58, R60). For `RD` with an
operand of CAP or more this is the model's choice (log 8, DEDUCED): R59 masks the operand, so that vector E6 reads 0x46FFFF00 as
`RD 0x3FF`, while the model keeps the 16-bit field whole and masks it when the command runs. -/
def Obligations.DecodeOfEncode : Prop :=
  ∀ (p : Port) (i : Instr), i.wellFormedOn p = true → decode p (encode i) = .ok i

/-- Every word that decodes is the word of the command it decodes to, and that command belongs to the port (R60). For `RD` this is
the model's choice (log 8, DEDUCED): with the operand masked as R59 has it, 0x46FFFF00 and 0x4603FF00 are one `RD 0x3FF` at
K = 10 (vector E6), while the model keeps the 16-bit field whole and masks it when the command runs. -/
def Obligations.EncodeOfDecode : Prop :=
  ∀ (p : Port) (w : Word) (i : Instr), decode p w = .ok i → i.wellFormedOn p = true ∧ encode i = w

/-- The three checks of R61 in their order: an opcode outside the map; else an opcode of another port, which is one whose
`OP[7:6]` names another port and that is not `NOP`; else a reserved bit of the format. -/
def Obligations.IllegalWordChecksInOrder : Prop :=
  ∀ (p : Port) (w : Word),
    (decode p w = .error .unassignedOpcode ↔
      (0x0A ≤ (w.toNat >>> 24) ∧ (w.toNat >>> 24) ≤ 0x40) ∨ (0x4B ≤ (w.toNat >>> 24) ∧ (w.toNat >>> 24) ≤ 0x80)
        ∨ 0x83 ≤ (w.toNat >>> 24))
    ∧ (decode p w = .error .otherPort ↔
      (∃ o : Opcode, o.code.toNat = w.toNat >>> 24 ∧ o ≠ .nop
        ∧ w.toNat >>> 30 ≠ (match p with | .producer => 0 | .consumer => 1 | .tx => 2)))
    ∧ (decode p w = .error .reservedBit ↔
      (∃ o : Opcode, o.code.toNat = w.toNat >>> 24
        ∧ (o = .nop ∨ w.toNat >>> 30 = (match p with | .producer => 0 | .consumer => 1 | .tx => 2))
        ∧ w &&& o.format.reserved ≠ 0#32))

/-! ### One step -/

/-- A word presented alone that decodes to `i` runs as `i`, with the word taken off the inputs (R33, R51). -/
def Obligations.StepRunsDecodedCommand : Prop :=
  ∀ (s : State) (p : Port) (w : Word) (i : Instr) (rest : List Event),
    s.inputs = presentOn p w :: rest → decode p w = .ok i → step s = exec i { s with inputs := rest }

/-- Any words, legal or illegal, presented by one, two or all three ports in one hardware step are applied consumer first, then
producer, then TX, and end as those words one after another do (R52, R100). -/
def Obligations.HardwareStepRunsConsumerProducerTx : Prop :=
  ∀ (s : State) (c p t : Option Word) (rest : List Event),
    s.inputs = .present c p t :: rest → presentedWords c p t ≠ [] →
    Sys2Proof.core.run (presentedWords c p t).length s = applyWords (presentedWords c p t) { s with inputs := rest }

/-- An illegal word raises `Fatal(0x01)` when the block is not halted, and is ignored when it is (R61, R101). -/
def Obligations.IllegalWordHalts : Prop :=
  ∀ (s : State) (p : Port) (w : Word) (e : Illegal) (rest : List Event),
    s.inputs = presentOn p w :: rest → decode p w = .error e →
    step s = .next (setResponse p haltedAnswer
      (if s.halt then { s with inputs := rest } else { s with inputs := rest, halt := true, diag := 0x01#8 }))

/-- With no command presented the state is held (R107). -/
def Obligations.IdleHoldsState : Prop :=
  ∀ (s : State), (s.inputs = [] → step s = .next s)
    ∧ ∀ rest, s.inputs = .present none none none :: rest → step s = .next { s with inputs := rest }

/-- Reset gives every register of R15 and both streams their reset values from any state, a halted one too (R108), and every byte
of `MEM` reads as a free value (R38); that reset draws those values afresh is the model's choice (log 3). -/
def Obligations.ResetSetsEveryRegister : Prop :=
  ∀ (s : State) (rest : List Event), s.inputs = .reset :: rest →
    ∃ t, step s = .next t ∧ t.w = 0 ∧ t.old = 0 ∧ t.len = 0#8 ∧ t.pfl = 0#8 ∧ t.escp = false ∧ t.npk = 0 ∧ t.lock = false
      ∧ t.inMode = .packet ∧ t.outMode = .packet ∧ t.src = 0#8 ∧ t.lost = false ∧ t.halt = false ∧ t.diag = 0#8
      ∧ t.txOut = [] ∧ t.copyOut = [] ∧ t.cfg = s.cfg ∧ t.inputs = rest
      ∧ ∀ a, memRead t a = Config.unwrittenByte t.draws (a % s.cfg.cap)

/-- What the ports observe right after reset, for every K (R109). -/
def Obligations.PortsAfterReset : Prop :=
  ∀ (c : Config) (s : State), s = State.resetWith c →
    room s = c.cap
      ∧ exec .canAccept s = .next (setResponse .producer (answer 1#32) s)
      ∧ exec .isFull s = .next (setResponse .producer (answer 0#32) s)
      ∧ exec .count s = .next (setResponse .consumer (answer 0#32) s)
      ∧ exec .isEmpty s = .next (setResponse .consumer (answer 1#32) s)
      ∧ exec .dispatchBegin s = .next (setResponse .consumer (answer 0#32) s)
      ∧ exec .copyOut s = .next (setResponse .consumer (answer 0#32) s)
      ∧ exec .status s = .next (setResponse .consumer (answer 0x00000020#32) s)
      ∧ exec .check s = .next (setResponse .consumer (answer 1#32) s)
      ∧ availOut s = false ∧ haltOut s = false ∧ lostOut s = false
      ∧ ∀ a : BitVec 16, exec (.rd a) s
          = .next (setResponse .consumer (answer ((Config.unwrittenByte s.draws (a.toNat % c.cap)).setWidth 32)) s)

/-! ### Halting -/

/-- A command that halts the block changes nothing but `HALT`, `DIAG` and its response, and records one of the codes of the
commands (R99). -/
def Obligations.HaltIsPrecise : Prop :=
  ∀ (i : Instr) (s t : State), s.halt = false → exec i s = .next t → t.halt = true →
    t = setResponse i.port haltedAnswer { s with halt := true, diag := t.diag }
      ∧ (t.diag = 0x02#8 ∨ t.diag = 0x03#8 ∨ t.diag = 0x04#8 ∨ t.diag = 0x05#8)

/-- While halted every command but `STATUS` is ignored, and `STATUS` answers the STATUS word with `halted = 1` (R101). -/
def Obligations.HaltedIgnoresCommands : Prop :=
  ∀ (i : Instr) (s : State), s.halt = true →
    (i ≠ .status → exec i s = .next (setResponse i.port haltedAnswer s))
      ∧ exec .status s = .next (setResponse .consumer { halted := true, value := statusWord s, out := [] } s)

/-- Only reset leaves the halt: any number of steps without one keeps a halted block halted, and changes nothing but the
responses and the inputs (R101). -/
def Obligations.OnlyResetLeavesHalt : Prop :=
  ∀ (n : Nat) (s : State), s.halt = true → Event.reset ∉ s.inputs →
    ∃ t, Sys2Proof.core.run n s = .next t ∧ t = { s with resp := t.resp, inputs := t.inputs }

/-- Every command ends in a next state, whatever the state, and so does every step: no command waits (R51, R53). -/
def Obligations.EveryCommandCompletes : Prop :=
  (∀ (i : Instr) (s : State), ∃ t, exec i s = .next t) ∧ ∀ s : State, ∃ t, step s = .next t

/-! ### Invariants -/

/-- The state right after reset meets every invariant, for every K (R37, R108). -/
def Obligations.ResetMeetsInvariants : Prop := ∀ c : Config, (State.resetWith c).Inv ∧ (State.resetWith c).WrittenInv

/-- Every step keeps the ranges of the registers (R37 I1, I2 for `W`, I4, I6, I8; R24; R98). -/
def Obligations.StepKeepsRegisterRanges : Prop :=
  ∀ s t : State, s.RegisterInv → step s = .next t → t.RegisterInv

/-- Every step keeps `MEM` in its canonical form and inside the index space (R38, R39). -/
def Obligations.StepKeepsMemoryCanonical : Prop :=
  ∀ s t : State, s.MemoryInv → step s = .next t → t.MemoryInv

/-- Every step keeps all invariants of R37: registers, memory and the ring of contiguous, separate, sound Packets that the walk
from `OLD` visits and that ends at `W`. -/
def Obligations.StepKeepsAllInvariants : Prop := ∀ s t : State, s.Inv → step s = .next t → t.Inv

/-- Every step keeps it true that each byte a command other than `RD` may read has been written since reset (R110). -/
def Obligations.StepKeepsReadBytesWritten : Prop :=
  ∀ s t : State, s.Inv → s.WrittenInv → step s = .next t → t.WrittenInv

/-- No command but `RD` reads a byte the commands have not written (R110): whatever the unwritten bytes hold, the outcome is
the same. The unwritten bytes are varied through the counter `draws`, which is the model's own (log 2). -/
def Obligations.UnwrittenBytesReachOnlyRd : Prop :=
  ∀ (i : Instr) (s t : State) (d : Nat), s.Inv → s.WrittenInv → (∀ a, i ≠ .rd a) → exec i s = .next t →
    exec i { s with draws := d } = .next { t with draws := d }

/-- In a state that meets the invariants `CHECK` passes and answers 1 (R94, corner cases). -/
def Obligations.CheckPassesUnderInvariants : Prop :=
  ∀ s : State, s.Inv → s.halt = false → exec .check s = .next (setResponse .consumer (answer 1#32) s)

/-! ### Storing data bytes -/

/-- `STORE_RAW b` appends `b` verbatim and leaves `ESCP` alone; where the Packet cannot take a byte it is discarded and OVERFLOW
set (R77, R47). -/
def Obligations.StoreRawAppendsVerbatim : Prop :=
  ∀ (b : Byte) (s : State),
    encode (.storeRaw b) = 0x02000000#32 ||| b.setWidth 32
      ∧ (s.halt = false → takesByte s → ∃ t, exec (.storeRaw b) s = .next t ∧ appendedByte b s.pfl s.escp s t)
      ∧ (s.halt = false → ¬ takesByte s →
          exec (.storeRaw b) s = .next (setResponse .producer (answer 0#32) { s with pfl := s.pfl ||| 0x10#8 }))

/-- `STORE_DATA b` decodes escapes and no delimiter: with no escape pending `0xDB` only sets `ESCP` and any other byte, `0x0A` too,
is data; after an escape `0xDC` is the data byte `0x0A`, `0xDD` the data byte `0xDB`, and any other byte sets BAD_ESCAPE and
is then decoded as unescaped (R78). -/
def Obligations.StoreDataDecodesEscapes : Prop :=
  ∀ (b : Byte) (s : State),
    encode (.storeData b) = 0x03000000#32 ||| b.setWidth 32
      ∧ (s.halt = false → s.escp = false → b = 0xDB#8 →
          exec (.storeData b) s = .next (setResponse .producer (answer 0#32) { s with escp := true }))
      ∧ (s.halt = false → s.escp = false → b ≠ 0xDB#8 → takesByte s →
          ∃ t, exec (.storeData b) s = .next t ∧ appendedByte b s.pfl false s t)
      ∧ (s.halt = false → s.escp = false → b ≠ 0xDB#8 → ¬ takesByte s →
          exec (.storeData b) s = .next (setResponse .producer (answer 0#32) { s with pfl := s.pfl ||| 0x10#8 }))
      ∧ (s.halt = false → s.escp = true → b = 0xDC#8 →
          exec (.storeData b) s = exec (.storeRaw 0x0A#8) { s with escp := false })
      ∧ (s.halt = false → s.escp = true → b = 0xDD#8 →
          exec (.storeData b) s = exec (.storeRaw 0xDB#8) { s with escp := false })
      ∧ (s.halt = false → s.escp = true → b ≠ 0xDC#8 → b ≠ 0xDD#8 →
          exec (.storeData b) s = exec (.storeData b) { s with escp := false, pfl := s.pfl ||| 0x20#8 })

/-- `RX_BYTE b, e` in packet mode: the errors are folded into `PFL` first (R66); then, with no escape pending, the delimiter ends
the Packet, `0xDB` only sets `ESCP`, and any other byte is data; after an escape the two legal continuations are the data
bytes `0x0A` and `0xDB`, and any other byte sets BAD_ESCAPE and is then decoded as unescaped (R65, R68). -/
def Obligations.RxByteDecodesPacketMode : Prop :=
  ∀ (b : Byte) (e : BitVec 4) (s : State), s.halt = false → s.inMode = .packet →
    encode (.rxByte b e) = 0x01000000#32 ||| (e.setWidth 32 <<< 8) ||| b.setWidth 32
      ∧ (s.escp = false → b = 0x0A#8 → exec (.rxByte b e) s = exec .finish { s with pfl := s.pfl ||| e.setWidth 8 })
      ∧ (s.escp = false → b = 0xDB#8 →
          exec (.rxByte b e) s
            = .next (setResponse .producer (answer 0#32) { s with pfl := s.pfl ||| e.setWidth 8, escp := true }))
      ∧ (s.escp = false → b ≠ 0x0A#8 → b ≠ 0xDB#8 → takesByte s →
          ∃ t, exec (.rxByte b e) s = .next t ∧ appendedByte b (s.pfl ||| e.setWidth 8) false s t)
      ∧ (s.escp = false → b ≠ 0x0A#8 → b ≠ 0xDB#8 → ¬ takesByte s →
          exec (.rxByte b e) s
            = .next (setResponse .producer (answer 0#32) { s with pfl := s.pfl ||| e.setWidth 8 ||| 0x10#8 }))
      ∧ (s.escp = true → b = 0xDC#8 →
          exec (.rxByte b e) s = exec (.storeRaw 0x0A#8) { s with escp := false, pfl := s.pfl ||| e.setWidth 8 })
      ∧ (s.escp = true → b = 0xDD#8 →
          exec (.rxByte b e) s = exec (.storeRaw 0xDB#8) { s with escp := false, pfl := s.pfl ||| e.setWidth 8 })
      ∧ (s.escp = true → b ≠ 0xDC#8 → b ≠ 0xDD#8 →
          exec (.rxByte b e) s
            = exec (.rxByte b 0#4) { s with escp := false, pfl := s.pfl ||| e.setWidth 8 ||| 0x20#8 })

/-- `RX_BYTE b, e` in byte mode is the error fold, then the byte verbatim, then a finish, whatever the byte (R68). -/
def Obligations.RxByteByteModeIsStoreThenFinish : Prop :=
  ∀ (b : Byte) (e : BitVec 4) (s : State), s.halt = false → s.inMode = .byte →
    exec (.rxByte b e) s = execAll [.storeRaw b, .finish] { s with pfl := s.pfl ||| e.setWidth 8 }

/-- In byte mode every raw byte, the delimiter and the escape too, becomes a Packet of that one byte at once, with its transport
errors among its flags; an escape left pending is flagged BAD_ESCAPE and cleared (R68). -/
def Obligations.RxByteByteModeMakesPacket : Prop :=
  ∀ (b : Byte) (e : BitVec 4) (s : State), s.Inv → s.halt = false → s.inMode = .byte → s.len = 0#8 → 6 ≤ room s →
    ∃ t, exec (.rxByte b e) s = .next t ∧ t.npk = s.npk + 1 ∧ t.len = 0#8 ∧ t.escp = false
      ∧ storedPackets t = storedPackets s ++
          [{ source := s.src, flags := s.pfl ||| e.setWidth 8 ||| (if s.escp then 0x20#8 else 0#8), data := [b] }]

/-! ### Finishing a Packet -/

/-- `FINISH` where the header and trailing zero fit: the header, the trailing zero, the sentinel or zero fill of an abandoned tail,
and no other byte of `MEM`; the new registers; the rest unchanged (R76, R75, R48). -/
def Obligations.FinishCommitsPacket : Prop :=
  ∀ (s : State) (q : Nat), s.halt = false → s.w ≤ s.cfg.cap - 257 → s.len.toNat ≤ 252 → 4 + s.len.toNat + 1 ≤ room s →
    q = s.w + s.len.toNat + 5 →
    encode .finish = 0x04000000#32
      ∧ ∃ t, exec .finish s = .next t
        ∧ t = setResponse .producer (answer 0#32)
            { s with mem := t.mem, npk := s.npk + 1, w := if s.cfg.cap - q < 257 then 0 else q, len := 0#8, pfl := 0#8,
                     escp := false }
        ∧ memRead t s.w = s.src
        ∧ memRead t (s.w + 1) = (if s.escp then s.pfl ||| 0x20#8 else s.pfl)
        ∧ memRead t (s.w + 2) = 0#8 ∧ memRead t (s.w + 3) = s.len ∧ memRead t (s.w + 4 + s.len.toNat) = 0#8
        ∧ (s.cfg.cap - q < 257 → 5 ≤ s.cfg.cap - q →
            memRead t q = s.src ∧ memRead t (q + 1) = 0x40#8 ∧ memRead t (q + 2) = 0#8 ∧ memRead t (q + 3) = 0#8
              ∧ memRead t (q + 4) = 0#8)
        ∧ (s.cfg.cap - q < 5 → ∀ a, q ≤ a → a < s.cfg.cap → memRead t a = 0#8)
        ∧ ∀ a, a < s.cfg.cap →
            ¬ (s.w ≤ a ∧ a < s.w + 4) → a ≠ s.w + 4 + s.len.toNat →
            ¬ (s.cfg.cap - q < 257 ∧ q ≤ a ∧ a < q + 5) → memRead t a = memRead s a

/-- Where not even a 5-byte Packet fits the Packet is not finalized: `LOST` is set, `LEN`, `PFL` and `ESCP` are cleared and
nothing else changes; and in states that meet the invariants this happens only with no data and less than 5 bytes of room
(R75). -/
def Obligations.FinishLosesOnlyWhatCannotFit : Prop :=
  ∀ s : State, s.halt = false → room s < 4 + s.len.toNat + 1 →
    exec .finish s
        = .next (setResponse .producer (answer 0#32) { s with lost := true, len := 0#8, pfl := 0#8, escp := false })
      ∧ (s.Inv → s.len = 0#8 ∧ room s < 5)

/-- `FORCE_SYNC` clears `ESCP`, `LEN` and `PFL` and touches nothing else (R67, R69). -/
def Obligations.ForceSyncAbandonsPartialPacket : Prop :=
  ∀ s : State, encode .forceSync = 0x05000000#32
    ∧ (s.halt = false →
        exec .forceSync s
          = .next (setResponse .producer (answer 0#32) { s with escp := false, len := 0#8, pfl := 0#8 }))

/-! ### Queries and room -/

/-- `CAN_ACCEPT` and `IS_FULL` answer from `LEN` and `Room()` and change nothing (R79, R80). -/
def Obligations.ProducerQueriesAnswer : Prop :=
  ∀ s : State, encode .canAccept = 0x06000000#32 ∧ encode .isFull = 0x07000000#32
    ∧ (s.halt = false →
        exec .canAccept s
            = .next (setResponse .producer (answer (if 4 + s.len.toNat + 2 ≤ room s then 1#32 else 0#32)) s)
          ∧ exec .isFull s
            = .next (setResponse .producer
                (answer (if s.len.toNat < 252 ∧ 4 + s.len.toNat + 2 ≤ room s then 0#32 else 1#32)) s))

/-- `COUNT` and `IS_EMPTY` answer from `NPK − LOCK` and change nothing (R81, R82). -/
def Obligations.ConsumerQueriesAnswer : Prop :=
  ∀ s : State, encode .count = 0x41000000#32 ∧ encode .isEmpty = 0x42000000#32
    ∧ (s.halt = false →
        exec .count s
            = .next (setResponse .consumer (answer (BitVec.ofNat 32 (s.npk - (if s.lock then 1 else 0)))) s)
          ∧ exec .isEmpty s
            = .next (setResponse .consumer (answer (if s.npk - (if s.lock then 1 else 0) = 0 then 1#32 else 0#32)) s))

/-- `Room()`: its four cases; at least a maximum-size Packet while the store is empty or `OLD < W`; and no consumer command
lessens it (R45). R45 marks two of these sentences as its own inferences: "Its value is at least MAXSPAN in the first two cases"
is derived from R44, and "For fixed `W`, a consumer action never decreases it" is derived from R50. -/
def Obligations.RoomFollowsItsRule : Prop :=
  (∀ s : State,
      (s.npk = 0 → room s = s.cfg.cap - s.w) ∧ (s.npk ≠ 0 → s.old < s.w → room s = s.cfg.cap - s.w)
        ∧ (s.npk ≠ 0 → s.w < s.old → room s = s.old - s.w) ∧ (s.npk ≠ 0 → s.old = s.w → room s = 0))
    ∧ (∀ s : State, s.RegisterInv → (s.npk = 0 ∨ s.old < s.w) → 257 ≤ room s)
    ∧ ∀ (i : Instr) (s t : State), s.Inv → i.port = .consumer → exec i s = .next t → t.w = s.w ∧ room s ≤ room t

/-! ### Configuration -/

/-- `SET_MODE v`: a reserved bit halts; otherwise both modes are written, and a change of `IN_MODE` abandons the partial Packet
(R70, R32). -/
def Obligations.SetModeWritesModes : Prop :=
  ∀ (v : Byte) (s : State), encode (.setMode v) = 0x08000000#32 ||| v.setWidth 32
    ∧ (s.halt = false → v &&& 0xFC#8 ≠ 0#8 →
        exec (.setMode v) s = .next (setResponse .producer haltedAnswer { s with halt := true, diag := 0x02#8 }))
    ∧ (s.halt = false → v &&& 0xFC#8 = 0#8 →
        ∃ t, exec (.setMode v) s = .next t
          ∧ (t.inMode = .byte ↔ v.getLsbD 0 = true) ∧ (t.outMode = .byte ↔ v.getLsbD 1 = true)
          ∧ (t.inMode = s.inMode →
              t = setResponse .producer (answer 0#32) { s with inMode := t.inMode, outMode := t.outMode })
          ∧ (t.inMode ≠ s.inMode →
              t = setResponse .producer (answer 0#32)
                { s with inMode := t.inMode, outMode := t.outMode, escp := false, len := 0#8, pfl := 0#8 }))

/-- `SET_SOURCE v`: a tag below 41 is written, any other halts (R91). -/
def Obligations.SetSourceWritesLegalTag : Prop :=
  ∀ (v : Byte) (s : State), encode (.setSource v) = 0x09000000#32 ||| v.setWidth 32
    ∧ (s.halt = false → v.toNat < 41 →
        exec (.setSource v) s = .next (setResponse .producer (answer 0#32) { s with src := v }))
    ∧ (s.halt = false → 41 ≤ v.toNat →
        exec (.setSource v) s = .next (setResponse .producer haltedAnswer { s with halt := true, diag := 0x02#8 }))

/-! ### The consumer's commands -/

/-- `DISPATCH_BEGIN`: recursion is fatal, an empty store answers 0, otherwise the oldest Packet is held and its pointer and source
tag answered (R83). -/
def Obligations.DispatchBeginHoldsOldest : Prop :=
  ∀ s : State, encode .dispatchBegin = 0x43000000#32
    ∧ (s.halt = false → s.lock = true →
        exec .dispatchBegin s = .next (setResponse .consumer haltedAnswer { s with halt := true, diag := 0x03#8 }))
    ∧ (s.halt = false → s.lock = false → s.npk = 0 →
        exec .dispatchBegin s = .next (setResponse .consumer (answer 0#32) s))
    ∧ (s.halt = false → s.lock = false → s.npk ≠ 0 → s.old < 2 ^ 16 →
        ∃ v : Word, exec .dispatchBegin s = .next (setResponse .consumer (answer v) { s with lock := true })
          ∧ v.toNat = s.old * 2 ^ 16 + (memRead s s.old).toNat * 2 ^ 8 + 1)

/-- `DISPATCH_END`: frees the held Packet's span, and is fatal outside a dispatch (R84). -/
def Obligations.DispatchEndFreesHeld : Prop :=
  ∀ (s : State) (q : Nat), q = s.old + (memRead s (s.old + 3)).toNat + 5 →
    encode .dispatchEnd = 0x44000000#32
      ∧ (s.halt = false → s.lock = false →
          exec .dispatchEnd s = .next (setResponse .consumer haltedAnswer { s with halt := true, diag := 0x04#8 }))
      ∧ (s.halt = false → s.lock = true →
          exec .dispatchEnd s = .next (setResponse .consumer (answer 0#32)
            { s with old := if s.cfg.cap - q < 257 then 0 else q, npk := s.npk - 1, lock := false }))

/-- `COPY_OUT`: recursion is fatal, an empty store answers 0, otherwise the whole oldest Packet goes out byte by byte, its span is
freed, and its length and place are answered (R85). -/
def Obligations.CopyOutStreamsOldest : Prop :=
  ∀ (s : State) (n q : Nat), n = (memRead s (s.old + 3)).toNat → q = s.old + n + 5 →
    encode .copyOut = 0x45000000#32
      ∧ (s.halt = false → s.lock = true →
          exec .copyOut s = .next (setResponse .consumer haltedAnswer { s with halt := true, diag := 0x03#8 }))
      ∧ (s.halt = false → s.lock = false → s.npk = 0 →
          exec .copyOut s = .next (setResponse .consumer (answer 0#32) s))
      ∧ (s.halt = false → s.lock = false → s.npk ≠ 0 → s.old < 2 ^ 16 →
          ∃ (v : Word) (out : List Byte),
            exec .copyOut s = .next (setResponse .consumer (answer v out)
              { s with old := if s.cfg.cap - q < 257 then 0 else q, npk := s.npk - 1, copyOut := s.copyOut ++ out })
            ∧ v.toNat = s.old * 2 ^ 16 + n * 2 ^ 8 + 1
            ∧ out.length = n + 5 ∧ ∀ j, j < n + 5 → out[j]? = some (memRead s (s.old + j)))

/-- A Packet that reaches `COPY_OUT` has never been held, so its copied cursor is 0 (R85, C10). -/
def Obligations.CopiedCursorIsZero : Prop :=
  ∀ s : State, s.Inv → s.halt = false → s.lock = false → s.npk ≠ 0 →
    ∃ t r, exec .copyOut s = .next t ∧ lastResponse .consumer t = some r ∧ r.out[2]? = some 0#8

/-- `RD a` answers the byte of `MEM` at the masked index and changes nothing (R88). -/
def Obligations.RdReadsMaskedIndex : Prop :=
  ∀ (a : BitVec 16) (s : State), encode (.rd a) = 0x46000000#32 ||| (a.setWidth 32 <<< 8)
    ∧ (s.halt = false →
        exec (.rd a) s
          = .next (setResponse .consumer (answer ((memRead s (a.toNat % s.cfg.cap)).setWidth 32)) s))

/-- What a byte of `MEM` reads as: what was last written there, under any masked name of the index; a free value where nothing was
written since reset (R38). The free value is not fixed: this holds whatever it is. -/
def Obligations.MemoryReadsWhatWasWritten : Prop :=
  ∀ (s : State) (a b : Nat) (v : Byte),
    memRead (memWrite a v s) b = (if b % s.cfg.cap = a % s.cfg.cap then v else memRead s b)
      ∧ (Memory.lookup s.mem (a % s.cfg.cap) = none → memRead s a = Config.unwrittenByte s.draws (a % s.cfg.cap))

/-- `WR_CURSOR v`: fatal outside a dispatch whatever `v` is, fatal above the held Packet's length, otherwise the cursor byte of the
held Packet and no other byte is written (R89). -/
def Obligations.WrCursorWritesHeldCursor : Prop :=
  ∀ (v : Byte) (s : State), encode (.wrCursor v) = 0x47000000#32 ||| v.setWidth 32
    ∧ (s.halt = false → s.lock = false →
        exec (.wrCursor v) s = .next (setResponse .consumer haltedAnswer { s with halt := true, diag := 0x04#8 }))
    ∧ (s.halt = false → s.lock = true → (memRead s (s.old + 3)).toNat < v.toNat →
        exec (.wrCursor v) s = .next (setResponse .consumer haltedAnswer { s with halt := true, diag := 0x02#8 }))
    ∧ (s.halt = false → s.lock = true → v.toNat ≤ (memRead s (s.old + 3)).toNat →
        ∃ t, exec (.wrCursor v) s = .next t
          ∧ t = setResponse .consumer (answer 0#32) { s with mem := t.mem }
          ∧ memRead t (s.old + 2) = v
          ∧ ∀ a, a % s.cfg.cap ≠ (s.old + 2) % s.cfg.cap → memRead t a = memRead s a)

/-- The STATUS word, field by field, halted or not (R31, R92). -/
def Obligations.StatusShowsEveryField : Prop :=
  ∀ s : State, encode .status = 0x48000000#32
    ∧ ∃ v : Word, exec .status s = .next (setResponse .consumer { halted := s.halt, value := v, out := [] } s)
      ∧ v.getLsbD 0 = s.halt ∧ v.getLsbD 1 = s.lock ∧ v.getLsbD 2 = s.escp
      ∧ (v.getLsbD 3 = true ↔ s.inMode = .byte) ∧ (v.getLsbD 4 = true ↔ s.outMode = .byte)
      ∧ (v.getLsbD 5 = true ↔ 4 + s.len.toNat + 2 ≤ room s)
      ∧ (v.getLsbD 6 = true ↔ ¬ (s.len.toNat < 252 ∧ 4 + s.len.toNat + 2 ≤ room s))
      ∧ v.getLsbD 7 = s.lost ∧ v.extractLsb' 8 8 = s.diag ∧ v.extractLsb' 16 8 = s.pfl ∧ v.extractLsb' 24 8 = 0#8

/-- `CLEAR_LOST` clears `LOST` and nothing else (R93). -/
def Obligations.ClearLostClearsLost : Prop :=
  ∀ s : State, encode .clearLost = 0x4A000000#32
    ∧ (s.halt = false → exec .clearLost s = .next (setResponse .consumer (answer 0#32) { s with lost := false }))

/-- `CHECK` answers 1 exactly when the counts are in range and the walk from `OLD` finds `NPK` sound Packets and ends at `W`, and
halts with `INVALID_PACKET` otherwise (R94, R41). -/
def Obligations.CheckWalksTheStore : Prop :=
  ∀ (s : State) (at_ : Nat → Nat), at_ 0 = s.old →
    (∀ k, at_ (k + 1) =
      if s.cfg.cap - (at_ k + (memRead s (at_ k + 3)).toNat + 5) < 257 then 0
      else at_ k + (memRead s (at_ k + 3)).toNat + 5) →
    s.halt = false →
    ∀ ok : Prop,
      (ok ↔ s.npk ≤ (s.cfg.cap - 257) / 5 + 1 ∧ (s.lock = true → 1 ≤ s.npk) ∧ (s.npk = 0 → s.old = s.w)
        ∧ s.len.toNat ≤ 252 ∧ at_ s.npk = s.w
        ∧ ∀ k, k < s.npk → at_ k ≤ s.cfg.cap - 257 ∧ (memRead s (at_ k + 3)).toNat ≤ 252
            ∧ (memRead s (at_ k + 2)).toNat ≤ (memRead s (at_ k + 3)).toNat ∧ (memRead s (at_ k)).toNat < 41
            ∧ memRead s (at_ k + 4 + (memRead s (at_ k + 3)).toNat) = 0#8) →
      encode .check = 0x49000000#32
        ∧ (ok → exec .check s = .next (setResponse .consumer (answer 1#32) s))
        ∧ (¬ ok → exec .check s = .next (setResponse .consumer haltedAnswer { s with halt := true, diag := 0x05#8 }))

/-- `NOP` answers 0 on each of the three ports and changes nothing; while halted it is ignored; and a word of its opcode with any
other bit set is illegal (R95). -/
def Obligations.NopChangesNothing : Prop :=
  ∀ (p : Port) (s : State), encode (.nop p) = 0#32 ∧ decode p 0#32 = .ok (.nop p)
    ∧ (s.halt = false → exec (.nop p) s = .next (setResponse p (answer 0#32) s))
    ∧ (s.halt = true → exec (.nop p) s = .next (setResponse p haltedAnswer s))
    ∧ ∀ w : Word, w ≠ 0#32 → w.toNat < 2 ^ 24 → decode p w = .error .reservedBit

/-! ### The TX port -/

/-- `TX_BYTE b` emits the byte raw in byte mode, and in packet mode escapes `0x0A` and `0xDB` and no other byte; it changes
nothing else (R71). -/
def Obligations.TxByteEscapes : Prop :=
  ∀ (b : Byte) (s : State) (out : List Byte),
    out = (if s.outMode = .byte then [b] else if b = 0x0A#8 then [0xDB#8, 0xDC#8]
      else if b = 0xDB#8 then [0xDB#8, 0xDD#8] else [b]) →
    encode (.txByte b) = 0x81000000#32 ||| b.setWidth 32
      ∧ (s.halt = false →
          exec (.txByte b) s = .next (setResponse .tx (answer 0#32 out) { s with txOut := s.txOut ++ out }))

/-- `TX_END` emits the delimiter in packet mode and nothing in byte mode, and changes nothing else (R72). -/
def Obligations.TxEndEmitsDelimiter : Prop :=
  ∀ (s : State) (out : List Byte), out = (if s.outMode = .byte then [] else [0x0A#8]) →
    encode .txEnd = 0x82000000#32
      ∧ (s.halt = false →
          exec .txEnd s = .next (setResponse .tx (answer 0#32 out) { s with txOut := s.txOut ++ out }))

/-- The stream that packet mode emits for any data bytes holds no delimiter, and is followed by exactly one (R74). -/
def Obligations.TxStreamHasOneDelimiter : Prop :=
  ∀ (d : List Byte) (s : State), s.halt = false → s.outMode = .packet →
    ∃ (t : State) (body : List Byte), execAll (d.map .txByte ++ [.txEnd]) s = .next t
      ∧ t.txOut = s.txOut ++ body ++ [0x0A#8] ∧ 0x0A#8 ∉ body

/-! ### Whole-machine rules -/

/-- Framing then deframing gives the data back (R73, which marks this as derived from R71, R65 and R47): feeding the bytes that
`TX_PACKET d` emits into the producer port adds exactly one Packet, with the data `d` and no flags. The bytes are fed back to
back: R73 lets consumer commands stand between them, which this statement leaves out. -/
def Obligations.FramingRoundTrip : Prop :=
  ∀ (d : List Byte) (tx s : State), tx.halt = false → tx.outMode = .packet → tx.txOut = [] → d.length ≤ 252 →
    s.Inv → s.halt = false → s.inMode = .packet → s.escp = false → s.len = 0#8 → s.pfl = 0#8 → d.length + 5 ≤ room s →
    ∃ tx' s', execAll (d.map .txByte ++ [.txEnd]) tx = .next tx'
      ∧ execAll (tx'.txOut.map fun c => .rxByte c 0#4) s = .next s'
      ∧ storedPackets s' = storedPackets s ++ [{ source := s.src, flags := 0#8, data := d }]
      ∧ s'.npk = s.npk + 1 ∧ s'.escp = false ∧ s'.len = 0#8

/-- Capacity policy (R87), for data fed by `STORE_RAW`: any data of 252 bytes or less followed by a finish is a Packet with that
data and no flags; longer data gives its first 252 bytes and OVERFLOW; and the Packets stored before are unchanged. -/
def Obligations.CapacityPolicy : Prop :=
  ∀ (d : List Byte) (s : State), s.Inv → s.halt = false → s.escp = false → s.len = 0#8 → s.pfl = 0#8 → 257 ≤ room s →
    ∃ t, execAll (d.map .storeRaw ++ [.finish]) s = .next t
      ∧ storedPackets t = storedPackets s ++
          [{ source := s.src, flags := if d.length ≤ 252 then 0#8 else 0x10#8, data := d.take 252 }]
      ∧ t.w = (if s.cfg.cap - (s.w + min d.length 252 + 5) < 257 then 0 else s.w + min d.length 252 + 5)

/-- The ring is a queue (R86): a command leaves the stored Packets as they are, or adds one at the back, or takes the one at the
front; only `RX_BYTE` and `FINISH` add, and only `DISPATCH_END` and `COPY_OUT` take. That they do is said by
`FinishAppendsInProgressPacket` and `RemovalTakesOldestPacket`. -/
def Obligations.RingIsFifoQueue : Prop :=
  ∀ (i : Instr) (s t : State), s.Inv → exec i s = .next t →
    storedPackets t = storedPackets s
      ∨ ((i = .finish ∨ ∃ b e, i = .rxByte b e) ∧ ∃ v, storedPackets t = storedPackets s ++ [v])
      ∨ ((i = .dispatchEnd ∨ i = .copyOut) ∧ ∃ v, storedPackets s = v :: storedPackets t)

/-- `FINISH` adds exactly the in-progress Packet at the back of the queue, with the source tag of `SRC` at that moment (R86,
R24). -/
def Obligations.FinishAppendsInProgressPacket : Prop :=
  ∀ s : State, s.Inv → s.halt = false → 4 + s.len.toNat + 1 ≤ room s →
    ∃ t, exec .finish s = .next t
      ∧ storedPackets t = storedPackets s ++
          [{ source := s.src, flags := if s.escp then s.pfl ||| 0x20#8 else s.pfl, data := inProgressData s }]

/-- No producer or TX command changes any byte of an occupying Packet, the held one too, nor `OLD` or `LOCK` (R53). -/
def Obligations.ProducerLeavesStoredPacketsAlone : Prop :=
  ∀ (i : Instr) (s t : State), s.Inv → i.port ≠ .consumer → exec i s = .next t →
    t.old = s.old ∧ t.lock = s.lock
      ∧ ∀ p ∈ occupying s, ∀ j, j < lengthAt s p + 5 → memRead t (p + j) = memRead s (p + j)

/-- Which commands can change which register or stream: every other command leaves it as it is (R16 to R26, R36). `HALT` and `DIAG`
are for the commands that can halt the block, in a block that is not halted yet (R26, R98). -/
def Obligations.OnlyTheseCommandsWriteEachRegister : Prop :=
  ∀ (i : Instr) (s t : State), exec i s = .next t →
    t.cfg = s.cfg ∧ t.draws = s.draws ∧ t.inputs = s.inputs
      ∧ (t.w ≠ s.w → i = .finish ∨ ∃ b e, i = .rxByte b e)
      ∧ (t.old ≠ s.old → i = .dispatchEnd ∨ i = .copyOut)
      ∧ (t.npk ≠ s.npk → i = .finish ∨ (∃ b e, i = .rxByte b e) ∨ i = .dispatchEnd ∨ i = .copyOut)
      ∧ (t.len ≠ s.len ∨ t.pfl ≠ s.pfl → (∃ b e, i = .rxByte b e) ∨ (∃ b, i = .storeRaw b) ∨ (∃ b, i = .storeData b)
          ∨ i = .finish ∨ i = .forceSync ∨ ∃ v, i = .setMode v)
      ∧ (t.escp ≠ s.escp → (∃ b e, i = .rxByte b e) ∨ (∃ b, i = .storeData b) ∨ i = .finish ∨ i = .forceSync
          ∨ ∃ v, i = .setMode v)
      ∧ (t.halt ≠ s.halt ∨ t.diag ≠ s.diag → s.halt = false ∧ t.halt = true
          ∧ ((∃ v, i = .setMode v) ∨ (∃ v, i = .setSource v) ∨ i = .dispatchBegin ∨ i = .dispatchEnd ∨ i = .copyOut
            ∨ (∃ v, i = .wrCursor v) ∨ i = .check))
      ∧ (t.lock ≠ s.lock → i = .dispatchBegin ∨ i = .dispatchEnd)
      ∧ (t.inMode ≠ s.inMode ∨ t.outMode ≠ s.outMode → ∃ v, i = .setMode v)
      ∧ (t.src ≠ s.src → ∃ v, i = .setSource v)
      ∧ (t.lost ≠ s.lost → i = .finish ∨ (∃ b e, i = .rxByte b e) ∨ i = .clearLost)
      ∧ (t.txOut ≠ s.txOut → i.port = .tx)
      ∧ (t.copyOut ≠ s.copyOut → i = .copyOut)

/-- `MEM` is written by no command but those that append or commit and `WR_CURSOR` (R38). -/
def Obligations.OnlyTheseCommandsWriteMemory : Prop :=
  ∀ (i : Instr) (s t : State), exec i s = .next t → t.mem ≠ s.mem →
    (∃ b e, i = .rxByte b e) ∨ (∃ b, i = .storeRaw b) ∨ (∃ b, i = .storeData b) ∨ i = .finish ∨ ∃ v, i = .wrCursor v

/-- A read-only command repeated gives the same state and the same answer (R51). -/
def Obligations.ReadOnlyCommandsRepeat : Prop :=
  ∀ (i : Instr) (s t : State),
    (i = .canAccept ∨ i = .isFull ∨ i = .count ∨ i = .isEmpty ∨ (∃ a, i = .rd a) ∨ i = .status ∨ i = .check
      ∨ ∃ p, i = .nop p) →
    exec i s = .next t → t.halt = s.halt → exec i t = .next t ∧ t = { s with resp := t.resp }

/-- What the TX port emits depends on `OUT_MODE` and `HALT` and on nothing inbound, and its commands change nothing but the stream
and the response (R71, R72). -/
def Obligations.TxPortIsIndependent : Prop :=
  ∀ (i : Instr) (s s' : State), i.port = .tx → s.outMode = s'.outMode → s.halt = s'.halt →
    ∃ t t' r, exec i s = .next t ∧ exec i s' = .next t' ∧ lastResponse .tx t = some r ∧ lastResponse .tx t' = some r
      ∧ t = { s with txOut := s.txOut ++ r.out, resp := t.resp }

/-- The level outputs (R102): `avail_o` is 0 once the last removable Packet is taken and 1 once a Packet is finalized; `lost_o`
falls with `CLEAR_LOST`; `halt_o` follows `HALT`. -/
def Obligations.LevelOutputsFollowState : Prop :=
  ∀ s : State, (availOut s = true ↔ 0 < s.npk - (if s.lock then 1 else 0)) ∧ haltOut s = s.halt ∧ lostOut s = s.lost
    ∧ (s.halt = false → s.lock = false → s.npk = 1 →
        (∃ t, exec .dispatchBegin s = .next t ∧ availOut t = false)
          ∧ ∃ t, exec .copyOut s = .next t ∧ availOut t = false)
    ∧ (s.halt = false → (s.lock = true → 1 ≤ s.npk) → 4 + s.len.toNat + 1 ≤ room s →
        ∃ t, exec .finish s = .next t ∧ availOut t = true)
    ∧ (s.halt = false → ∃ t, exec .clearLost s = .next t ∧ lostOut t = false)

/-! ### Hardware steps that halt, and removal -/

/-- The first presented word of a hardware step that halts the block, a command or an illegal word, changes nothing but `HALT`,
`DIAG` and its response, and the later words of that step are ignored: each only leaves the halted response on its port (R100,
R101). An illegal word records 0x01 (R61). -/
def Obligations.FirstFatalOfHardwareStepHalts : Prop :=
  ∀ (s u v : State) (c p t : Option Word) (rest : List Event) (earlier later : List (Port × Word)) (q : Port) (w : Word),
    s.inputs = .present c p t :: rest → presentedWords c p t = earlier ++ (q, w) :: later →
    applyWords earlier { s with inputs := rest } = .next u → u.halt = false → applyWord q w u = .next v → v.halt = true →
    v = setResponse q haltedAnswer { u with halt := true, diag := v.diag }
      ∧ (∀ e, decode q w = .error e → v.diag = 0x01#8)
      ∧ Sys2Proof.core.run (presentedWords c p t).length s
          = .next (later.foldl (fun x k => setResponse k.1 haltedAnswer x) v)

/-- `DISPATCH_END` on a held Packet, and `COPY_OUT` where a Packet is removable, take exactly the oldest Packet off the front of
the queue (R84, R85, R86). -/
def Obligations.RemovalTakesOldestPacket : Prop :=
  ∀ (i : Instr) (s : State), s.Inv → s.halt = false →
    (i = .dispatchEnd ∧ s.lock = true) ∨ (i = .copyOut ∧ s.lock = false ∧ s.npk ≠ 0) →
    ∃ t v, exec i s = .next t ∧ storedPackets s = v :: storedPackets t
      ∧ v.source = memRead s s.old ∧ v.data.length = (memRead s (s.old + 3)).toNat
      ∧ ∀ j, j < v.data.length → v.data[j]? = some (memRead s (s.old + 4 + j))
end

