-- ==== Sys2Proof/Laws/Encode.lean ====
section
/-! SUPPORT. The fields of a command word (R57) and the opcode map (R60): each is read back from the word it was put in. -/

namespace Sys2Proof

/-! ### Fields of a word -/

/-- A word put together from its three bytewise fields, as an or of shifted fields. -/
theorem word_eq_or (o : Byte) (a : BitVec 16) (b : Byte) :
    (o ++ a ++ b : Word) = (o.setWidth 32 <<< 24) ||| (a.setWidth 32 <<< 8) ||| b.setWidth 32 := by
  simpa using BitVec.setWidth_append_append_eq_shiftLeft_setWidth_or (w''' := 32) (b := o) (b' := a) (b'' := b)

@[simp] theorem fieldOp_word (o : Byte) (a : BitVec 16) (b : Byte) : fieldOp (o ++ a ++ b) = o := by
  unfold fieldOp
  rw [BitVec.extractLsb'_append_eq_of_le (by omega), BitVec.extractLsb'_append_eq_of_le (by omega)]
  simp

@[simp] theorem fieldA_word (o : Byte) (a : BitVec 16) (b : Byte) : fieldA (o ++ a ++ b) = a := by
  unfold fieldA
  rw [BitVec.extractLsb'_append_eq_of_le (by omega), BitVec.extractLsb'_append_eq_of_add_le (by omega)]
  simp

@[simp] theorem fieldB_word (o : Byte) (a : BitVec 16) (b : Byte) : fieldB (o ++ a ++ b) = b := by
  unfold fieldB
  rw [BitVec.extractLsb'_append_eq_of_add_le (by omega)]
  simp

/-- `E` is the low four bits of `A` (R57). -/
theorem fieldE_eq (w : Word) : fieldE w = (fieldA w).setWidth 4 := by
  unfold fieldE fieldA
  ext i hi
  simp [BitVec.getElem_extractLsb', show i < 16 by omega]

/-- A word is its three fields. -/
theorem word_of_fields (w : Word) : (fieldOp w ++ fieldA w ++ fieldB w : Word) = w := by
  unfold fieldOp fieldA fieldB
  rw [BitVec.extractLsb'_append_extractLsb'_eq_extractLsb' (by rfl),
    BitVec.extractLsb'_append_extractLsb'_eq_extractLsb' (by rfl)]
  simp

/-- The bits of a mask over a word fall on its fields. -/
theorem word_and (o o' : Byte) (a a' : BitVec 16) (b b' : Byte) :
    ((o ++ a ++ b : Word) &&& (o' ++ a' ++ b' : Word)) = ((o &&& o') ++ (a &&& a') ++ (b &&& b') : Word) := by
  rw [BitVec.and_append, BitVec.and_append]

/-- A word is zero exactly when its fields are. -/
theorem word_eq_zero_iff (o : Byte) (a : BitVec 16) (b : Byte) :
    (o ++ a ++ b : Word) = 0#32 ↔ o = 0#8 ∧ a = 0#16 ∧ b = 0#8 := by
  constructor
  · intro h
    have hop : fieldOp (o ++ a ++ b) = fieldOp 0#32 := by rw [h]
    have ha : fieldA (o ++ a ++ b) = fieldA 0#32 := by rw [h]
    have hb : fieldB (o ++ a ++ b) = fieldB 0#32 := by rw [h]
    rw [fieldOp_word] at hop; rw [fieldA_word] at ha; rw [fieldB_word] at hb
    exact ⟨hop, ha, hb⟩
  · rintro ⟨rfl, rfl, rfl⟩; rfl

/-- A word with no bit in `A`. -/
theorem word_of_B {o : Byte} {c : Word} (h : o.setWidth 32 <<< 24 = c) (b : Byte) :
    (o ++ 0#16 ++ b : Word) = c ||| b.setWidth 32 := by
  rw [word_eq_or, h, show (0#16).setWidth 32 <<< 8 = 0#32 from rfl, BitVec.or_zero]

/-- A word with no bit in `B`. -/
theorem word_of_A {o : Byte} {c : Word} (h : o.setWidth 32 <<< 24 = c) (a : BitVec 16) :
    (o ++ a ++ 0#8 : Word) = c ||| (a.setWidth 32 <<< 8) := by
  rw [word_eq_or, h, show (0#8).setWidth 32 = 0#32 from rfl, BitVec.or_zero]

/-! ### The opcode map -/

@[simp] theorem ofCode_code (o : Opcode) : Opcode.ofCode o.code = some o := by cases o <;> rfl

theorem code_of_ofCode {c : Byte} {o : Opcode} (h : Opcode.ofCode c = some o) : o.code = c := by
  simpa using List.find?_some h

/-- A byte is no opcode exactly when no row has it. -/
theorem ofCode_eq_none_iff (c : Byte) : Opcode.ofCode c = none ↔ ∀ o : Opcode, o.code ≠ c := by
  constructor
  · intro h o e; rw [← e, ofCode_code] at h; cases h
  · intro h
    cases hc : Opcode.ofCode c with
    | none => rfl
    | some o => exact absurd (code_of_ofCode hc) (h o)

/-- A command's opcode belongs to the command's port (R60). -/
theorem opcode_onPort (i : Instr) (p : Port) : i.opcode.onPort p = true ↔ i.opcode = .nop ∨ i.port = p := by
  cases i <;> cases p <;> simp [Instr.opcode, Opcode.onPort, Instr.port]

/-- The reserved bits of each format, field by field (R58). -/
def Format.reservedA : Format → BitVec 16
  | .N => 0xFFFF#16
  | .B => 0xFFFF#16
  | .V => 0xFFFF#16
  | .E => 0xFFF0#16
  | .A => 0x0000#16

def Format.reservedB : Format → Byte
  | .N => 0xFF#8
  | .B => 0x00#8
  | .V => 0x00#8
  | .E => 0x00#8
  | .A => 0xFF#8

theorem reserved_eq (f : Format) : f.reserved = (0#8 ++ f.reservedA ++ f.reservedB : Word) := by
  cases f <;> rfl

/-- A command's word has no reserved bit of its format set (R58). -/
theorem encode_reserved (i : Instr) : encode i &&& i.opcode.format.reserved = 0#32 := by
  have he : ∀ e : BitVec 4, e.setWidth 16 &&& 0xFFF0#16 = 0#16 := by decide
  rw [reserved_eq, encode, word_and, word_eq_zero_iff]
  cases i <;>
    simp [Instr.opcode, Opcode.format, Opcode.code, Format.reservedA, Format.reservedB, Instr.bitsA, Instr.bitsB, he]

/-! ### The words of the commands that have operands (R58, R60) -/

theorem encode_rxByte (b : Byte) (e : BitVec 4) :
    encode (.rxByte b e) = 0x01000000#32 ||| (e.setWidth 32 <<< 8) ||| b.setWidth 32 := by
  have h : (e.setWidth 16).setWidth 32 = e.setWidth 32 := by simp
  rw [← h]
  exact word_eq_or 0x01#8 (e.setWidth 16) b

theorem encode_storeRaw (b : Byte) : encode (.storeRaw b) = 0x02000000#32 ||| b.setWidth 32 :=
  word_of_B (o := 0x02#8) (by decide) b

theorem encode_storeData (b : Byte) : encode (.storeData b) = 0x03000000#32 ||| b.setWidth 32 :=
  word_of_B (o := 0x03#8) (by decide) b

theorem encode_setMode (v : Byte) : encode (.setMode v) = 0x08000000#32 ||| v.setWidth 32 :=
  word_of_B (o := 0x08#8) (by decide) v

theorem encode_setSource (v : Byte) : encode (.setSource v) = 0x09000000#32 ||| v.setWidth 32 :=
  word_of_B (o := 0x09#8) (by decide) v

theorem encode_rd (a : BitVec 16) : encode (.rd a) = 0x46000000#32 ||| (a.setWidth 32 <<< 8) :=
  word_of_A (o := 0x46#8) (by decide) a

theorem encode_wrCursor (v : Byte) : encode (.wrCursor v) = 0x47000000#32 ||| v.setWidth 32 :=
  word_of_B (o := 0x47#8) (by decide) v

theorem encode_txByte (b : Byte) : encode (.txByte b) = 0x81000000#32 ||| b.setWidth 32 :=
  word_of_B (o := 0x81#8) (by decide) b

end Sys2Proof
end

