-- ==== Sys2Proof/Laws/State.lean ====
section
/-! SUPPORT. One lemma for each field and each named update of `State`: what the update does to that field. -/

namespace Sys2Proof.Machine

/-! ### `setEscp` -/

@[simp] theorem setEscp_cfg (b : Bool) (s : State) : (setEscp b s).cfg = s.cfg := rfl
@[simp] theorem setEscp_w (b : Bool) (s : State) : (setEscp b s).w = s.w := rfl
@[simp] theorem setEscp_old (b : Bool) (s : State) : (setEscp b s).old = s.old := rfl
@[simp] theorem setEscp_len (b : Bool) (s : State) : (setEscp b s).len = s.len := rfl
@[simp] theorem setEscp_pfl (b : Bool) (s : State) : (setEscp b s).pfl = s.pfl := rfl
@[simp] theorem setEscp_escp (b : Bool) (s : State) : (setEscp b s).escp = b := rfl
@[simp] theorem setEscp_npk (b : Bool) (s : State) : (setEscp b s).npk = s.npk := rfl
@[simp] theorem setEscp_lock (b : Bool) (s : State) : (setEscp b s).lock = s.lock := rfl
@[simp] theorem setEscp_inMode (b : Bool) (s : State) : (setEscp b s).inMode = s.inMode := rfl
@[simp] theorem setEscp_outMode (b : Bool) (s : State) : (setEscp b s).outMode = s.outMode := rfl
@[simp] theorem setEscp_src (b : Bool) (s : State) : (setEscp b s).src = s.src := rfl
@[simp] theorem setEscp_lost (b : Bool) (s : State) : (setEscp b s).lost = s.lost := rfl
@[simp] theorem setEscp_halt (b : Bool) (s : State) : (setEscp b s).halt = s.halt := rfl
@[simp] theorem setEscp_diag (b : Bool) (s : State) : (setEscp b s).diag = s.diag := rfl
@[simp] theorem setEscp_mem (b : Bool) (s : State) : (setEscp b s).mem = s.mem := rfl
@[simp] theorem setEscp_draws (b : Bool) (s : State) : (setEscp b s).draws = s.draws := rfl
@[simp] theorem setEscp_txOut (b : Bool) (s : State) : (setEscp b s).txOut = s.txOut := rfl
@[simp] theorem setEscp_copyOut (b : Bool) (s : State) : (setEscp b s).copyOut = s.copyOut := rfl
@[simp] theorem setEscp_resp (b : Bool) (s : State) : (setEscp b s).resp = s.resp := rfl
@[simp] theorem setEscp_inputs (b : Bool) (s : State) : (setEscp b s).inputs = s.inputs := rfl

/-! ### `setLock` -/

@[simp] theorem setLock_cfg (b : Bool) (s : State) : (setLock b s).cfg = s.cfg := rfl
@[simp] theorem setLock_w (b : Bool) (s : State) : (setLock b s).w = s.w := rfl
@[simp] theorem setLock_old (b : Bool) (s : State) : (setLock b s).old = s.old := rfl
@[simp] theorem setLock_len (b : Bool) (s : State) : (setLock b s).len = s.len := rfl
@[simp] theorem setLock_pfl (b : Bool) (s : State) : (setLock b s).pfl = s.pfl := rfl
@[simp] theorem setLock_escp (b : Bool) (s : State) : (setLock b s).escp = s.escp := rfl
@[simp] theorem setLock_npk (b : Bool) (s : State) : (setLock b s).npk = s.npk := rfl
@[simp] theorem setLock_lock (b : Bool) (s : State) : (setLock b s).lock = b := rfl
@[simp] theorem setLock_inMode (b : Bool) (s : State) : (setLock b s).inMode = s.inMode := rfl
@[simp] theorem setLock_outMode (b : Bool) (s : State) : (setLock b s).outMode = s.outMode := rfl
@[simp] theorem setLock_src (b : Bool) (s : State) : (setLock b s).src = s.src := rfl
@[simp] theorem setLock_lost (b : Bool) (s : State) : (setLock b s).lost = s.lost := rfl
@[simp] theorem setLock_halt (b : Bool) (s : State) : (setLock b s).halt = s.halt := rfl
@[simp] theorem setLock_diag (b : Bool) (s : State) : (setLock b s).diag = s.diag := rfl
@[simp] theorem setLock_mem (b : Bool) (s : State) : (setLock b s).mem = s.mem := rfl
@[simp] theorem setLock_draws (b : Bool) (s : State) : (setLock b s).draws = s.draws := rfl
@[simp] theorem setLock_txOut (b : Bool) (s : State) : (setLock b s).txOut = s.txOut := rfl
@[simp] theorem setLock_copyOut (b : Bool) (s : State) : (setLock b s).copyOut = s.copyOut := rfl
@[simp] theorem setLock_resp (b : Bool) (s : State) : (setLock b s).resp = s.resp := rfl
@[simp] theorem setLock_inputs (b : Bool) (s : State) : (setLock b s).inputs = s.inputs := rfl

/-! ### `setLost` -/

@[simp] theorem setLost_cfg (b : Bool) (s : State) : (setLost b s).cfg = s.cfg := rfl
@[simp] theorem setLost_w (b : Bool) (s : State) : (setLost b s).w = s.w := rfl
@[simp] theorem setLost_old (b : Bool) (s : State) : (setLost b s).old = s.old := rfl
@[simp] theorem setLost_len (b : Bool) (s : State) : (setLost b s).len = s.len := rfl
@[simp] theorem setLost_pfl (b : Bool) (s : State) : (setLost b s).pfl = s.pfl := rfl
@[simp] theorem setLost_escp (b : Bool) (s : State) : (setLost b s).escp = s.escp := rfl
@[simp] theorem setLost_npk (b : Bool) (s : State) : (setLost b s).npk = s.npk := rfl
@[simp] theorem setLost_lock (b : Bool) (s : State) : (setLost b s).lock = s.lock := rfl
@[simp] theorem setLost_inMode (b : Bool) (s : State) : (setLost b s).inMode = s.inMode := rfl
@[simp] theorem setLost_outMode (b : Bool) (s : State) : (setLost b s).outMode = s.outMode := rfl
@[simp] theorem setLost_src (b : Bool) (s : State) : (setLost b s).src = s.src := rfl
@[simp] theorem setLost_lost (b : Bool) (s : State) : (setLost b s).lost = b := rfl
@[simp] theorem setLost_halt (b : Bool) (s : State) : (setLost b s).halt = s.halt := rfl
@[simp] theorem setLost_diag (b : Bool) (s : State) : (setLost b s).diag = s.diag := rfl
@[simp] theorem setLost_mem (b : Bool) (s : State) : (setLost b s).mem = s.mem := rfl
@[simp] theorem setLost_draws (b : Bool) (s : State) : (setLost b s).draws = s.draws := rfl
@[simp] theorem setLost_txOut (b : Bool) (s : State) : (setLost b s).txOut = s.txOut := rfl
@[simp] theorem setLost_copyOut (b : Bool) (s : State) : (setLost b s).copyOut = s.copyOut := rfl
@[simp] theorem setLost_resp (b : Bool) (s : State) : (setLost b s).resp = s.resp := rfl
@[simp] theorem setLost_inputs (b : Bool) (s : State) : (setLost b s).inputs = s.inputs := rfl

/-! ### `setSrc` -/

@[simp] theorem setSrc_cfg (v : Byte) (s : State) : (setSrc v s).cfg = s.cfg := rfl
@[simp] theorem setSrc_w (v : Byte) (s : State) : (setSrc v s).w = s.w := rfl
@[simp] theorem setSrc_old (v : Byte) (s : State) : (setSrc v s).old = s.old := rfl
@[simp] theorem setSrc_len (v : Byte) (s : State) : (setSrc v s).len = s.len := rfl
@[simp] theorem setSrc_pfl (v : Byte) (s : State) : (setSrc v s).pfl = s.pfl := rfl
@[simp] theorem setSrc_escp (v : Byte) (s : State) : (setSrc v s).escp = s.escp := rfl
@[simp] theorem setSrc_npk (v : Byte) (s : State) : (setSrc v s).npk = s.npk := rfl
@[simp] theorem setSrc_lock (v : Byte) (s : State) : (setSrc v s).lock = s.lock := rfl
@[simp] theorem setSrc_inMode (v : Byte) (s : State) : (setSrc v s).inMode = s.inMode := rfl
@[simp] theorem setSrc_outMode (v : Byte) (s : State) : (setSrc v s).outMode = s.outMode := rfl
@[simp] theorem setSrc_src (v : Byte) (s : State) : (setSrc v s).src = v := rfl
@[simp] theorem setSrc_lost (v : Byte) (s : State) : (setSrc v s).lost = s.lost := rfl
@[simp] theorem setSrc_halt (v : Byte) (s : State) : (setSrc v s).halt = s.halt := rfl
@[simp] theorem setSrc_diag (v : Byte) (s : State) : (setSrc v s).diag = s.diag := rfl
@[simp] theorem setSrc_mem (v : Byte) (s : State) : (setSrc v s).mem = s.mem := rfl
@[simp] theorem setSrc_draws (v : Byte) (s : State) : (setSrc v s).draws = s.draws := rfl
@[simp] theorem setSrc_txOut (v : Byte) (s : State) : (setSrc v s).txOut = s.txOut := rfl
@[simp] theorem setSrc_copyOut (v : Byte) (s : State) : (setSrc v s).copyOut = s.copyOut := rfl
@[simp] theorem setSrc_resp (v : Byte) (s : State) : (setSrc v s).resp = s.resp := rfl
@[simp] theorem setSrc_inputs (v : Byte) (s : State) : (setSrc v s).inputs = s.inputs := rfl

/-! ### `setModes` -/

@[simp] theorem setModes_cfg (i o : Mode) (s : State) : (setModes i o s).cfg = s.cfg := rfl
@[simp] theorem setModes_w (i o : Mode) (s : State) : (setModes i o s).w = s.w := rfl
@[simp] theorem setModes_old (i o : Mode) (s : State) : (setModes i o s).old = s.old := rfl
@[simp] theorem setModes_len (i o : Mode) (s : State) : (setModes i o s).len = s.len := rfl
@[simp] theorem setModes_pfl (i o : Mode) (s : State) : (setModes i o s).pfl = s.pfl := rfl
@[simp] theorem setModes_escp (i o : Mode) (s : State) : (setModes i o s).escp = s.escp := rfl
@[simp] theorem setModes_npk (i o : Mode) (s : State) : (setModes i o s).npk = s.npk := rfl
@[simp] theorem setModes_lock (i o : Mode) (s : State) : (setModes i o s).lock = s.lock := rfl
@[simp] theorem setModes_inMode (i o : Mode) (s : State) : (setModes i o s).inMode = i := rfl
@[simp] theorem setModes_outMode (i o : Mode) (s : State) : (setModes i o s).outMode = o := rfl
@[simp] theorem setModes_src (i o : Mode) (s : State) : (setModes i o s).src = s.src := rfl
@[simp] theorem setModes_lost (i o : Mode) (s : State) : (setModes i o s).lost = s.lost := rfl
@[simp] theorem setModes_halt (i o : Mode) (s : State) : (setModes i o s).halt = s.halt := rfl
@[simp] theorem setModes_diag (i o : Mode) (s : State) : (setModes i o s).diag = s.diag := rfl
@[simp] theorem setModes_mem (i o : Mode) (s : State) : (setModes i o s).mem = s.mem := rfl
@[simp] theorem setModes_draws (i o : Mode) (s : State) : (setModes i o s).draws = s.draws := rfl
@[simp] theorem setModes_txOut (i o : Mode) (s : State) : (setModes i o s).txOut = s.txOut := rfl
@[simp] theorem setModes_copyOut (i o : Mode) (s : State) : (setModes i o s).copyOut = s.copyOut := rfl
@[simp] theorem setModes_resp (i o : Mode) (s : State) : (setModes i o s).resp = s.resp := rfl
@[simp] theorem setModes_inputs (i o : Mode) (s : State) : (setModes i o s).inputs = s.inputs := rfl

/-! ### `memWrite` -/

@[simp] theorem memWrite_cfg (a : Nat) (v : Byte) (s : State) : (memWrite a v s).cfg = s.cfg := rfl
@[simp] theorem memWrite_w (a : Nat) (v : Byte) (s : State) : (memWrite a v s).w = s.w := rfl
@[simp] theorem memWrite_old (a : Nat) (v : Byte) (s : State) : (memWrite a v s).old = s.old := rfl
@[simp] theorem memWrite_len (a : Nat) (v : Byte) (s : State) : (memWrite a v s).len = s.len := rfl
@[simp] theorem memWrite_pfl (a : Nat) (v : Byte) (s : State) : (memWrite a v s).pfl = s.pfl := rfl
@[simp] theorem memWrite_escp (a : Nat) (v : Byte) (s : State) : (memWrite a v s).escp = s.escp := rfl
@[simp] theorem memWrite_npk (a : Nat) (v : Byte) (s : State) : (memWrite a v s).npk = s.npk := rfl
@[simp] theorem memWrite_lock (a : Nat) (v : Byte) (s : State) : (memWrite a v s).lock = s.lock := rfl
@[simp] theorem memWrite_inMode (a : Nat) (v : Byte) (s : State) : (memWrite a v s).inMode = s.inMode := rfl
@[simp] theorem memWrite_outMode (a : Nat) (v : Byte) (s : State) : (memWrite a v s).outMode = s.outMode := rfl
@[simp] theorem memWrite_src (a : Nat) (v : Byte) (s : State) : (memWrite a v s).src = s.src := rfl
@[simp] theorem memWrite_lost (a : Nat) (v : Byte) (s : State) : (memWrite a v s).lost = s.lost := rfl
@[simp] theorem memWrite_halt (a : Nat) (v : Byte) (s : State) : (memWrite a v s).halt = s.halt := rfl
@[simp] theorem memWrite_diag (a : Nat) (v : Byte) (s : State) : (memWrite a v s).diag = s.diag := rfl
@[simp] theorem memWrite_mem (a : Nat) (v : Byte) (s : State) : (memWrite a v s).mem = Memory.store s.mem (maskIndex s.cfg a) v := rfl
@[simp] theorem memWrite_draws (a : Nat) (v : Byte) (s : State) : (memWrite a v s).draws = s.draws := rfl
@[simp] theorem memWrite_txOut (a : Nat) (v : Byte) (s : State) : (memWrite a v s).txOut = s.txOut := rfl
@[simp] theorem memWrite_copyOut (a : Nat) (v : Byte) (s : State) : (memWrite a v s).copyOut = s.copyOut := rfl
@[simp] theorem memWrite_resp (a : Nat) (v : Byte) (s : State) : (memWrite a v s).resp = s.resp := rfl
@[simp] theorem memWrite_inputs (a : Nat) (v : Byte) (s : State) : (memWrite a v s).inputs = s.inputs := rfl

/-! ### `orFlags` -/

@[simp] theorem orFlags_cfg (f : Byte) (s : State) : (orFlags f s).cfg = s.cfg := rfl
@[simp] theorem orFlags_w (f : Byte) (s : State) : (orFlags f s).w = s.w := rfl
@[simp] theorem orFlags_old (f : Byte) (s : State) : (orFlags f s).old = s.old := rfl
@[simp] theorem orFlags_len (f : Byte) (s : State) : (orFlags f s).len = s.len := rfl
@[simp] theorem orFlags_pfl (f : Byte) (s : State) : (orFlags f s).pfl = s.pfl ||| f := rfl
@[simp] theorem orFlags_escp (f : Byte) (s : State) : (orFlags f s).escp = s.escp := rfl
@[simp] theorem orFlags_npk (f : Byte) (s : State) : (orFlags f s).npk = s.npk := rfl
@[simp] theorem orFlags_lock (f : Byte) (s : State) : (orFlags f s).lock = s.lock := rfl
@[simp] theorem orFlags_inMode (f : Byte) (s : State) : (orFlags f s).inMode = s.inMode := rfl
@[simp] theorem orFlags_outMode (f : Byte) (s : State) : (orFlags f s).outMode = s.outMode := rfl
@[simp] theorem orFlags_src (f : Byte) (s : State) : (orFlags f s).src = s.src := rfl
@[simp] theorem orFlags_lost (f : Byte) (s : State) : (orFlags f s).lost = s.lost := rfl
@[simp] theorem orFlags_halt (f : Byte) (s : State) : (orFlags f s).halt = s.halt := rfl
@[simp] theorem orFlags_diag (f : Byte) (s : State) : (orFlags f s).diag = s.diag := rfl
@[simp] theorem orFlags_mem (f : Byte) (s : State) : (orFlags f s).mem = s.mem := rfl
@[simp] theorem orFlags_draws (f : Byte) (s : State) : (orFlags f s).draws = s.draws := rfl
@[simp] theorem orFlags_txOut (f : Byte) (s : State) : (orFlags f s).txOut = s.txOut := rfl
@[simp] theorem orFlags_copyOut (f : Byte) (s : State) : (orFlags f s).copyOut = s.copyOut := rfl
@[simp] theorem orFlags_resp (f : Byte) (s : State) : (orFlags f s).resp = s.resp := rfl
@[simp] theorem orFlags_inputs (f : Byte) (s : State) : (orFlags f s).inputs = s.inputs := rfl

/-! ### `foldErrors` -/

@[simp] theorem foldErrors_cfg (e : BitVec 4) (s : State) : (foldErrors e s).cfg = s.cfg := rfl
@[simp] theorem foldErrors_w (e : BitVec 4) (s : State) : (foldErrors e s).w = s.w := rfl
@[simp] theorem foldErrors_old (e : BitVec 4) (s : State) : (foldErrors e s).old = s.old := rfl
@[simp] theorem foldErrors_len (e : BitVec 4) (s : State) : (foldErrors e s).len = s.len := rfl
@[simp] theorem foldErrors_pfl (e : BitVec 4) (s : State) : (foldErrors e s).pfl = s.pfl ||| e.setWidth 8 := rfl
@[simp] theorem foldErrors_escp (e : BitVec 4) (s : State) : (foldErrors e s).escp = s.escp := rfl
@[simp] theorem foldErrors_npk (e : BitVec 4) (s : State) : (foldErrors e s).npk = s.npk := rfl
@[simp] theorem foldErrors_lock (e : BitVec 4) (s : State) : (foldErrors e s).lock = s.lock := rfl
@[simp] theorem foldErrors_inMode (e : BitVec 4) (s : State) : (foldErrors e s).inMode = s.inMode := rfl
@[simp] theorem foldErrors_outMode (e : BitVec 4) (s : State) : (foldErrors e s).outMode = s.outMode := rfl
@[simp] theorem foldErrors_src (e : BitVec 4) (s : State) : (foldErrors e s).src = s.src := rfl
@[simp] theorem foldErrors_lost (e : BitVec 4) (s : State) : (foldErrors e s).lost = s.lost := rfl
@[simp] theorem foldErrors_halt (e : BitVec 4) (s : State) : (foldErrors e s).halt = s.halt := rfl
@[simp] theorem foldErrors_diag (e : BitVec 4) (s : State) : (foldErrors e s).diag = s.diag := rfl
@[simp] theorem foldErrors_mem (e : BitVec 4) (s : State) : (foldErrors e s).mem = s.mem := rfl
@[simp] theorem foldErrors_draws (e : BitVec 4) (s : State) : (foldErrors e s).draws = s.draws := rfl
@[simp] theorem foldErrors_txOut (e : BitVec 4) (s : State) : (foldErrors e s).txOut = s.txOut := rfl
@[simp] theorem foldErrors_copyOut (e : BitVec 4) (s : State) : (foldErrors e s).copyOut = s.copyOut := rfl
@[simp] theorem foldErrors_resp (e : BitVec 4) (s : State) : (foldErrors e s).resp = s.resp := rfl
@[simp] theorem foldErrors_inputs (e : BitVec 4) (s : State) : (foldErrors e s).inputs = s.inputs := rfl

/-! ### `doForceSync` -/

@[simp] theorem doForceSync_cfg (s : State) : (doForceSync s).cfg = s.cfg := rfl
@[simp] theorem doForceSync_w (s : State) : (doForceSync s).w = s.w := rfl
@[simp] theorem doForceSync_old (s : State) : (doForceSync s).old = s.old := rfl
@[simp] theorem doForceSync_len (s : State) : (doForceSync s).len = 0x00#8 := rfl
@[simp] theorem doForceSync_pfl (s : State) : (doForceSync s).pfl = 0x00#8 := rfl
@[simp] theorem doForceSync_escp (s : State) : (doForceSync s).escp = false := rfl
@[simp] theorem doForceSync_npk (s : State) : (doForceSync s).npk = s.npk := rfl
@[simp] theorem doForceSync_lock (s : State) : (doForceSync s).lock = s.lock := rfl
@[simp] theorem doForceSync_inMode (s : State) : (doForceSync s).inMode = s.inMode := rfl
@[simp] theorem doForceSync_outMode (s : State) : (doForceSync s).outMode = s.outMode := rfl
@[simp] theorem doForceSync_src (s : State) : (doForceSync s).src = s.src := rfl
@[simp] theorem doForceSync_lost (s : State) : (doForceSync s).lost = s.lost := rfl
@[simp] theorem doForceSync_halt (s : State) : (doForceSync s).halt = s.halt := rfl
@[simp] theorem doForceSync_diag (s : State) : (doForceSync s).diag = s.diag := rfl
@[simp] theorem doForceSync_mem (s : State) : (doForceSync s).mem = s.mem := rfl
@[simp] theorem doForceSync_draws (s : State) : (doForceSync s).draws = s.draws := rfl
@[simp] theorem doForceSync_txOut (s : State) : (doForceSync s).txOut = s.txOut := rfl
@[simp] theorem doForceSync_copyOut (s : State) : (doForceSync s).copyOut = s.copyOut := rfl
@[simp] theorem doForceSync_resp (s : State) : (doForceSync s).resp = s.resp := rfl
@[simp] theorem doForceSync_inputs (s : State) : (doForceSync s).inputs = s.inputs := rfl

/-! ### `losePacket` -/

@[simp] theorem losePacket_cfg (s : State) : (losePacket s).cfg = s.cfg := rfl
@[simp] theorem losePacket_w (s : State) : (losePacket s).w = s.w := rfl
@[simp] theorem losePacket_old (s : State) : (losePacket s).old = s.old := rfl
@[simp] theorem losePacket_len (s : State) : (losePacket s).len = 0x00#8 := rfl
@[simp] theorem losePacket_pfl (s : State) : (losePacket s).pfl = 0x00#8 := rfl
@[simp] theorem losePacket_escp (s : State) : (losePacket s).escp = s.escp := rfl
@[simp] theorem losePacket_npk (s : State) : (losePacket s).npk = s.npk := rfl
@[simp] theorem losePacket_lock (s : State) : (losePacket s).lock = s.lock := rfl
@[simp] theorem losePacket_inMode (s : State) : (losePacket s).inMode = s.inMode := rfl
@[simp] theorem losePacket_outMode (s : State) : (losePacket s).outMode = s.outMode := rfl
@[simp] theorem losePacket_src (s : State) : (losePacket s).src = s.src := rfl
@[simp] theorem losePacket_lost (s : State) : (losePacket s).lost = true := rfl
@[simp] theorem losePacket_halt (s : State) : (losePacket s).halt = s.halt := rfl
@[simp] theorem losePacket_diag (s : State) : (losePacket s).diag = s.diag := rfl
@[simp] theorem losePacket_mem (s : State) : (losePacket s).mem = s.mem := rfl
@[simp] theorem losePacket_draws (s : State) : (losePacket s).draws = s.draws := rfl
@[simp] theorem losePacket_txOut (s : State) : (losePacket s).txOut = s.txOut := rfl
@[simp] theorem losePacket_copyOut (s : State) : (losePacket s).copyOut = s.copyOut := rfl
@[simp] theorem losePacket_resp (s : State) : (losePacket s).resp = s.resp := rfl
@[simp] theorem losePacket_inputs (s : State) : (losePacket s).inputs = s.inputs := rfl

/-! ### `freeOldest` -/

@[simp] theorem freeOldest_cfg (s : State) : (freeOldest s).cfg = s.cfg := rfl
@[simp] theorem freeOldest_w (s : State) : (freeOldest s).w = s.w := rfl
@[simp] theorem freeOldest_old (s : State) : (freeOldest s).old = advance s s.old := rfl
@[simp] theorem freeOldest_len (s : State) : (freeOldest s).len = s.len := rfl
@[simp] theorem freeOldest_pfl (s : State) : (freeOldest s).pfl = s.pfl := rfl
@[simp] theorem freeOldest_escp (s : State) : (freeOldest s).escp = s.escp := rfl
@[simp] theorem freeOldest_npk (s : State) : (freeOldest s).npk = s.npk - 1 := rfl
@[simp] theorem freeOldest_lock (s : State) : (freeOldest s).lock = s.lock := rfl
@[simp] theorem freeOldest_inMode (s : State) : (freeOldest s).inMode = s.inMode := rfl
@[simp] theorem freeOldest_outMode (s : State) : (freeOldest s).outMode = s.outMode := rfl
@[simp] theorem freeOldest_src (s : State) : (freeOldest s).src = s.src := rfl
@[simp] theorem freeOldest_lost (s : State) : (freeOldest s).lost = s.lost := rfl
@[simp] theorem freeOldest_halt (s : State) : (freeOldest s).halt = s.halt := rfl
@[simp] theorem freeOldest_diag (s : State) : (freeOldest s).diag = s.diag := rfl
@[simp] theorem freeOldest_mem (s : State) : (freeOldest s).mem = s.mem := rfl
@[simp] theorem freeOldest_draws (s : State) : (freeOldest s).draws = s.draws := rfl
@[simp] theorem freeOldest_txOut (s : State) : (freeOldest s).txOut = s.txOut := rfl
@[simp] theorem freeOldest_copyOut (s : State) : (freeOldest s).copyOut = s.copyOut := rfl
@[simp] theorem freeOldest_resp (s : State) : (freeOldest s).resp = s.resp := rfl
@[simp] theorem freeOldest_inputs (s : State) : (freeOldest s).inputs = s.inputs := rfl

/-! ### `emitTx` -/

@[simp] theorem emitTx_cfg (bs : List Byte) (s : State) : (emitTx bs s).cfg = s.cfg := rfl
@[simp] theorem emitTx_w (bs : List Byte) (s : State) : (emitTx bs s).w = s.w := rfl
@[simp] theorem emitTx_old (bs : List Byte) (s : State) : (emitTx bs s).old = s.old := rfl
@[simp] theorem emitTx_len (bs : List Byte) (s : State) : (emitTx bs s).len = s.len := rfl
@[simp] theorem emitTx_pfl (bs : List Byte) (s : State) : (emitTx bs s).pfl = s.pfl := rfl
@[simp] theorem emitTx_escp (bs : List Byte) (s : State) : (emitTx bs s).escp = s.escp := rfl
@[simp] theorem emitTx_npk (bs : List Byte) (s : State) : (emitTx bs s).npk = s.npk := rfl
@[simp] theorem emitTx_lock (bs : List Byte) (s : State) : (emitTx bs s).lock = s.lock := rfl
@[simp] theorem emitTx_inMode (bs : List Byte) (s : State) : (emitTx bs s).inMode = s.inMode := rfl
@[simp] theorem emitTx_outMode (bs : List Byte) (s : State) : (emitTx bs s).outMode = s.outMode := rfl
@[simp] theorem emitTx_src (bs : List Byte) (s : State) : (emitTx bs s).src = s.src := rfl
@[simp] theorem emitTx_lost (bs : List Byte) (s : State) : (emitTx bs s).lost = s.lost := rfl
@[simp] theorem emitTx_halt (bs : List Byte) (s : State) : (emitTx bs s).halt = s.halt := rfl
@[simp] theorem emitTx_diag (bs : List Byte) (s : State) : (emitTx bs s).diag = s.diag := rfl
@[simp] theorem emitTx_mem (bs : List Byte) (s : State) : (emitTx bs s).mem = s.mem := rfl
@[simp] theorem emitTx_draws (bs : List Byte) (s : State) : (emitTx bs s).draws = s.draws := rfl
@[simp] theorem emitTx_txOut (bs : List Byte) (s : State) : (emitTx bs s).txOut = s.txOut ++ bs := rfl
@[simp] theorem emitTx_copyOut (bs : List Byte) (s : State) : (emitTx bs s).copyOut = s.copyOut := rfl
@[simp] theorem emitTx_resp (bs : List Byte) (s : State) : (emitTx bs s).resp = s.resp := rfl
@[simp] theorem emitTx_inputs (bs : List Byte) (s : State) : (emitTx bs s).inputs = s.inputs := rfl

/-! ### `emitConsumer` -/

@[simp] theorem emitConsumer_cfg (bs : List Byte) (s : State) : (emitConsumer bs s).cfg = s.cfg := rfl
@[simp] theorem emitConsumer_w (bs : List Byte) (s : State) : (emitConsumer bs s).w = s.w := rfl
@[simp] theorem emitConsumer_old (bs : List Byte) (s : State) : (emitConsumer bs s).old = s.old := rfl
@[simp] theorem emitConsumer_len (bs : List Byte) (s : State) : (emitConsumer bs s).len = s.len := rfl
@[simp] theorem emitConsumer_pfl (bs : List Byte) (s : State) : (emitConsumer bs s).pfl = s.pfl := rfl
@[simp] theorem emitConsumer_escp (bs : List Byte) (s : State) : (emitConsumer bs s).escp = s.escp := rfl
@[simp] theorem emitConsumer_npk (bs : List Byte) (s : State) : (emitConsumer bs s).npk = s.npk := rfl
@[simp] theorem emitConsumer_lock (bs : List Byte) (s : State) : (emitConsumer bs s).lock = s.lock := rfl
@[simp] theorem emitConsumer_inMode (bs : List Byte) (s : State) : (emitConsumer bs s).inMode = s.inMode := rfl
@[simp] theorem emitConsumer_outMode (bs : List Byte) (s : State) : (emitConsumer bs s).outMode = s.outMode := rfl
@[simp] theorem emitConsumer_src (bs : List Byte) (s : State) : (emitConsumer bs s).src = s.src := rfl
@[simp] theorem emitConsumer_lost (bs : List Byte) (s : State) : (emitConsumer bs s).lost = s.lost := rfl
@[simp] theorem emitConsumer_halt (bs : List Byte) (s : State) : (emitConsumer bs s).halt = s.halt := rfl
@[simp] theorem emitConsumer_diag (bs : List Byte) (s : State) : (emitConsumer bs s).diag = s.diag := rfl
@[simp] theorem emitConsumer_mem (bs : List Byte) (s : State) : (emitConsumer bs s).mem = s.mem := rfl
@[simp] theorem emitConsumer_draws (bs : List Byte) (s : State) : (emitConsumer bs s).draws = s.draws := rfl
@[simp] theorem emitConsumer_txOut (bs : List Byte) (s : State) : (emitConsumer bs s).txOut = s.txOut := rfl
@[simp] theorem emitConsumer_copyOut (bs : List Byte) (s : State) : (emitConsumer bs s).copyOut = s.copyOut ++ bs := rfl
@[simp] theorem emitConsumer_resp (bs : List Byte) (s : State) : (emitConsumer bs s).resp = s.resp := rfl
@[simp] theorem emitConsumer_inputs (bs : List Byte) (s : State) : (emitConsumer bs s).inputs = s.inputs := rfl

/-! ### `setResponse` -/

@[simp] theorem setResponse_cfg (p : Port) (r : Response) (s : State) : (setResponse p r s).cfg = s.cfg := by cases p <;> rfl
@[simp] theorem setResponse_w (p : Port) (r : Response) (s : State) : (setResponse p r s).w = s.w := by cases p <;> rfl
@[simp] theorem setResponse_old (p : Port) (r : Response) (s : State) : (setResponse p r s).old = s.old := by cases p <;> rfl
@[simp] theorem setResponse_len (p : Port) (r : Response) (s : State) : (setResponse p r s).len = s.len := by cases p <;> rfl
@[simp] theorem setResponse_pfl (p : Port) (r : Response) (s : State) : (setResponse p r s).pfl = s.pfl := by cases p <;> rfl
@[simp] theorem setResponse_escp (p : Port) (r : Response) (s : State) : (setResponse p r s).escp = s.escp := by cases p <;> rfl
@[simp] theorem setResponse_npk (p : Port) (r : Response) (s : State) : (setResponse p r s).npk = s.npk := by cases p <;> rfl
@[simp] theorem setResponse_lock (p : Port) (r : Response) (s : State) : (setResponse p r s).lock = s.lock := by cases p <;> rfl
@[simp] theorem setResponse_inMode (p : Port) (r : Response) (s : State) : (setResponse p r s).inMode = s.inMode := by cases p <;> rfl
@[simp] theorem setResponse_outMode (p : Port) (r : Response) (s : State) : (setResponse p r s).outMode = s.outMode := by cases p <;> rfl
@[simp] theorem setResponse_src (p : Port) (r : Response) (s : State) : (setResponse p r s).src = s.src := by cases p <;> rfl
@[simp] theorem setResponse_lost (p : Port) (r : Response) (s : State) : (setResponse p r s).lost = s.lost := by cases p <;> rfl
@[simp] theorem setResponse_halt (p : Port) (r : Response) (s : State) : (setResponse p r s).halt = s.halt := by cases p <;> rfl
@[simp] theorem setResponse_diag (p : Port) (r : Response) (s : State) : (setResponse p r s).diag = s.diag := by cases p <;> rfl
@[simp] theorem setResponse_mem (p : Port) (r : Response) (s : State) : (setResponse p r s).mem = s.mem := by cases p <;> rfl
@[simp] theorem setResponse_draws (p : Port) (r : Response) (s : State) : (setResponse p r s).draws = s.draws := by cases p <;> rfl
@[simp] theorem setResponse_txOut (p : Port) (r : Response) (s : State) : (setResponse p r s).txOut = s.txOut := by cases p <;> rfl
@[simp] theorem setResponse_copyOut (p : Port) (r : Response) (s : State) : (setResponse p r s).copyOut = s.copyOut := by cases p <;> rfl
@[simp] theorem setResponse_inputs (p : Port) (r : Response) (s : State) : (setResponse p r s).inputs = s.inputs := by cases p <;> rfl

/-! ### `fatal` -/

@[simp] theorem fatal_cfg (p : Port) (c : Byte) (s : State) : (fatal p c s).cfg = s.cfg := by cases p <;> rfl
@[simp] theorem fatal_w (p : Port) (c : Byte) (s : State) : (fatal p c s).w = s.w := by cases p <;> rfl
@[simp] theorem fatal_old (p : Port) (c : Byte) (s : State) : (fatal p c s).old = s.old := by cases p <;> rfl
@[simp] theorem fatal_len (p : Port) (c : Byte) (s : State) : (fatal p c s).len = s.len := by cases p <;> rfl
@[simp] theorem fatal_pfl (p : Port) (c : Byte) (s : State) : (fatal p c s).pfl = s.pfl := by cases p <;> rfl
@[simp] theorem fatal_escp (p : Port) (c : Byte) (s : State) : (fatal p c s).escp = s.escp := by cases p <;> rfl
@[simp] theorem fatal_npk (p : Port) (c : Byte) (s : State) : (fatal p c s).npk = s.npk := by cases p <;> rfl
@[simp] theorem fatal_lock (p : Port) (c : Byte) (s : State) : (fatal p c s).lock = s.lock := by cases p <;> rfl
@[simp] theorem fatal_inMode (p : Port) (c : Byte) (s : State) : (fatal p c s).inMode = s.inMode := by cases p <;> rfl
@[simp] theorem fatal_outMode (p : Port) (c : Byte) (s : State) : (fatal p c s).outMode = s.outMode := by cases p <;> rfl
@[simp] theorem fatal_src (p : Port) (c : Byte) (s : State) : (fatal p c s).src = s.src := by cases p <;> rfl
@[simp] theorem fatal_lost (p : Port) (c : Byte) (s : State) : (fatal p c s).lost = s.lost := by cases p <;> rfl
@[simp] theorem fatal_halt (p : Port) (c : Byte) (s : State) : (fatal p c s).halt = true := by cases p <;> rfl
@[simp] theorem fatal_diag (p : Port) (c : Byte) (s : State) : (fatal p c s).diag = c := by cases p <;> rfl
@[simp] theorem fatal_mem (p : Port) (c : Byte) (s : State) : (fatal p c s).mem = s.mem := by cases p <;> rfl
@[simp] theorem fatal_draws (p : Port) (c : Byte) (s : State) : (fatal p c s).draws = s.draws := by cases p <;> rfl
@[simp] theorem fatal_txOut (p : Port) (c : Byte) (s : State) : (fatal p c s).txOut = s.txOut := by cases p <;> rfl
@[simp] theorem fatal_copyOut (p : Port) (c : Byte) (s : State) : (fatal p c s).copyOut = s.copyOut := by cases p <;> rfl
@[simp] theorem fatal_inputs (p : Port) (c : Byte) (s : State) : (fatal p c s).inputs = s.inputs := by cases p <;> rfl

/-! ### `endEscape`: the fields it leaves alone -/

@[simp] theorem endEscape_cfg (s : State) : (endEscape s).cfg = s.cfg := by
  unfold endEscape; split <;> rfl
@[simp] theorem endEscape_w (s : State) : (endEscape s).w = s.w := by
  unfold endEscape; split <;> rfl
@[simp] theorem endEscape_old (s : State) : (endEscape s).old = s.old := by
  unfold endEscape; split <;> rfl
@[simp] theorem endEscape_len (s : State) : (endEscape s).len = s.len := by
  unfold endEscape; split <;> rfl
@[simp] theorem endEscape_npk (s : State) : (endEscape s).npk = s.npk := by
  unfold endEscape; split <;> rfl
@[simp] theorem endEscape_lock (s : State) : (endEscape s).lock = s.lock := by
  unfold endEscape; split <;> rfl
@[simp] theorem endEscape_inMode (s : State) : (endEscape s).inMode = s.inMode := by
  unfold endEscape; split <;> rfl
@[simp] theorem endEscape_outMode (s : State) : (endEscape s).outMode = s.outMode := by
  unfold endEscape; split <;> rfl
@[simp] theorem endEscape_src (s : State) : (endEscape s).src = s.src := by
  unfold endEscape; split <;> rfl
@[simp] theorem endEscape_lost (s : State) : (endEscape s).lost = s.lost := by
  unfold endEscape; split <;> rfl
@[simp] theorem endEscape_halt (s : State) : (endEscape s).halt = s.halt := by
  unfold endEscape; split <;> rfl
@[simp] theorem endEscape_diag (s : State) : (endEscape s).diag = s.diag := by
  unfold endEscape; split <;> rfl
@[simp] theorem endEscape_mem (s : State) : (endEscape s).mem = s.mem := by
  unfold endEscape; split <;> rfl
@[simp] theorem endEscape_draws (s : State) : (endEscape s).draws = s.draws := by
  unfold endEscape; split <;> rfl
@[simp] theorem endEscape_txOut (s : State) : (endEscape s).txOut = s.txOut := by
  unfold endEscape; split <;> rfl
@[simp] theorem endEscape_copyOut (s : State) : (endEscape s).copyOut = s.copyOut := by
  unfold endEscape; split <;> rfl
@[simp] theorem endEscape_resp (s : State) : (endEscape s).resp = s.resp := by
  unfold endEscape; split <;> rfl
@[simp] theorem endEscape_inputs (s : State) : (endEscape s).inputs = s.inputs := by
  unfold endEscape; split <;> rfl

/-! ### `appendByte`: the fields it leaves alone -/

@[simp] theorem appendByte_cfg (b : Byte) (s : State) : (appendByte b s).cfg = s.cfg := by
  unfold appendByte; split <;> rfl
@[simp] theorem appendByte_w (b : Byte) (s : State) : (appendByte b s).w = s.w := by
  unfold appendByte; split <;> rfl
@[simp] theorem appendByte_old (b : Byte) (s : State) : (appendByte b s).old = s.old := by
  unfold appendByte; split <;> rfl
@[simp] theorem appendByte_escp (b : Byte) (s : State) : (appendByte b s).escp = s.escp := by
  unfold appendByte; split <;> rfl
@[simp] theorem appendByte_npk (b : Byte) (s : State) : (appendByte b s).npk = s.npk := by
  unfold appendByte; split <;> rfl
@[simp] theorem appendByte_lock (b : Byte) (s : State) : (appendByte b s).lock = s.lock := by
  unfold appendByte; split <;> rfl
@[simp] theorem appendByte_inMode (b : Byte) (s : State) : (appendByte b s).inMode = s.inMode := by
  unfold appendByte; split <;> rfl
@[simp] theorem appendByte_outMode (b : Byte) (s : State) : (appendByte b s).outMode = s.outMode := by
  unfold appendByte; split <;> rfl
@[simp] theorem appendByte_src (b : Byte) (s : State) : (appendByte b s).src = s.src := by
  unfold appendByte; split <;> rfl
@[simp] theorem appendByte_lost (b : Byte) (s : State) : (appendByte b s).lost = s.lost := by
  unfold appendByte; split <;> rfl
@[simp] theorem appendByte_halt (b : Byte) (s : State) : (appendByte b s).halt = s.halt := by
  unfold appendByte; split <;> rfl
@[simp] theorem appendByte_diag (b : Byte) (s : State) : (appendByte b s).diag = s.diag := by
  unfold appendByte; split <;> rfl
@[simp] theorem appendByte_draws (b : Byte) (s : State) : (appendByte b s).draws = s.draws := by
  unfold appendByte; split <;> rfl
@[simp] theorem appendByte_txOut (b : Byte) (s : State) : (appendByte b s).txOut = s.txOut := by
  unfold appendByte; split <;> rfl
@[simp] theorem appendByte_copyOut (b : Byte) (s : State) : (appendByte b s).copyOut = s.copyOut := by
  unfold appendByte; split <;> rfl
@[simp] theorem appendByte_resp (b : Byte) (s : State) : (appendByte b s).resp = s.resp := by
  unfold appendByte; split <;> rfl
@[simp] theorem appendByte_inputs (b : Byte) (s : State) : (appendByte b s).inputs = s.inputs := by
  unfold appendByte; split <;> rfl

/-! ### `writeBytes`: the fields it leaves alone -/

@[simp] theorem writeBytes_cfg (ws : List (Nat × Byte)) (s : State) : (writeBytes ws s).cfg = s.cfg := by
  induction ws generalizing s with
  | nil => rfl
  | cons c ws ih => obtain ⟨a, v⟩ := c; rw [writeBytes, ih]; rfl
@[simp] theorem writeBytes_w (ws : List (Nat × Byte)) (s : State) : (writeBytes ws s).w = s.w := by
  induction ws generalizing s with
  | nil => rfl
  | cons c ws ih => obtain ⟨a, v⟩ := c; rw [writeBytes, ih]; rfl
@[simp] theorem writeBytes_old (ws : List (Nat × Byte)) (s : State) : (writeBytes ws s).old = s.old := by
  induction ws generalizing s with
  | nil => rfl
  | cons c ws ih => obtain ⟨a, v⟩ := c; rw [writeBytes, ih]; rfl
@[simp] theorem writeBytes_len (ws : List (Nat × Byte)) (s : State) : (writeBytes ws s).len = s.len := by
  induction ws generalizing s with
  | nil => rfl
  | cons c ws ih => obtain ⟨a, v⟩ := c; rw [writeBytes, ih]; rfl
@[simp] theorem writeBytes_pfl (ws : List (Nat × Byte)) (s : State) : (writeBytes ws s).pfl = s.pfl := by
  induction ws generalizing s with
  | nil => rfl
  | cons c ws ih => obtain ⟨a, v⟩ := c; rw [writeBytes, ih]; rfl
@[simp] theorem writeBytes_escp (ws : List (Nat × Byte)) (s : State) : (writeBytes ws s).escp = s.escp := by
  induction ws generalizing s with
  | nil => rfl
  | cons c ws ih => obtain ⟨a, v⟩ := c; rw [writeBytes, ih]; rfl
@[simp] theorem writeBytes_npk (ws : List (Nat × Byte)) (s : State) : (writeBytes ws s).npk = s.npk := by
  induction ws generalizing s with
  | nil => rfl
  | cons c ws ih => obtain ⟨a, v⟩ := c; rw [writeBytes, ih]; rfl
@[simp] theorem writeBytes_lock (ws : List (Nat × Byte)) (s : State) : (writeBytes ws s).lock = s.lock := by
  induction ws generalizing s with
  | nil => rfl
  | cons c ws ih => obtain ⟨a, v⟩ := c; rw [writeBytes, ih]; rfl
@[simp] theorem writeBytes_inMode (ws : List (Nat × Byte)) (s : State) : (writeBytes ws s).inMode = s.inMode := by
  induction ws generalizing s with
  | nil => rfl
  | cons c ws ih => obtain ⟨a, v⟩ := c; rw [writeBytes, ih]; rfl
@[simp] theorem writeBytes_outMode (ws : List (Nat × Byte)) (s : State) : (writeBytes ws s).outMode = s.outMode := by
  induction ws generalizing s with
  | nil => rfl
  | cons c ws ih => obtain ⟨a, v⟩ := c; rw [writeBytes, ih]; rfl
@[simp] theorem writeBytes_src (ws : List (Nat × Byte)) (s : State) : (writeBytes ws s).src = s.src := by
  induction ws generalizing s with
  | nil => rfl
  | cons c ws ih => obtain ⟨a, v⟩ := c; rw [writeBytes, ih]; rfl
@[simp] theorem writeBytes_lost (ws : List (Nat × Byte)) (s : State) : (writeBytes ws s).lost = s.lost := by
  induction ws generalizing s with
  | nil => rfl
  | cons c ws ih => obtain ⟨a, v⟩ := c; rw [writeBytes, ih]; rfl
@[simp] theorem writeBytes_halt (ws : List (Nat × Byte)) (s : State) : (writeBytes ws s).halt = s.halt := by
  induction ws generalizing s with
  | nil => rfl
  | cons c ws ih => obtain ⟨a, v⟩ := c; rw [writeBytes, ih]; rfl
@[simp] theorem writeBytes_diag (ws : List (Nat × Byte)) (s : State) : (writeBytes ws s).diag = s.diag := by
  induction ws generalizing s with
  | nil => rfl
  | cons c ws ih => obtain ⟨a, v⟩ := c; rw [writeBytes, ih]; rfl
@[simp] theorem writeBytes_draws (ws : List (Nat × Byte)) (s : State) : (writeBytes ws s).draws = s.draws := by
  induction ws generalizing s with
  | nil => rfl
  | cons c ws ih => obtain ⟨a, v⟩ := c; rw [writeBytes, ih]; rfl
@[simp] theorem writeBytes_txOut (ws : List (Nat × Byte)) (s : State) : (writeBytes ws s).txOut = s.txOut := by
  induction ws generalizing s with
  | nil => rfl
  | cons c ws ih => obtain ⟨a, v⟩ := c; rw [writeBytes, ih]; rfl
@[simp] theorem writeBytes_copyOut (ws : List (Nat × Byte)) (s : State) : (writeBytes ws s).copyOut = s.copyOut := by
  induction ws generalizing s with
  | nil => rfl
  | cons c ws ih => obtain ⟨a, v⟩ := c; rw [writeBytes, ih]; rfl
@[simp] theorem writeBytes_resp (ws : List (Nat × Byte)) (s : State) : (writeBytes ws s).resp = s.resp := by
  induction ws generalizing s with
  | nil => rfl
  | cons c ws ih => obtain ⟨a, v⟩ := c; rw [writeBytes, ih]; rfl
@[simp] theorem writeBytes_inputs (ws : List (Nat × Byte)) (s : State) : (writeBytes ws s).inputs = s.inputs := by
  induction ws generalizing s with
  | nil => rfl
  | cons c ws ih => obtain ⟨a, v⟩ := c; rw [writeBytes, ih]; rfl

/-! ### `commit`: the fields it leaves alone -/

@[simp] theorem commit_cfg (s : State) : (commit s).cfg = s.cfg := by
  simp [commit]
@[simp] theorem commit_old (s : State) : (commit s).old = s.old := by
  simp [commit]
@[simp] theorem commit_escp (s : State) : (commit s).escp = s.escp := by
  simp [commit]
@[simp] theorem commit_lock (s : State) : (commit s).lock = s.lock := by
  simp [commit]
@[simp] theorem commit_inMode (s : State) : (commit s).inMode = s.inMode := by
  simp [commit]
@[simp] theorem commit_outMode (s : State) : (commit s).outMode = s.outMode := by
  simp [commit]
@[simp] theorem commit_src (s : State) : (commit s).src = s.src := by
  simp [commit]
@[simp] theorem commit_lost (s : State) : (commit s).lost = s.lost := by
  simp [commit]
@[simp] theorem commit_halt (s : State) : (commit s).halt = s.halt := by
  simp [commit]
@[simp] theorem commit_diag (s : State) : (commit s).diag = s.diag := by
  simp [commit]
@[simp] theorem commit_draws (s : State) : (commit s).draws = s.draws := by
  simp [commit]
@[simp] theorem commit_txOut (s : State) : (commit s).txOut = s.txOut := by
  simp [commit]
@[simp] theorem commit_copyOut (s : State) : (commit s).copyOut = s.copyOut := by
  simp [commit]
@[simp] theorem commit_resp (s : State) : (commit s).resp = s.resp := by
  simp [commit]
@[simp] theorem commit_inputs (s : State) : (commit s).inputs = s.inputs := by
  simp [commit]

/-! ### `doFinish`: the fields it leaves alone -/

@[simp] theorem doFinish_cfg (s : State) : (doFinish s).cfg = s.cfg := by
  unfold doFinish; simp only; split <;> simp
@[simp] theorem doFinish_old (s : State) : (doFinish s).old = s.old := by
  unfold doFinish; simp only; split <;> simp
@[simp] theorem doFinish_lock (s : State) : (doFinish s).lock = s.lock := by
  unfold doFinish; simp only; split <;> simp
@[simp] theorem doFinish_inMode (s : State) : (doFinish s).inMode = s.inMode := by
  unfold doFinish; simp only; split <;> simp
@[simp] theorem doFinish_outMode (s : State) : (doFinish s).outMode = s.outMode := by
  unfold doFinish; simp only; split <;> simp
@[simp] theorem doFinish_src (s : State) : (doFinish s).src = s.src := by
  unfold doFinish; simp only; split <;> simp
@[simp] theorem doFinish_halt (s : State) : (doFinish s).halt = s.halt := by
  unfold doFinish; simp only; split <;> simp
@[simp] theorem doFinish_diag (s : State) : (doFinish s).diag = s.diag := by
  unfold doFinish; simp only; split <;> simp
@[simp] theorem doFinish_draws (s : State) : (doFinish s).draws = s.draws := by
  unfold doFinish; simp only; split <;> simp
@[simp] theorem doFinish_txOut (s : State) : (doFinish s).txOut = s.txOut := by
  unfold doFinish; simp only; split <;> simp
@[simp] theorem doFinish_copyOut (s : State) : (doFinish s).copyOut = s.copyOut := by
  unfold doFinish; simp only; split <;> simp
@[simp] theorem doFinish_resp (s : State) : (doFinish s).resp = s.resp := by
  unfold doFinish; simp only; split <;> simp
@[simp] theorem doFinish_inputs (s : State) : (doFinish s).inputs = s.inputs := by
  unfold doFinish; simp only; split <;> simp

/-! ### `decodePlain`: the fields it leaves alone -/

@[simp] theorem decodePlain_cfg (b : Byte) (d : Bool) (s : State) : (decodePlain b d s).cfg = s.cfg := by
  unfold decodePlain; split; · simp
  split <;> simp
@[simp] theorem decodePlain_old (b : Byte) (d : Bool) (s : State) : (decodePlain b d s).old = s.old := by
  unfold decodePlain; split; · simp
  split <;> simp
@[simp] theorem decodePlain_lock (b : Byte) (d : Bool) (s : State) : (decodePlain b d s).lock = s.lock := by
  unfold decodePlain; split; · simp
  split <;> simp
@[simp] theorem decodePlain_inMode (b : Byte) (d : Bool) (s : State) : (decodePlain b d s).inMode = s.inMode := by
  unfold decodePlain; split; · simp
  split <;> simp
@[simp] theorem decodePlain_outMode (b : Byte) (d : Bool) (s : State) : (decodePlain b d s).outMode = s.outMode := by
  unfold decodePlain; split; · simp
  split <;> simp
@[simp] theorem decodePlain_src (b : Byte) (d : Bool) (s : State) : (decodePlain b d s).src = s.src := by
  unfold decodePlain; split; · simp
  split <;> simp
@[simp] theorem decodePlain_halt (b : Byte) (d : Bool) (s : State) : (decodePlain b d s).halt = s.halt := by
  unfold decodePlain; split; · simp
  split <;> simp
@[simp] theorem decodePlain_diag (b : Byte) (d : Bool) (s : State) : (decodePlain b d s).diag = s.diag := by
  unfold decodePlain; split; · simp
  split <;> simp
@[simp] theorem decodePlain_draws (b : Byte) (d : Bool) (s : State) : (decodePlain b d s).draws = s.draws := by
  unfold decodePlain; split; · simp
  split <;> simp
@[simp] theorem decodePlain_txOut (b : Byte) (d : Bool) (s : State) : (decodePlain b d s).txOut = s.txOut := by
  unfold decodePlain; split; · simp
  split <;> simp
@[simp] theorem decodePlain_copyOut (b : Byte) (d : Bool) (s : State) : (decodePlain b d s).copyOut = s.copyOut := by
  unfold decodePlain; split; · simp
  split <;> simp
@[simp] theorem decodePlain_resp (b : Byte) (d : Bool) (s : State) : (decodePlain b d s).resp = s.resp := by
  unfold decodePlain; split; · simp
  split <;> simp
@[simp] theorem decodePlain_inputs (b : Byte) (d : Bool) (s : State) : (decodePlain b d s).inputs = s.inputs := by
  unfold decodePlain; split; · simp
  split <;> simp

/-! ### `decodeStep`: the fields it leaves alone -/

@[simp] theorem decodeStep_cfg (b : Byte) (d : Bool) (s : State) : (decodeStep b d s).cfg = s.cfg := by
  unfold decodeStep; split
  · split
    · simp
    split <;> simp
  · simp
@[simp] theorem decodeStep_old (b : Byte) (d : Bool) (s : State) : (decodeStep b d s).old = s.old := by
  unfold decodeStep; split
  · split
    · simp
    split <;> simp
  · simp
@[simp] theorem decodeStep_lock (b : Byte) (d : Bool) (s : State) : (decodeStep b d s).lock = s.lock := by
  unfold decodeStep; split
  · split
    · simp
    split <;> simp
  · simp
@[simp] theorem decodeStep_inMode (b : Byte) (d : Bool) (s : State) : (decodeStep b d s).inMode = s.inMode := by
  unfold decodeStep; split
  · split
    · simp
    split <;> simp
  · simp
@[simp] theorem decodeStep_outMode (b : Byte) (d : Bool) (s : State) : (decodeStep b d s).outMode = s.outMode := by
  unfold decodeStep; split
  · split
    · simp
    split <;> simp
  · simp
@[simp] theorem decodeStep_src (b : Byte) (d : Bool) (s : State) : (decodeStep b d s).src = s.src := by
  unfold decodeStep; split
  · split
    · simp
    split <;> simp
  · simp
@[simp] theorem decodeStep_halt (b : Byte) (d : Bool) (s : State) : (decodeStep b d s).halt = s.halt := by
  unfold decodeStep; split
  · split
    · simp
    split <;> simp
  · simp
@[simp] theorem decodeStep_diag (b : Byte) (d : Bool) (s : State) : (decodeStep b d s).diag = s.diag := by
  unfold decodeStep; split
  · split
    · simp
    split <;> simp
  · simp
@[simp] theorem decodeStep_draws (b : Byte) (d : Bool) (s : State) : (decodeStep b d s).draws = s.draws := by
  unfold decodeStep; split
  · split
    · simp
    split <;> simp
  · simp
@[simp] theorem decodeStep_txOut (b : Byte) (d : Bool) (s : State) : (decodeStep b d s).txOut = s.txOut := by
  unfold decodeStep; split
  · split
    · simp
    split <;> simp
  · simp
@[simp] theorem decodeStep_copyOut (b : Byte) (d : Bool) (s : State) : (decodeStep b d s).copyOut = s.copyOut := by
  unfold decodeStep; split
  · split
    · simp
    split <;> simp
  · simp
@[simp] theorem decodeStep_resp (b : Byte) (d : Bool) (s : State) : (decodeStep b d s).resp = s.resp := by
  unfold decodeStep; split
  · split
    · simp
    split <;> simp
  · simp
@[simp] theorem decodeStep_inputs (b : Byte) (d : Bool) (s : State) : (decodeStep b d s).inputs = s.inputs := by
  unfold decodeStep; split
  · split
    · simp
    split <;> simp
  · simp
/-! ### The fields a Packet's end sets -/

@[simp] theorem commit_len (s : State) : (commit s).len = 0x00#8 := rfl
@[simp] theorem commit_pfl (s : State) : (commit s).pfl = 0x00#8 := rfl
@[simp] theorem commit_npk (s : State) : (commit s).npk = s.npk + 1 := rfl
@[simp] theorem commit_w (s : State) : (commit s).w = nextPosition s.cfg (s.w + s.len.toNat + 5) := rfl
@[simp] theorem commit_mem (s : State) : (commit s).mem = (writeBytes (commitWrites s) s).mem := rfl
@[simp] theorem endEscape_escp (s : State) : (endEscape s).escp = false := by
  unfold endEscape; split
  · rfl
  · simp_all
@[simp] theorem doFinish_escp (s : State) : (doFinish s).escp = false := by
  unfold doFinish; simp only; split <;> simp
@[simp] theorem doFinish_len (s : State) : (doFinish s).len = 0x00#8 := by
  unfold doFinish; simp only; split <;> simp
@[simp] theorem doFinish_pfl (s : State) : (doFinish s).pfl = 0x00#8 := by
  unfold doFinish; simp only; split <;> simp

/-! ### Responses -/

@[simp] theorem lastResponse_setResponse (p : Port) (r : Response) (s : State) :
    lastResponse p (setResponse p r s) = some r := by
  cases p <;> rfl

theorem lastResponse_setResponse_other (p q : Port) (r : Response) (s : State) (h : q ≠ p) :
    lastResponse q (setResponse p r s) = lastResponse q s := by
  cases p <;> cases q <;> first | rfl | exact absurd rfl h

end Sys2Proof.Machine
end

