-- ==== Sys2Proof/Laws/Memory.lean ====
section
/-! SUPPORT. The laws of memory: the size of the address space, masking, read after write, and the canonical form that every
memory operation keeps. -/

namespace Sys2Proof.Machine

/-! ### Sizes (R7) -/

theorem cap_eq (c : Config) : c.cap = 2 ^ c.K := rfl

theorem cap_ge (c : Config) : 512 ≤ c.cap := by
  have h : (2 : Nat) ^ 9 ≤ 2 ^ c.K := Nat.pow_le_pow_right (by decide) (by unfold Config.K; omega)
  simpa [Config.cap] using h

theorem cap_le (c : Config) : c.cap ≤ 65536 := by
  have h : (2 : Nat) ^ c.K ≤ 2 ^ 16 :=
    Nat.pow_le_pow_right (by decide) (by have := c.kMinus9.isLt; unfold Config.K; omega)
  simpa [Config.cap] using h

/-! ### Masking (R10, R59) -/

theorem maskIndex_eq_mod (c : Config) (a : Nat) : maskIndex c a = a % c.cap := by
  unfold maskIndex Config.cap
  exact Nat.and_two_pow_sub_one_eq_mod a c.K

theorem maskIndex_lt (c : Config) (a : Nat) : maskIndex c a < c.cap := by
  rw [maskIndex_eq_mod]
  exact Nat.mod_lt _ (by have := cap_ge c; omega)

theorem maskIndex_of_lt {c : Config} {a : Nat} (h : a < c.cap) : maskIndex c a = a := by
  rw [maskIndex_eq_mod, Nat.mod_eq_of_lt h]

@[simp] theorem maskIndex_idem (c : Config) (a : Nat) : maskIndex c (maskIndex c a) = maskIndex c a :=
  maskIndex_of_lt (maskIndex_lt c a)

/-! ### The list -/

@[simp] theorem lookup_store (m : Memory) (a b : Nat) (v : Byte) :
    Memory.lookup (Memory.store m a v) b = if b = a then some v else Memory.lookup m b := by
  induction m with
  | nil => simp [Memory.store, Memory.lookup]
  | cons c m ih =>
    obtain ⟨k, x⟩ := c
    simp only [Memory.store]
    split
    · simp [Memory.lookup]
    · split
      · subst_vars
        by_cases hb : b = k <;> simp [Memory.lookup, hb]
      · by_cases hb : b = k
        · subst hb
          simp [Memory.lookup]; intro h; omega
        · simp [Memory.lookup, hb, ih]

theorem wf_cons (k : Nat) (x : Byte) (m : Memory) (h : Memory.wf ((k, x) :: m) = true) :
    Memory.wf m = true ∧ ∀ c ∈ m, k < c.1 := by
  induction m generalizing k x with
  | nil => simp [Memory.wf]
  | cons c m ih =>
    obtain ⟨l, y⟩ := c
    simp only [Memory.wf, Bool.and_eq_true, decide_eq_true_eq] at h
    refine ⟨h.2, ?_⟩
    intro c hc
    rcases List.mem_cons.1 hc with rfl | hc
    · exact h.1
    · exact Nat.lt_trans h.1 ((ih l y h.2).2 c hc)

theorem wf_cons_of (k : Nat) (x : Byte) (m : Memory) (h : Memory.wf m = true) (hk : ∀ c ∈ m, k < c.1) :
    Memory.wf ((k, x) :: m) = true := by
  cases m with
  | nil => rfl
  | cons c m =>
    obtain ⟨l, y⟩ := c
    simp only [Memory.wf, Bool.and_eq_true, decide_eq_true_eq]
    exact ⟨hk (l, y) (by simp), h⟩

theorem mem_store {m : Memory} {a : Nat} {v : Byte} {c : Host.Cell} (h : c ∈ Memory.store m a v) :
    c = (a, v) ∨ c ∈ m := by
  induction m with
  | nil => simpa [Memory.store] using h
  | cons d m ih =>
    obtain ⟨k, x⟩ := d
    simp only [Memory.store] at h
    split at h
    · simpa using h
    · split at h
      · rcases List.mem_cons.1 h with h | h
        · exact .inl h
        · exact .inr (List.mem_cons_of_mem _ h)
      · rcases List.mem_cons.1 h with h | h
        · exact .inr (by simp [h])
        · rcases ih h with h | h
          · exact .inl h
          · exact .inr (List.mem_cons_of_mem _ h)

/-- Every write keeps the canonical form. -/
theorem wf_store {m : Memory} (a : Nat) (v : Byte) (h : Memory.wf m = true) : Memory.wf (Memory.store m a v) = true := by
  induction m with
  | nil => rfl
  | cons d m ih =>
    obtain ⟨k, x⟩ := d
    obtain ⟨hm, hk⟩ := wf_cons k x m h
    simp only [Memory.store]
    split
    · rename_i hak
      refine wf_cons_of a v _ h ?_
      intro c hc
      rcases List.mem_cons.1 hc with rfl | hc
      · exact hak
      · exact Nat.lt_trans hak (hk c hc)
    · split
      · subst_vars
        exact wf_cons_of _ v m hm hk
      · refine wf_cons_of k x _ (ih hm) ?_
        intro c hc
        rcases mem_store hc with rfl | hc
        · simp only; omega
        · exact hk c hc

/-- Two memories in canonical form that give every index the same byte are the same list. -/
theorem memory_ext {m n : Memory} (hm : Memory.wf m = true) (hn : Memory.wf n = true)
    (h : ∀ a, Memory.lookup m a = Memory.lookup n a) : m = n := by
  have miss : ∀ (m : Memory) (a : Nat), (∀ c ∈ m, a < c.1) → Memory.lookup m a = none := by
    intro m a
    induction m with
    | nil => intro _; rfl
    | cons c m ih =>
      intro hc
      obtain ⟨k, x⟩ := c
      have hk : a < k := hc (k, x) (by simp)
      simp only [Memory.lookup]
      rw [if_neg (by omega)]
      exact ih fun c hcm => hc c (List.mem_cons_of_mem _ hcm)
  induction m generalizing n with
  | nil =>
    cases n with
    | nil => rfl
    | cons c n =>
      obtain ⟨k, x⟩ := c
      have := h k
      simp [Memory.lookup] at this
  | cons c m ih =>
    obtain ⟨k, x⟩ := c
    obtain ⟨hm1, hk⟩ := wf_cons k x m hm
    cases n with
    | nil =>
      have := h k
      simp [Memory.lookup] at this
    | cons d n =>
      obtain ⟨l, y⟩ := d
      obtain ⟨hn1, hl⟩ := wf_cons l y n hn
      have hkl : k = l := by
        rcases Nat.lt_trichotomy k l with hlt | heq | hgt
        · have h1 := h k
          rw [miss ((l, y) :: n) k (by
            intro c hc
            rcases List.mem_cons.1 hc with rfl | hc
            · exact hlt
            · exact Nat.lt_trans hlt (hl c hc))] at h1
          simp [Memory.lookup] at h1
        · exact heq
        · have h1 := h l
          rw [miss ((k, x) :: m) l (by
            intro c hc
            rcases List.mem_cons.1 hc with rfl | hc
            · exact hgt
            · exact Nat.lt_trans hgt (hk c hc))] at h1
          simp [Memory.lookup] at h1
      subst hkl
      have hxy : x = y := by
        have := h k
        simpa [Memory.lookup] using this
      subst hxy
      congr 1
      refine ih hm1 hn1 fun a => ?_
      by_cases ha : a = k
      · subst ha
        rw [miss m a hk, miss n a hl]
      · have := h a
        simpa [Memory.lookup, ha] using this

/-! ### One byte of `MEM` -/

theorem memRead_memWrite (s : State) (a b : Nat) (v : Byte) :
    memRead (memWrite a v s) b = if maskIndex s.cfg b = maskIndex s.cfg a then v else memRead s b := by
  simp only [memRead, memWrite, lookup_store]
  by_cases h : maskIndex s.cfg b = maskIndex s.cfg a <;> simp [h]

@[simp] theorem memRead_memWrite_same (s : State) (a : Nat) (v : Byte) : memRead (memWrite a v s) a = v := by
  simp [memRead_memWrite]

theorem memRead_memWrite_other {s : State} {a b : Nat} {v : Byte} (h : maskIndex s.cfg b ≠ maskIndex s.cfg a) :
    memRead (memWrite a v s) b = memRead s b := by
  simp [memRead_memWrite, h]

/-- Reading depends on the parameter, the memory and the draws, and on nothing else. -/
theorem memRead_congr {s t : State} (hc : t.cfg = s.cfg) (hm : t.mem = s.mem) (hd : t.draws = s.draws) (a : Nat) :
    memRead t a = memRead s a := by
  simp [memRead, hc, hm, hd]

theorem memRead_maskIndex (s : State) (a : Nat) : memRead s (maskIndex s.cfg a) = memRead s a := by
  simp [memRead]

/-- A byte outside the written ones reads as before. -/
theorem memRead_writeBytes_other {ws : List (Nat × Byte)} {s : State} {a : Nat}
    (h : ∀ c ∈ ws, maskIndex s.cfg a ≠ maskIndex s.cfg c.1) : memRead (writeBytes ws s) a = memRead s a := by
  induction ws generalizing s with
  | nil => rfl
  | cons c ws ih =>
    obtain ⟨b, v⟩ := c
    rw [writeBytes, ih (by intro c hc; simpa using h c (List.mem_cons_of_mem _ hc))]
    exact memRead_memWrite_other (h (b, v) (by simp))

/-- A byte that some of the writes reach, all of them with `v`, reads as `v`. -/
theorem memRead_writeBytes_mem {ws : List (Nat × Byte)} {s : State} {a : Nat} {v : Byte}
    (reached : ∃ c ∈ ws, maskIndex s.cfg a = maskIndex s.cfg c.1)
    (agree : ∀ c ∈ ws, maskIndex s.cfg a = maskIndex s.cfg c.1 → c.2 = v) : memRead (writeBytes ws s) a = v := by
  induction ws generalizing s with
  | nil => simp at reached
  | cons d ws ih =>
    obtain ⟨e, y⟩ := d
    rw [writeBytes]
    by_cases later : ∃ c ∈ ws, maskIndex s.cfg a = maskIndex s.cfg c.1
    · exact ih (by simpa using later) (by intro c hc; simpa using agree c (List.mem_cons_of_mem _ hc))
    · rw [memRead_writeBytes_other (by
        intro c hc heq
        exact later ⟨c, hc, by simpa using heq⟩)]
      obtain ⟨c, hc, hca⟩ := reached
      rcases List.mem_cons.1 hc with rfl | hc
      · rw [memRead_memWrite, if_pos hca]
        exact agree (e, y) (by simp) hca
      · exact absurd ⟨c, hc, hca⟩ later

/-- Every write keeps `MEM` canonical and inside the address space. -/
theorem memWrite_keeps_memoryInv {s : State} (a : Nat) (v : Byte) (h : s.MemoryInv) : (memWrite a v s).MemoryInv where
  canonical := wf_store _ _ h.canonical
  inside := by
    intro c hc
    rcases mem_store hc with rfl | hc
    · exact maskIndex_lt _ _
    · exact h.inside c hc

theorem writeBytes_keeps_memoryInv (ws : List (Nat × Byte)) {s : State} (h : s.MemoryInv) : (writeBytes ws s).MemoryInv := by
  induction ws generalizing s with
  | nil => exact h
  | cons c ws ih =>
    obtain ⟨a, v⟩ := c
    exact ih (memWrite_keeps_memoryInv a v h)

/-- The memory after reset is canonical. -/
theorem reset_memory_wf : Memory.wf State.reset.mem = true := by decide

end Sys2Proof.Machine
end

