-- ==== Sys2Proof/Laws/Ops.lean ====
section
/-! SUPPORT. One lemma for each shared operation that says what it can do, and what a command can do in a halted and in a running
block. -/

namespace Sys2Proof.Machine

/-! ### Halted and running (R101) -/

theorem unlessHalted_running {p : Port} {s run : State} (h : s.halt = false) : unlessHalted p s run = .next run := by
  simp [unlessHalted, h]

theorem unlessHalted_halted {p : Port} {s run : State} (h : s.halt = true) : unlessHalted p s run = .next (ignored p s) := by
  simp [unlessHalted, h]

/-! ### Room (R45) -/

/-- The four cases of `Room()`. -/
theorem room_cases (s : State) :
    (s.npk = 0 ∧ room s = s.cfg.cap - s.w) ∨ (s.npk ≠ 0 ∧ s.old < s.w ∧ room s = s.cfg.cap - s.w) ∨
      (s.npk ≠ 0 ∧ s.w < s.old ∧ room s = s.old - s.w) ∨ (s.npk ≠ 0 ∧ s.old = s.w ∧ room s = 0) := by
  unfold room; split
  · exact .inl ⟨‹_›, rfl⟩
  split
  · exact .inr (.inl ⟨‹_›, ‹_›, rfl⟩)
  split
  · exact .inr (.inr (.inl ⟨‹_›, ‹_›, rfl⟩))
  · exact .inr (.inr (.inr ⟨‹_›, by omega, rfl⟩))

/-- Room never reaches past the end of `MEM`, if `OLD` is an index. -/
theorem room_le {s : State} (hw : s.w ≤ s.cfg.cap) (ho : s.old ≤ s.cfg.cap) : s.w + room s ≤ s.cfg.cap := by
  have := room_cases s
  omega

theorem room_congr {s t : State} (hc : t.cfg = s.cfg) (hw : t.w = s.w) (ho : t.old = s.old) (hn : t.npk = s.npk) :
    room t = room s := by
  simp [room, hc, hw, ho, hn]

/-! ### Placement (R44) -/

theorem nextPosition_cases (c : Config) (q : Nat) :
    (nextPosition c q = 0 ∧ c.cap - q < maxSpan) ∨ (nextPosition c q = q ∧ maxSpan ≤ c.cap - q) := by
  unfold nextPosition; split
  · exact .inl ⟨rfl, ‹_›⟩
  · exact .inr ⟨rfl, by omega⟩

/-- Every header position the block computes leaves room for a maximum-size Packet (R44). -/
theorem nextPosition_le (c : Config) (q : Nat) : nextPosition c q ≤ c.cap - maxSpan := by
  have := nextPosition_cases c q
  have := cap_ge c
  simp only [maxSpan] at *
  omega

/-! ### Appending (R47) -/

theorem len_add_one {l : Byte} (h : l.toNat < maxLen) : (l + 1#8).toNat = l.toNat + 1 := by
  rw [BitVec.toNat_add]
  simp only [maxLen] at h
  simp
  omega

/-- `AppendByte` stores the byte and counts it, or flags OVERFLOW. -/
theorem appendByte_cases (b : Byte) (s : State) :
    (s.len.toNat < maxLen ∧ hdr + s.len.toNat + 2 ≤ room s ∧
      appendByte b s = { memWrite (s.w + hdr + s.len.toNat) b s with len := s.len + 1#8 }) ∨
    ((maxLen ≤ s.len.toNat ∨ room s < hdr + s.len.toNat + 2) ∧ appendByte b s = orFlags flagOverflow s) := by
  unfold appendByte; split
  · rename_i h; exact .inl ⟨h.1, h.2, rfl⟩
  · rename_i h; exact .inr ⟨by omega, rfl⟩

/-! ### Finishing (R75) -/

/-- `DoFinish` commits the Packet, or loses it where not even its header and trailing zero fit. -/
theorem doFinish_cases (s : State) :
    (hdr + s.len.toNat + 1 ≤ room s ∧ doFinish s = commit (endEscape s)) ∨
    (room s < hdr + s.len.toNat + 1 ∧ doFinish s = losePacket (endEscape s)) := by
  have hr : room (endEscape s) = room s := by simp [room]
  unfold doFinish; simp only [endEscape_len, hr]; split
  · exact .inl ⟨‹_›, rfl⟩
  · exact .inr ⟨by omega, rfl⟩

/-- What an end of Packet does to a pending escape (R75). -/
theorem endEscape_cases (s : State) :
    (s.escp = false ∧ endEscape s = s) ∨ (s.escp = true ∧ endEscape s = setEscp false (orFlags flagBadEscape s)) := by
  cases h : s.escp <;> simp [endEscape, h]

/-! ### Decoding (R65) -/

theorem decodePlain_cases (b : Byte) (d : Bool) (s : State) :
    (d = true ∧ b = delim ∧ decodePlain b d s = doFinish s) ∨
    (b = esc ∧ decodePlain b d s = setEscp true s) ∨
    (¬ (d = true ∧ b = delim) ∧ b ≠ esc ∧ decodePlain b d s = appendByte b s) := by
  unfold decodePlain; split
  · rename_i h; exact .inl ⟨h.1, h.2, rfl⟩
  split
  · exact .inr (.inl ⟨‹_›, rfl⟩)
  · exact .inr (.inr ⟨‹_›, ‹_›, rfl⟩)

/-- With no escape pending a byte is decoded plainly. -/
theorem decodeStep_unescaped {b : Byte} {d : Bool} {s : State} (h : s.escp = false) :
    decodeStep b d s = decodePlain b d s := by
  simp [decodeStep, h]

/-- After an escape: a legal continuation is data, any other byte is flagged and decoded plainly (C9). -/
theorem decodeStep_escaped {b : Byte} {d : Bool} {s : State} (h : s.escp = true) :
    (b = escDelim ∧ decodeStep b d s = appendByte delim (setEscp false s)) ∨
    (b = escEsc ∧ decodeStep b d s = appendByte esc (setEscp false s)) ∨
    (b ≠ escDelim ∧ b ≠ escEsc ∧
      decodeStep b d s = decodePlain b d (orFlags flagBadEscape (setEscp false s))) := by
  simp only [decodeStep, h, if_true]; split
  · exact .inl ⟨‹_›, rfl⟩
  split
  · exact .inr (.inl ⟨‹_›, rfl⟩)
  · exact .inr (.inr ⟨‹_›, ‹_›, rfl⟩)

/-- Whatever holds before decoding, survives clearing `ESCP`, flagging, ending the Packet, setting `ESCP` and appending, holds
after it. -/
theorem decodeStep_keeps {P : State → Prop} (b : Byte) (d : Bool) {s : State} (h : P s)
    (clear : ∀ u, P u → P (setEscp false u)) (flag : ∀ u, P u → P (orFlags flagBadEscape u))
    (finish : ∀ u, P u → P (doFinish u)) (set : ∀ u, P u → P (setEscp true u))
    (append : ∀ c u, P u → P (appendByte c u)) : P (decodeStep b d s) := by
  have plain : ∀ u, P u → P (decodePlain b d u) := by
    intro u hu
    rcases decodePlain_cases b d u with ⟨-, -, e⟩ | ⟨-, e⟩ | ⟨-, -, e⟩ <;> rw [e]
    · exact finish u hu
    · exact set u hu
    · exact append b u hu
  cases hs : s.escp with
  | false => rw [decodeStep_unescaped hs]; exact plain s h
  | true =>
    rcases decodeStep_escaped (b := b) (d := d) hs with ⟨-, e⟩ | ⟨-, e⟩ | ⟨-, -, e⟩ <;> rw [e]
    · exact append _ _ (clear s h)
    · exact append _ _ (clear s h)
    · exact plain _ (flag _ (clear s h))

/-- The same without delimiter detection: no Packet ends (R78). -/
theorem decodeStep_keeps_off {P : State → Prop} (b : Byte) {s : State} (h : P s)
    (clear : ∀ u, P u → P (setEscp false u)) (flag : ∀ u, P u → P (orFlags flagBadEscape u))
    (set : ∀ u, P u → P (setEscp true u)) (append : ∀ c u, P u → P (appendByte c u)) : P (decodeStep b false s) := by
  have plain : ∀ u, P u → P (decodePlain b false u) := by
    intro u hu
    rcases decodePlain_cases b false u with ⟨hd, -⟩ | ⟨-, e⟩ | ⟨-, -, e⟩
    · cases hd
    · rw [e]; exact set u hu
    · rw [e]; exact append b u hu
  cases hs : s.escp with
  | false => rw [decodeStep_unescaped hs]; exact plain s h
  | true =>
    rcases decodeStep_escaped (b := b) (d := false) hs with ⟨-, e⟩ | ⟨-, e⟩ | ⟨-, -, e⟩ <;> rw [e]
    · exact append _ _ (clear s h)
    · exact append _ _ (clear s h)
    · exact plain _ (flag _ (clear s h))

/-! ### The inputs a step takes -/

/-- A word presented alone is taken by its port (R55). -/
theorem takeInput_presentOn (p : Port) (w : Word) (rest : List Event) (s : State) (h : s.inputs = presentOn p w :: rest) :
    takeInput s = .command p w { s with inputs := rest } := by
  cases p <;> simp [takeInput, presentOn, h]

/-! ### Responses with several fields (R83, R85) -/

/-- The fields of a response that carries a header position and a byte. -/
theorem packetWord_toNat {p : Nat} (b : Byte) (h : p < 2 ^ 16) :
    (packetWord p b).toNat = p * 2 ^ 16 + b.toNat * 2 ^ 8 + 1 := by
  have hb := b.isLt
  unfold packetWord
  rw [BitVec.toNat_or, BitVec.toNat_or, BitVec.toNat_shiftLeft, BitVec.toNat_shiftLeft, BitVec.toNat_ofNat,
    BitVec.toNat_setWidth, Nat.mod_eq_of_lt (a := p) (by omega), Nat.mod_eq_of_lt (a := b.toNat) (by omega),
    Nat.mod_eq_of_lt (by rw [Nat.shiftLeft_eq]; omega), Nat.mod_eq_of_lt (by rw [Nat.shiftLeft_eq]; omega),
    Nat.or_assoc, show (1#32).toNat = 1 from rfl, ← Nat.shiftLeft_add_eq_or_of_lt (by omega : 1 < 2 ^ 8),
    ← Nat.shiftLeft_add_eq_or_of_lt (by rw [Nat.shiftLeft_eq]; omega), Nat.shiftLeft_eq, Nat.shiftLeft_eq]
  omega

end Sys2Proof.Machine
end

