-- ==== Sys2Proof/Laws/Ring.lean ====
section
/-! SUPPORT. The walk over the occupying Packets (R46, R50) and how the operations that append, commit, free and mark as read
keep the invariants of the ring. -/

namespace Sys2Proof.Machine

/-! ### The walk -/

/-- Where a walk of `k` Packets from `p` ends. -/
def walkEnd (s : State) : Nat → Nat → Nat
  | 0, p => p
  | k + 1, p => walkEnd s k (advance s p)

@[simp] theorem length_walk (s : State) (k p : Nat) : (walk s k p).length = k := by
  induction k generalizing p with
  | zero => rfl
  | succ k ih => simp [walk, ih]

theorem walkSound_iff (s : State) (k p : Nat) :
    walkSound s k p = true ↔ (∀ q ∈ walk s k p, packetSound s q = true) ∧ walkEnd s k p = s.w := by
  induction k generalizing p with
  | zero => simp [walkSound, walk, walkEnd]
  | succ k ih => simp [walkSound, walk, walkEnd, ih, and_assoc]

theorem walk_succ (s : State) (k p : Nat) : walk s (k + 1) p = walk s k p ++ [walkEnd s k p] := by
  induction k generalizing p with
  | zero => rfl
  | succ k ih => rw [walk, ih]; rfl

theorem walkEnd_succ (s : State) (k p : Nat) : walkEnd s (k + 1) p = advance s (walkEnd s k p) := by
  induction k generalizing p with
  | zero => rfl
  | succ k ih => rw [walkEnd, ih]; rfl

/-- A walk depends only on the parameter and the length bytes of the Packets it visits. -/
theorem walk_congr {s t : State} (hc : t.cfg = s.cfg) (k p : Nat)
    (h : ∀ q ∈ walk s k p, lengthAt t q = lengthAt s q) : walk t k p = walk s k p ∧ walkEnd t k p = walkEnd s k p := by
  induction k generalizing p with
  | zero => exact ⟨rfl, rfl⟩
  | succ k ih =>
    have hp : advance t p = advance s p := by simp [advance, hc, h p (by simp [walk])]
    have := ih (advance s p) fun q hq => h q (by simp [walk, hq])
    simp [walk, walkEnd, hp, this]

/-- The occupying Packets depend on the parameter, the memory and its draw, `OLD` and `NPK`, and on nothing else. -/
theorem occupying_congr {s t : State} (hc : t.cfg = s.cfg) (ho : t.old = s.old) (hn : t.npk = s.npk) (hm : t.mem = s.mem)
    (hd : t.draws = s.draws) : occupying t = occupying s := by
  simp only [occupying, hn, ho]
  exact (walk_congr hc _ _ fun q _ => by simp only [lengthAt, memRead_congr hc hm hd]).1

/-- The tests of the walk depend on the parameter, the memory and its draw, and `W`. -/
theorem walkSound_congr {s t : State} (hc : t.cfg = s.cfg) (hm : t.mem = s.mem) (hd : t.draws = s.draws) (hw : t.w = s.w)
    (k p : Nat) : walkSound t k p = walkSound s k p := by
  have hread := memRead_congr hc hm hd
  induction k generalizing p with
  | zero => simp [walkSound, hw]
  | succ k ih =>
    have ha : advance t p = advance s p := by simp only [advance, lengthAt, hread, hc]
    have hl : lengthAt t p = lengthAt s p := by simp only [lengthAt, hread]
    have hu : cursorAt t p = cursorAt s p := hread _
    have ht : trailerAt t p = trailerAt s p := by simp only [trailerAt, hl, hread]
    have ho : sourceAt t p = sourceAt s p := hread _
    have hs : packetSound t p = packetSound s p := by simp [packetSound, validHeader, hc, hl, hu, ht, ho]
    rw [walkSound, walkSound, ha, hs, ih]

theorem checkPasses_congr {s t : State} (hc : t.cfg = s.cfg) (hm : t.mem = s.mem) (hd : t.draws = s.draws) (hw : t.w = s.w)
    (ho : t.old = s.old) (hn : t.npk = s.npk) (hl : t.len = s.len) (hk : t.lock = s.lock) : checkPasses t = checkPasses s := by
  simp only [checkPasses, walkSound_congr hc hm hd hw, hc, hw, ho, hn, hl, hk]

/-- A walk that no wrap breaks visits rising positions. -/
theorem le_of_mem_walk {s : State} (k p : Nat) (h : ∀ q ∈ walk s k p, maxSpan ≤ s.cfg.cap - spanEnd s q) :
    ∀ q ∈ walk s k p, p ≤ q := by
  induction k generalizing p with
  | zero => simp [walk]
  | succ k ih =>
    have hp := h p (by simp [walk])
    have ha : advance s p = spanEnd s p := by
      have := nextPosition_cases s.cfg (p + lengthAt s p + 5)
      simp only [advance, spanEnd] at *; omega
    intro q hq
    simp only [walk, List.mem_cons] at hq
    rcases hq with rfl | hq
    · exact Nat.le_refl _
    · have := ih (advance s p) (fun r hr => h r (by simp [walk, hr])) q hq
      simp only [ha, spanEnd] at this; omega

/-! ### A sound Packet -/

theorem packetSound_iff (s : State) (p : Nat) : packetSound s p = true ↔
    p ≤ s.cfg.cap - maxSpan ∧ lengthAt s p ≤ maxLen ∧ (cursorAt s p).toNat ≤ lengthAt s p
      ∧ (sourceAt s p).toNat < srcLimit ∧ trailerAt s p = 0x00#8 := by
  simp [packetSound, validHeader, and_assoc]

/-- A sound Packet ends inside `MEM` (R49). -/
theorem spanEnd_le {s : State} {p : Nat} (h : packetSound s p = true) : spanEnd s p ≤ s.cfg.cap := by
  have := (packetSound_iff s p).1 h
  have := cap_ge s.cfg
  simp only [spanEnd, maxSpan, maxLen] at *
  omega

theorem State.RingInv.sound {s : State} (h : s.RingInv) {p : Nat} (hp : p ∈ occupying s) : packetSound s p = true :=
  ((walkSound_iff _ _ _).1 h.walkReachesWrite).1 p hp

theorem State.RingInv.walkEnd_eq {s : State} (h : s.RingInv) : walkEnd s s.npk s.old = s.w :=
  ((walkSound_iff _ _ _).1 h.walkReachesWrite).2

theorem old_mem_occupying {s : State} (h : 0 < s.npk) : s.old ∈ occupying s := by
  obtain ⟨k, hk⟩ : ∃ k, s.npk = k + 1 := ⟨s.npk - 1, by omega⟩
  simp [occupying, hk, walk]

/-- `OLD` is a legal header position (R44). -/
theorem State.RingInv.old_le {s : State} (h : s.RingInv) (hw : s.w ≤ s.cfg.cap - maxSpan) :
    s.old ≤ s.cfg.cap - maxSpan := by
  rcases Nat.eq_zero_or_pos s.npk with h0 | hpos
  · rw [h.emptyAtWrite h0]; exact hw
  · exact ((packetSound_iff _ _).1 (h.sound (old_mem_occupying hpos))).1

/-- The room of the in-progress Packet lies inside `MEM` (R49). -/
theorem State.RingInv.room_le {s : State} (h : s.RingInv) (hw : s.w ≤ s.cfg.cap - maxSpan) : s.w + room s ≤ s.cfg.cap := by
  have := h.old_le hw
  exact Machine.room_le (by omega) (by omega)

/-- While `OLD < W` every occupying Packet lies in `[OLD, W)` (R45). -/
theorem State.RingInv.between {s : State} (h : s.RingInv) (hw : s.w ≤ s.cfg.cap - maxSpan) (hlt : s.old < s.w) :
    ∀ p ∈ occupying s, s.old ≤ p ∧ spanEnd s p ≤ s.w := by
  have hroom := room_cases s
  have hend : ∀ p ∈ occupying s, spanEnd s p ≤ s.w := by
    intro p hp
    have hs := (packetSound_iff _ _).1 (h.sound hp)
    have := cap_ge s.cfg
    rcases h.roomApart p hp with hle | hge
    · exact hle
    · simp only [maxSpan] at *; omega
  intro p hp
  refine ⟨le_of_mem_walk s.npk s.old (fun q hq => ?_) p hp, hend p hp⟩
  have := hend q hq
  have := cap_ge s.cfg
  simp only [maxSpan] at *; omega

/-! ### Operations that leave the occupying Packets alone -/

/-- The bytes of a Packet that occupies the store are read unchanged. -/
theorem packet_congr {s t : State} {p : Nat}
    (h : ∀ j, j < lengthAt s p + 5 → memRead t (p + j) = memRead s (p + j)) :
    lengthAt t p = lengthAt s p ∧ cursorAt t p = cursorAt s p ∧ flagsAt t p = flagsAt s p
      ∧ sourceAt t p = sourceAt s p ∧ trailerAt t p = trailerAt s p := by
  have hl : lengthAt t p = lengthAt s p := by simp only [lengthAt, h 3 (by omega)]
  refine ⟨hl, h 2 (by omega), h 1 (by omega), h 0 (by omega), ?_⟩
  have := h (4 + lengthAt s p) (by omega)
  simpa [trailerAt, hl, Nat.add_assoc] using this

/-- The invariants of the ring survive every change that leaves the occupying Packets and the ring's registers alone and
keeps the in-progress Packet in its room. -/
theorem State.RingInv.of_same {s t : State} (h : s.RingInv) (hc : t.cfg = s.cfg) (hw : t.w = s.w) (ho : t.old = s.old)
    (hn : t.npk = s.npk) (hk : s.lock = true → t.lock = true)
    (hm : ∀ p ∈ occupying s, ∀ j, j < lengthAt s p + 5 → memRead t (p + j) = memRead s (p + j))
    (hd : 0 < t.len.toNat → hdr + t.len.toNat + 1 ≤ room s) : t.RingInv := by
  have hr : room t = room s := room_congr hc hw ho hn
  have hocc : occupying t = occupying s ∧ walkEnd t t.npk t.old = walkEnd s s.npk s.old := by
    simp only [occupying, hn, ho]
    exact walk_congr hc _ _ fun q hq => (packet_congr (hm q hq)).1
  have hend : ∀ p ∈ occupying s, spanEnd t p = spanEnd s p := by
    intro p hp; simp only [spanEnd, (packet_congr (hm p hp)).1]
  refine ⟨?_, ?_, ?_, ?_, ?_, ?_, ?_, ?_⟩
  · intro h0; rw [ho, hw]; exact h.emptyAtWrite (by omega)
  · intro h0; rw [hr]; exact hd h0
  · rw [hn, hc]; exact h.countAtMost
  · rw [walkSound_iff]
    refine ⟨fun q hq => ?_, by rw [hocc.2, h.walkEnd_eq, hw]⟩
    have hq' : q ∈ occupying s := by rw [← hocc.1]; exact hq
    have hs := (packetSound_iff _ _).1 (h.sound hq')
    obtain ⟨e1, e2, e3, e4, e5⟩ := packet_congr (hm q hq')
    rw [packetSound_iff, hc, e1, e2, e4, e5]
    exact hs
  · rw [hocc.1]
    refine h.spansApart.imp_of_mem ?_
    intro p q hp hq hpq
    rw [hend p hp, hend q hq]; exact hpq
  · rw [hocc.1, hw, hr]
    intro p hp
    rw [hend p hp]; exact h.roomApart p hp
  · rw [hocc.1]
    intro p hp
    rw [(packet_congr (hm p (List.mem_of_mem_drop hp))).2.1]
    refine h.cursorsUnread p ?_
    cases hl : s.lock with
    | false => exact List.mem_of_mem_drop hp
    | true => rw [hk hl] at hp; exact hp
  · rw [hocc.1]
    intro p hp
    rw [(packet_congr (hm p hp)).2.2.1]
    exact h.headerFlags p hp

/-- Appending a byte keeps the ring (R37, R47). -/
theorem State.RingInv.appendByte {s : State} (h : s.RingInv) (hw : s.w ≤ s.cfg.cap - maxSpan) (b : Byte) :
    (appendByte b s).RingInv := by
  rcases appendByte_cases b s with ⟨hl, hroom, e⟩ | ⟨-, e⟩
  · rw [e]
    have hin := h.room_le hw
    simp only [hdr] at hroom
    have ha : s.w + hdr + s.len.toNat < s.cfg.cap := by simp only [hdr]; omega
    refine h.of_same rfl rfl rfl rfl id ?_ ?_
    · intro p hp j hj
      have hend := spanEnd_le (h.sound hp)
      have hap := h.roomApart p hp
      have hjlt : p + j < s.cfg.cap := by simp only [spanEnd] at hend; omega
      have : memRead (memWrite (s.w + hdr + s.len.toNat) b s) (p + j) = memRead s (p + j) := by
        apply memRead_memWrite_other
        rw [maskIndex_of_lt hjlt, maskIndex_of_lt ha]
        simp only [spanEnd, hdr] at *; omega
      rw [← this]
      exact memRead_congr rfl rfl rfl _
    · intro _
      simp only [len_add_one hl, hdr]; omega
  · rw [e]
    exact h.of_same rfl rfl rfl rfl id (fun _ _ _ _ => memRead_congr rfl rfl rfl _) h.dataPlaced

/-! ### Committing a Packet -/

/-- Where the writes of `Commit` go (R48, R49). -/
theorem commitWrites_cases {s : State} {c : Nat × Byte} (h : c ∈ commitWrites s) :
    c ∈ packetWrites s ∨
      (s.cfg.cap - (s.w + s.len.toNat + 5) < maxSpan ∧ s.w + s.len.toNat + 5 ≤ c.1 ∧ c.1 < s.cfg.cap) := by
  unfold commitWrites at h
  split at h
  · rename_i hwrap
    rcases List.mem_append.1 h with h | h
    · exact .inl h
    · refine .inr ⟨hwrap, ?_⟩
      unfold tailWrites at h
      split at h
      · rename_i htail
        simp only [List.mem_cons, List.not_mem_nil, or_false, minSpan] at h htail
        rcases h with rfl | rfl | rfl | rfl | rfl <;> simp only <;> omega
      · simp only [List.mem_map, List.mem_range] at h
        obtain ⟨i, hi, rfl⟩ := h
        simp only; omega
  · exact .inl h

/-- The five writes of the Packet itself (R40, R48). -/
theorem packetWrites_cases {s : State} {c : Nat × Byte} (h : c ∈ packetWrites s) :
    c = (s.w, s.src) ∨ c = (s.w + 1, s.pfl) ∨ c = (s.w + 2, 0x00#8) ∨ c = (s.w + 3, s.len)
      ∨ c = (s.w + 4 + s.len.toNat, 0x00#8) := by
  simpa [packetWrites] using h

/-- `Commit` writes no byte outside the Packet's span and the abandoned tail. -/
theorem memRead_commit_other {s : State} {a : Nat} (hq : s.w + s.len.toNat + 5 ≤ s.cfg.cap) (ha : a < s.cfg.cap)
    (h1 : a < s.w ∨ s.w + s.len.toNat + 5 ≤ a)
    (h2 : s.cfg.cap - (s.w + s.len.toNat + 5) < maxSpan → a < s.w + s.len.toNat + 5) :
    memRead (commit s) a = memRead s a := by
  have : memRead (writeBytes (commitWrites s) s) a = memRead s a := by
    apply memRead_writeBytes_other
    intro c hc
    rcases commitWrites_cases hc with hp | ⟨hwrap, hlo, hhi⟩
    · rcases packetWrites_cases hp with rfl | rfl | rfl | rfl | rfl <;>
        (simp only; rw [maskIndex_of_lt ha, maskIndex_of_lt (by omega)]; omega)
    · have := h2 hwrap
      rw [maskIndex_of_lt ha, maskIndex_of_lt hhi]; omega
  rw [← this]
  exact memRead_congr rfl rfl (by simp) _

/-- The bytes of the committed Packet that `Commit` itself writes (R40, R48). -/
theorem memRead_commit_header {s : State} (hq : s.w + s.len.toNat + 5 ≤ s.cfg.cap) :
    sourceAt (commit s) s.w = s.src ∧ flagsAt (commit s) s.w = s.pfl ∧ cursorAt (commit s) s.w = 0x00#8
      ∧ lengthAt (commit s) s.w = s.len.toNat ∧ trailerAt (commit s) s.w = 0x00#8 := by
  have key : ∀ a v, (a, v) ∈ packetWrites s → memRead (commit s) a = v := by
    intro a v hav
    have hmem : (a, v) ∈ commitWrites s := by
      unfold commitWrites; split
      · exact List.mem_append_left _ hav
      · exact hav
    have halt : a < s.w + s.len.toNat + 5 := by
      rcases packetWrites_cases hav with h | h | h | h | h <;> cases h <;> omega
    have : memRead (writeBytes (commitWrites s) s) a = v := by
      refine memRead_writeBytes_mem ⟨(a, v), hmem, rfl⟩ ?_
      intro c hc heq
      rw [maskIndex_of_lt (by omega)] at heq
      rcases commitWrites_cases hc with hp | ⟨-, hlo, hhi⟩
      · have hclt : c.1 < s.cfg.cap := by
          rcases packetWrites_cases hp with rfl | rfl | rfl | rfl | rfl <;> simp only <;> omega
        rw [maskIndex_of_lt hclt] at heq
        rcases packetWrites_cases hav with h | h | h | h | h <;> cases h <;>
          rcases packetWrites_cases hp with rfl | rfl | rfl | rfl | rfl <;> simp only at heq ⊢ <;> omega
      · rw [maskIndex_of_lt hhi] at heq; omega
    rw [← this]
    exact memRead_congr rfl rfl (by simp) _
  have hlen : lengthAt (commit s) s.w = s.len.toNat := by
    unfold lengthAt; rw [key (s.w + 3) s.len (by simp [packetWrites])]
  refine ⟨key _ _ (by simp [packetWrites]), key _ _ (by simp [packetWrites]), key _ _ (by simp [packetWrites]), hlen, ?_⟩
  unfold trailerAt
  rw [hlen]
  exact key _ _ (by simp [packetWrites])

/-- Packets that lie apart and start at legal positions are at most `NPK_MAX` (R46). -/
theorem length_le_npkMax {s : State} {l : List Nat}
    (hap : l.Pairwise (fun p q => spanEnd s p ≤ q ∨ spanEnd s q ≤ p)) (hle : ∀ p ∈ l, p ≤ s.cfg.cap - maxSpan) :
    l.length ≤ s.cfg.npkMax := by
  have hnodup : (l.map (· / minSpan)).Nodup := by
    rw [List.Nodup, List.pairwise_map]
    refine hap.imp ?_
    intro p q h heq
    simp only [spanEnd, minSpan] at *
    omega
  have hsub : (l.map (· / minSpan)).toFinset ⊆ Finset.range s.cfg.npkMax := by
    intro x hx
    simp only [List.mem_toFinset, List.mem_map] at hx
    obtain ⟨p, hp, rfl⟩ := hx
    have := hle p hp
    simp only [Finset.mem_range, Config.npkMax]
    exact Nat.lt_succ_of_le (Nat.div_le_div_right this)
  have := Finset.card_le_card hsub
  rwa [List.toFinset_card_of_nodup hnodup, List.length_map, Finset.card_range] at this

/-- What `Commit` does to the occupying Packets: it keeps their bytes and adds the in-progress Packet at the end (R46, R48). -/
theorem occupying_commit {s : State} (h : s.RingInv) (hw : s.w ≤ s.cfg.cap - maxSpan)
    (hroom : hdr + s.len.toNat + 1 ≤ room s) :
    (∀ p ∈ occupying s, ∀ j, j < lengthAt s p + 5 → memRead (commit s) (p + j) = memRead s (p + j))
      ∧ occupying (commit s) = occupying s ++ [s.w] ∧ walkEnd (commit s) (commit s).npk (commit s).old = (commit s).w := by
  have hin := h.room_le hw
  have hcap := cap_ge s.cfg
  simp only [hdr, maxSpan] at *
  have hbytes : ∀ p ∈ occupying s, ∀ j, j < lengthAt s p + 5 → memRead (commit s) (p + j) = memRead s (p + j) := by
    intro p hp j hj
    have hs := (packetSound_iff _ _).1 (h.sound hp)
    have hap := h.roomApart p hp
    simp only [maxSpan, maxLen, spanEnd] at *
    apply memRead_commit_other (by omega) (by omega) (by omega)
    intro hwrap
    simp only [maxSpan] at hwrap
    omega
  have hwalk := walk_congr (s := s) (t := commit s) (by simp) s.npk s.old
    fun q hq => (packet_congr (hbytes q hq)).1
  have hhead := memRead_commit_header (s := s) (by omega)
  refine ⟨hbytes, ?_, ?_⟩
  · simp only [occupying, commit_npk, commit_old]
    rw [walk_succ, hwalk.1, hwalk.2, h.walkEnd_eq]
  · simp only [commit_npk, commit_old]
    rw [walkEnd_succ, hwalk.2, h.walkEnd_eq]
    simp [advance, hhead.2.2.2.1]

/-- Committing keeps the ring (R37, R44, R48). -/
theorem State.RingInv.commit {s : State} (h : s.RingInv) (hr : s.RegisterInv)
    (hroom : hdr + s.len.toNat + 1 ≤ room s) : (commit s).RingInv := by
  have hw := hr.writeIndexPlaced
  have hin := h.room_le hw
  have hold := h.old_le hw
  have hcap := cap_ge s.cfg
  obtain ⟨hbytes, hocc, hend⟩ := occupying_commit h hw hroom
  have hq : s.w + s.len.toNat + 5 ≤ s.cfg.cap := by simp only [hdr] at hroom; omega
  obtain ⟨hsrc, hfl, hcur, hlen, htr⟩ := memRead_commit_header (s := s) hq
  have hspan : ∀ p ∈ occupying s, spanEnd (Machine.commit s) p = spanEnd s p := by
    intro p hp; simp only [spanEnd, (packet_congr (hbytes p hp)).1]
  have hspanw : spanEnd (Machine.commit s) s.w = s.w + s.len.toNat + 5 := by simp only [spanEnd, hlen]
  have hsound : ∀ p ∈ occupying (Machine.commit s), packetSound (Machine.commit s) p = true := by
    intro p hp
    rw [hocc, List.mem_append, List.mem_singleton] at hp
    rw [packetSound_iff]
    rcases hp with hp | rfl
    · obtain ⟨e1, e2, e3, e4, e5⟩ := packet_congr (hbytes p hp)
      rw [commit_cfg, e1, e2, e4, e5]
      exact (packetSound_iff _ _).1 (h.sound hp)
    · rw [commit_cfg, hlen, hcur, hsrc, htr]
      exact ⟨hw, hr.lenAtMost, by simp, hr.sourceTagLegal, rfl⟩
  have hapart : (occupying (Machine.commit s)).Pairwise
      (fun p q => spanEnd (Machine.commit s) p ≤ q ∨ spanEnd (Machine.commit s) q ≤ p) := by
    rw [hocc, List.pairwise_append]
    refine ⟨?_, List.pairwise_singleton _ _, ?_⟩
    · refine h.spansApart.imp_of_mem ?_
      intro p q hp hq hpq
      rw [hspan p hp, hspan q hq]; exact hpq
    · intro p hp q hq'
      rw [List.mem_singleton] at hq'
      subst hq'
      rw [hspan p hp, hspanw]
      have := h.roomApart p hp
      simp only [hdr] at hroom
      omega
  refine ⟨?_, ?_, ?_, ?_, hapart, ?_, ?_, ?_⟩
  · intro h0; simp at h0
  · intro h0; simp at h0
  · have := length_le_npkMax hapart fun p hp => ((packetSound_iff _ _).1 (hsound p hp)).1
    simpa [occupying] using this
  · rw [walkSound_iff]; exact ⟨hsound, hend⟩
  · -- the new room holds no occupying Packet
    intro p hp
    have hpos : (Machine.commit s).npk ≠ 0 := by simp
    rcases nextPosition_cases s.cfg (s.w + s.len.toNat + 5) with ⟨hz, hwrap⟩ | ⟨hnw, hfit⟩
    · -- early wrap: everything lies at or above `OLD`
      have hge : s.old ≤ p := by
        rw [hocc, List.mem_append, List.mem_singleton] at hp
        rcases Nat.eq_zero_or_pos s.npk with h0 | hnpk
        · have := h.emptyAtWrite h0
          rcases hp with hp | rfl
          · simp [occupying, h0, walk] at hp
          · omega
        · have hcases := room_cases s
          rcases hp with hp | rfl
          · have hbet := fun hlt => (h.between hw hlt p hp).1
            simp only [hdr, maxSpan] at *
            omega
          · simp only [hdr, maxSpan] at *
            omega
      have hcases := room_cases (Machine.commit s)
      simp only [commit_npk, commit_old, commit_w, hz, commit_cfg] at *
      omega
    · have hle : p ∈ occupying s → spanEnd s p ≤ s.w ∨ s.w + room s ≤ p := h.roomApart p
      rw [hocc, List.mem_append, List.mem_singleton] at hp
      have hpe : (p ∈ occupying s ∧ spanEnd (Machine.commit s) p = spanEnd s p) ∨
          (p = s.w ∧ spanEnd (Machine.commit s) p = s.w + s.len.toNat + 5) := by
        rcases hp with hp | rfl
        · exact .inl ⟨hp, hspan p hp⟩
        · exact .inr ⟨rfl, hspanw⟩
      have hsnd : p ∈ occupying s → p ≤ s.cfg.cap - maxSpan := fun hp => ((packetSound_iff _ _).1 (h.sound hp)).1
      have hempty := h.emptyAtWrite
      have hno : s.npk = 0 → p ∉ occupying s := by intro h0; simp [occupying, h0, walk]
      have hcases := room_cases s
      have hcases' := room_cases (Machine.commit s)
      simp only [commit_npk, commit_old, commit_w, hnw, commit_cfg] at *
      simp only [hdr, maxSpan] at *
      rcases hpe with ⟨hp', e⟩ | ⟨rfl, e⟩
      · have h1 := hle hp'
        have h2 := hsnd hp'
        have h3 : s.npk ≠ 0 := fun h0 => hno h0 hp'
        omega
      · omega
  · rw [hocc, commit_lock, List.drop_append_of_le_length (by
      cases hl : s.lock with
      | false => simp
      | true => simpa [occupying] using hr.lockHoldsPacket hl)]
    intro p hp
    rw [List.mem_append, List.mem_singleton] at hp
    rcases hp with hp | rfl
    · rw [(packet_congr (hbytes p (List.mem_of_mem_drop hp))).2.1]; exact h.cursorsUnread p hp
    · exact hcur
  · rw [hocc]
    intro p hp
    rw [List.mem_append, List.mem_singleton] at hp
    rcases hp with hp | rfl
    · rw [(packet_congr (hbytes p hp)).2.2.1]; exact h.headerFlags p hp
    · rw [hfl]; exact hr.pflBits

/-! ### Freeing the oldest Packet -/

theorem occupying_cons {s : State} (h : 0 < s.npk) : occupying s = s.old :: walk s (s.npk - 1) (advance s s.old) := by
  obtain ⟨k, hk⟩ : ∃ k, s.npk = k + 1 := ⟨s.npk - 1, by omega⟩
  simp [occupying, hk, walk]

/-- Freeing a span touches no byte, so the remaining Packets are the rest of the walk (R50). -/
theorem occupying_freeOldest {s : State} (h : 0 < s.npk) : occupying (freeOldest s) = (occupying s).tail := by
  rw [occupying_cons h, List.tail_cons]
  exact (walk_congr (s := s) (t := freeOldest s) rfl (s.npk - 1) (advance s s.old)
    fun q _ => by simp [lengthAt, memRead_congr (s := s) (t := freeOldest s) rfl rfl rfl]).1

/-- Freeing the oldest span never lessens the room of the in-progress Packet, and every remaining Packet stays out of it
(R45, R50). -/
theorem State.RingInv.room_freeOldest {s : State} (h : s.RingInv) (hw : s.w ≤ s.cfg.cap - maxSpan) (hn : 0 < s.npk) :
    room s ≤ room (freeOldest s) ∧
      ∀ p ∈ walk s (s.npk - 1) (advance s s.old), spanEnd s p ≤ s.w ∨ s.w + room (freeOldest s) ≤ p := by
  have hcap := cap_ge s.cfg
  have hocc := occupying_cons hn
  have hs : ∀ p ∈ occupying s, p ≤ s.cfg.cap - maxSpan := fun p hp => ((packetSound_iff _ _).1 (h.sound hp)).1
  have hap := h.spansApart
  have hra := h.roomApart
  rw [hocc] at hap hs hra
  have hold := hs _ (List.mem_cons_self ..)
  have hro := hra _ (List.mem_cons_self ..)
  have hpair := (List.pairwise_cons.1 hap).1
  rcases Nat.lt_or_ge 1 s.npk with hmany | hone
  · -- a next Packet stands at the new `OLD`
    have hhead : advance s s.old ∈ walk s (s.npk - 1) (advance s s.old) := by
      obtain ⟨k, hk⟩ : ∃ k, s.npk - 1 = k + 1 := ⟨s.npk - 2, by omega⟩
      simp [hk, walk]
    have hadv : advance s s.old = nextPosition s.cfg (spanEnd s s.old) := rfl
    have hc := nextPosition_cases s.cfg (spanEnd s s.old)
    rw [← hadv] at hc
    have h1 := hra _ (List.mem_cons_of_mem _ hhead)
    have h2 := hpair _ hhead
    have hroom := room_cases s
    have hfree := room_cases (freeOldest s)
    simp only [freeOldest_npk, freeOldest_old, freeOldest_w, freeOldest_cfg] at hfree
    have hlast : spanEnd s s.old = s.old + lengthAt s s.old + 5 := rfl
    have hnext : spanEnd s (advance s s.old) = advance s s.old + lengthAt s (advance s s.old) + 5 := rfl
    simp only [maxSpan] at *
    refine ⟨by omega, ?_⟩
    intro p hp
    have h3 := hra p (List.mem_cons_of_mem _ hp)
    have h4 := hpair p hp
    have h5 := hs p (List.mem_cons_of_mem _ hp)
    have hpe : spanEnd s p = p + lengthAt s p + 5 := rfl
    omega
  · -- the store becomes empty
    have h1 : s.npk = 1 := by omega
    refine ⟨?_, by simp [h1, walk]⟩
    have hr : room (freeOldest s) = s.cfg.cap - s.w := by unfold room; simp [h1]
    rw [hr]
    have := h.room_le hw
    omega

/-- Freeing the oldest Packet, with the dispatch over, keeps the ring (R84, R85). -/
theorem State.RingInv.freeOldest {s : State} (h : s.RingInv) (hw : s.w ≤ s.cfg.cap - maxSpan) (hn : 0 < s.npk) :
    (setLock false (Machine.freeOldest s)).RingInv := by
  obtain ⟨hmono, hout⟩ := h.room_freeOldest hw hn
  have hocc := occupying_cons hn
  have hread : ∀ a, memRead (setLock false (Machine.freeOldest s)) a = memRead s a :=
    memRead_congr rfl rfl rfl
  have hwalk := walk_congr (s := s) (t := (setLock false (Machine.freeOldest s))) rfl (s.npk - 1) (advance s s.old)
    fun q _ => by simp only [lengthAt, hread]
  have hocc' : occupying (setLock false (Machine.freeOldest s)) = walk s (s.npk - 1) (advance s s.old) := hwalk.1
  have hend := h.walkEnd_eq
  obtain ⟨k, hk⟩ : ∃ k, s.npk = k + 1 := ⟨s.npk - 1, by omega⟩
  have hend' : walkEnd s (s.npk - 1) (advance s s.old) = s.w := by rw [hk] at hend ⊢; exact hend
  have hspan : ∀ p, spanEnd (setLock false (Machine.freeOldest s)) p = spanEnd s p := by
    intro p; simp only [spanEnd, lengthAt, hread]
  have hroom : room (setLock false (Machine.freeOldest s)) = room (Machine.freeOldest s) := rfl
  have hin : ∀ p ∈ walk s (s.npk - 1) (advance s s.old), p ∈ occupying s := by
    intro p hp; rw [hocc]; exact List.mem_cons_of_mem _ hp
  refine ⟨?_, ?_, ?_, ?_, ?_, ?_, ?_, ?_⟩
  · intro h0
    have h0' : s.npk - 1 = 0 := h0
    rw [h0'] at hend'
    exact hend'
  · intro h0
    rw [hroom]
    have := h.dataPlaced h0
    exact Nat.le_trans this hmono
  · have := h.countAtMost
    simp only [setLock_npk, setLock_cfg, freeOldest_npk, freeOldest_cfg]; omega
  · rw [walkSound_iff]
    refine ⟨fun q hq => ?_, hwalk.2.trans hend'⟩
    have hq' : q ∈ occupying s := hin q (by rw [← hocc']; exact hq)
    have := (packetSound_iff _ _).1 (h.sound hq')
    rw [packetSound_iff]
    simpa only [lengthAt, cursorAt, sourceAt, trailerAt, hread, setLock_cfg, freeOldest_cfg] using this
  · rw [hocc']
    have := h.spansApart
    rw [hocc] at this
    refine (List.pairwise_cons.1 this).2.imp ?_
    intro p q hpq; rw [hspan, hspan]; exact hpq
  · rw [hocc']
    intro p hp
    rw [hspan]; exact hout p hp
  · intro p hp
    have hp' : p ∈ walk s (s.npk - 1) (advance s s.old) := by rw [← hocc']; simpa using hp
    have hd : p ∈ (occupying s).drop s.lock.toNat := by
      rw [hocc]
      cases s.lock with
      | false => simpa using .inr hp'
      | true => simpa using hp'
    have := h.cursorsUnread p hd
    simpa only [cursorAt, hread] using this
  · intro p hp
    have := h.headerFlags p (hin p (by rw [← hocc']; exact hp))
    simpa only [flagsAt, hread] using this

/-! ### Holding the oldest Packet -/

/-- Taking the oldest Packet for a dispatch keeps the ring (R83). -/
theorem State.RingInv.hold {s : State} (h : s.RingInv) : (setLock true s).RingInv :=
  h.of_same rfl rfl rfl rfl (fun _ => rfl) (fun _ _ _ _ => memRead_congr rfl rfl rfl _) h.dataPlaced

/-- Writing a legal cursor into the held Packet keeps the ring (R89). -/
theorem State.RingInv.writeCursor {s : State} (h : s.RingInv) (hn : 0 < s.npk) (hl : s.lock = true) {v : Byte}
    (hv : v.toNat ≤ lengthAt s s.old) : (memWrite (s.old + 2) v s).RingInv := by
  have hcap := cap_ge s.cfg
  have hocc := occupying_cons hn
  have hsold := (packetSound_iff _ _).1 (h.sound (old_mem_occupying hn))
  simp only [maxSpan, maxLen] at hsold
  -- every byte but the cursor of the held Packet reads as before
  have hread : ∀ a, a < s.cfg.cap → a ≠ s.old + 2 → memRead (memWrite (s.old + 2) v s) a = memRead s a := by
    intro a ha hne
    apply memRead_memWrite_other
    rw [maskIndex_of_lt ha, maskIndex_of_lt (by omega)]; exact hne
  have hbounds : ∀ p ∈ occupying s, p ≤ s.cfg.cap - 257 ∧ lengthAt s p ≤ 252 := fun p hp =>
    ⟨((packetSound_iff _ _).1 (h.sound hp)).1, ((packetSound_iff _ _).1 (h.sound hp)).2.1⟩
  have hapart : ∀ p ∈ walk s (s.npk - 1) (advance s s.old), spanEnd s s.old ≤ p ∨ spanEnd s p ≤ s.old := by
    have := h.spansApart
    rw [hocc] at this
    exact (List.pairwise_cons.1 this).1
  -- so every byte of every other Packet reads as before, and of the held one every byte but the cursor
  have hother : ∀ p ∈ walk s (s.npk - 1) (advance s s.old), ∀ j, j < lengthAt s p + 5 →
      memRead (memWrite (s.old + 2) v s) (p + j) = memRead s (p + j) := by
    intro p hp j hj
    have := hbounds p (by rw [hocc]; exact List.mem_cons_of_mem _ hp)
    have := hapart p hp
    simp only [spanEnd] at this
    exact hread _ (by omega) (by omega)
  have hheld : ∀ j, j < lengthAt s s.old + 5 → j ≠ 2 →
      memRead (memWrite (s.old + 2) v s) (s.old + j) = memRead s (s.old + j) := fun j hj hne =>
    hread _ (by omega) (by omega)
  have hlenold : lengthAt (memWrite (s.old + 2) v s) s.old = lengthAt s s.old := by
    simp only [lengthAt, hheld 3 (by omega) (by omega)]
  have hlen : ∀ p ∈ occupying s, lengthAt (memWrite (s.old + 2) v s) p = lengthAt s p := by
    intro p hp
    rw [hocc] at hp
    rcases List.mem_cons.1 hp with rfl | hp
    · exact hlenold
    · exact (packet_congr (hother p hp)).1
  have hwalk := walk_congr (s := s) (t := memWrite (s.old + 2) v s) rfl s.npk s.old hlen
  have hocc' : occupying (memWrite (s.old + 2) v s) = occupying s := hwalk.1
  have hspan : ∀ p ∈ occupying s, spanEnd (memWrite (s.old + 2) v s) p = spanEnd s p := by
    intro p hp; simp only [spanEnd, hlen p hp]
  refine ⟨h.emptyAtWrite, h.dataPlaced, h.countAtMost, ?_, ?_, ?_, ?_, ?_⟩
  · rw [walkSound_iff]
    refine ⟨fun q hq => ?_, hwalk.2.trans h.walkEnd_eq⟩
    have hq' : q ∈ occupying s := by rw [← hocc']; exact hq
    have hs := (packetSound_iff _ _).1 (h.sound hq')
    rw [packetSound_iff, memWrite_cfg, hlen q hq']
    rw [hocc] at hq'
    rcases List.mem_cons.1 hq' with rfl | hq'
    · have e1 : sourceAt (memWrite (s.old + 2) v s) s.old = sourceAt s s.old := hheld 0 (by omega) (by omega)
      have e2 : trailerAt (memWrite (s.old + 2) v s) s.old = trailerAt s s.old := by
        have := hheld (4 + lengthAt s s.old) (by omega) (by omega)
        simpa [trailerAt, hlenold, Nat.add_assoc] using this
      have e3 : cursorAt (memWrite (s.old + 2) v s) s.old = v := memRead_memWrite_same _ _ _
      rw [e1, e2, e3]
      exact ⟨hs.1, hs.2.1, hv, hs.2.2.2⟩
    · obtain ⟨-, e2, -, e4, e5⟩ := packet_congr (hother q hq')
      rw [e2, e4, e5]; exact hs
  · rw [hocc']
    refine h.spansApart.imp_of_mem ?_
    intro p q hp hq hpq
    rw [hspan p hp, hspan q hq]; exact hpq
  · rw [hocc']
    intro p hp; rw [hspan p hp]; exact h.roomApart p hp
  · rw [hocc', memWrite_lock, hl, hocc]
    intro p hp
    have hp' : p ∈ walk s (s.npk - 1) (advance s s.old) := by simpa using hp
    rw [(packet_congr (hother p hp')).2.1]
    refine h.cursorsUnread p ?_
    rw [hocc, hl]; simpa using hp'
  · rw [hocc']
    intro p hp
    have hflags := h.headerFlags p hp
    rw [hocc] at hp
    rcases List.mem_cons.1 hp with rfl | hp
    · have : flagsAt (memWrite (s.old + 2) v s) s.old = flagsAt s s.old := hheld 1 (by omega) (by omega)
      rw [this]; exact hflags
    · rw [(packet_congr (hother p hp)).2.2.1]; exact hflags

end Sys2Proof.Machine
end

