-- ==== Sys2Proof/Laws/Invariant.lean ====
section
/-! SUPPORT. Every shared operation keeps the invariants of the block (R37). -/

namespace Sys2Proof.Machine

/-- The invariants do not look at the modes, `LOST`, the streams, the responses or the inputs, and take any legal flags, escape
state, source tag and halt code. -/
theorem State.Inv.of_same {s t : State} (h : s.Inv) (hc : t.cfg = s.cfg) (hw : t.w = s.w) (ho : t.old = s.old)
    (hl : t.len = s.len) (hn : t.npk = s.npk) (hk : t.lock = s.lock) (hm : t.mem = s.mem) (hd : t.draws = s.draws)
    (hp : t.pfl &&& 0xC0#8 = 0x00#8) (hs : t.src.toNat < srcLimit) (hh : t.halt = false ↔ t.diag = 0x00#8)
    (hg : t.diag.toNat ≤ 5) : t.Inv where
  registers :=
    ⟨by rw [hl]; exact h.registers.lenAtMost, by rw [hw, hc]; exact h.registers.writeIndexPlaced,
      by rw [hk, hn]; exact h.registers.lockHoldsPacket, hp, hh, hg, hs⟩
  memory := ⟨by rw [hm]; exact h.memory.canonical, by rw [hm, hc]; exact h.memory.inside⟩
  ring := h.ring.of_same hc hw ho hn (fun e => by rw [hk]; exact e) (fun _ _ _ _ => memRead_congr hc hm hd _)
    (by rw [hl]; exact h.ring.dataPlaced)

theorem State.Inv.setEscp {s : State} (h : s.Inv) (b : Bool) : (setEscp b s).Inv :=
  h.of_same rfl rfl rfl rfl rfl rfl rfl rfl h.registers.pflBits h.registers.sourceTagLegal h.registers.haltIffCode
    h.registers.codeKnown

theorem State.Inv.setLost {s : State} (h : s.Inv) (b : Bool) : (setLost b s).Inv :=
  h.of_same rfl rfl rfl rfl rfl rfl rfl rfl h.registers.pflBits h.registers.sourceTagLegal h.registers.haltIffCode
    h.registers.codeKnown

theorem State.Inv.setModes {s : State} (h : s.Inv) (i o : Mode) : (setModes i o s).Inv :=
  h.of_same rfl rfl rfl rfl rfl rfl rfl rfl h.registers.pflBits h.registers.sourceTagLegal h.registers.haltIffCode
    h.registers.codeKnown

theorem State.Inv.setSrc {s : State} (h : s.Inv) {v : Byte} (hv : v.toNat < srcLimit) : (setSrc v s).Inv :=
  h.of_same rfl rfl rfl rfl rfl rfl rfl rfl h.registers.pflBits hv h.registers.haltIffCode h.registers.codeKnown

theorem State.Inv.emitTx {s : State} (h : s.Inv) (bs : List Byte) : (emitTx bs s).Inv :=
  h.of_same rfl rfl rfl rfl rfl rfl rfl rfl h.registers.pflBits h.registers.sourceTagLegal h.registers.haltIffCode
    h.registers.codeKnown

theorem State.Inv.emitConsumer {s : State} (h : s.Inv) (bs : List Byte) : (emitConsumer bs s).Inv :=
  h.of_same rfl rfl rfl rfl rfl rfl rfl rfl h.registers.pflBits h.registers.sourceTagLegal h.registers.haltIffCode
    h.registers.codeKnown

theorem State.Inv.setResponse {s : State} (h : s.Inv) (p : Port) (r : Response) : (setResponse p r s).Inv :=
  h.of_same (by simp) (by simp) (by simp) (by simp) (by simp) (by simp) (by simp) (by simp)
    (by simpa using h.registers.pflBits) (by simpa using h.registers.sourceTagLegal)
    (by simpa using h.registers.haltIffCode) (by simpa using h.registers.codeKnown)

theorem State.Inv.fatal {s : State} (h : s.Inv) (p : Port) {c : Byte} (hc : c ≠ 0x00#8) (hle : c.toNat ≤ 5) :
    (fatal p c s).Inv :=
  h.of_same (by simp) (by simp) (by simp) (by simp) (by simp) (by simp) (by simp) (by simp)
    (by simpa using h.registers.pflBits) (by simpa using h.registers.sourceTagLegal) (by simpa using hc) (by simpa using hle)

/-- Flags below bit 6 may be accumulated (R30). -/
theorem State.Inv.orFlags {s : State} (h : s.Inv) {f : Byte} (hf : f &&& 0xC0#8 = 0x00#8) : (orFlags f s).Inv := by
  refine h.of_same rfl rfl rfl rfl rfl rfl rfl rfl ?_ h.registers.sourceTagLegal h.registers.haltIffCode h.registers.codeKnown
  have e : (s.pfl ||| f) &&& 0xC0#8 = (s.pfl &&& 0xC0#8) ||| (f &&& 0xC0#8) := by
    ext i hi; simp only [BitVec.getElem_and, BitVec.getElem_or]; cases s.pfl[i] <;> cases f[i] <;> simp
  rw [orFlags_pfl, e, h.registers.pflBits, hf]; rfl

theorem State.Inv.foldErrors {s : State} (h : s.Inv) (e : BitVec 4) : (foldErrors e s).Inv := by
  have hall : ∀ e : BitVec 4, e.setWidth 8 &&& 0xC0#8 = 0x00#8 := by decide
  exact h.orFlags (hall e)

theorem State.Inv.doForceSync {s : State} (h : s.Inv) : (doForceSync s).Inv where
  registers := ⟨by simp, h.registers.writeIndexPlaced, h.registers.lockHoldsPacket, by simp, h.registers.haltIffCode,
    h.registers.codeKnown, h.registers.sourceTagLegal⟩
  memory := ⟨h.memory.canonical, h.memory.inside⟩
  ring := h.ring.of_same rfl rfl rfl rfl id (fun _ _ _ _ => memRead_congr rfl rfl rfl _) (by simp)

theorem State.Inv.losePacket {s : State} (h : s.Inv) : (losePacket s).Inv where
  registers := ⟨by simp, h.registers.writeIndexPlaced, h.registers.lockHoldsPacket, by simp, h.registers.haltIffCode,
    h.registers.codeKnown, h.registers.sourceTagLegal⟩
  memory := ⟨h.memory.canonical, h.memory.inside⟩
  ring := h.ring.of_same rfl rfl rfl rfl id (fun _ _ _ _ => memRead_congr rfl rfl rfl _) (by simp)

theorem State.Inv.endEscape {s : State} (h : s.Inv) : (endEscape s).Inv := by
  rcases endEscape_cases s with ⟨-, e⟩ | ⟨-, e⟩ <;> rw [e]
  · exact h
  · exact (h.orFlags (by decide)).setEscp false

theorem State.Inv.appendByte {s : State} (h : s.Inv) (b : Byte) : (appendByte b s).Inv := by
  have hring := h.ring.appendByte h.registers.writeIndexPlaced b
  rcases appendByte_cases b s with ⟨hl, -, e⟩ | ⟨-, e⟩
  · rw [e] at hring ⊢
    refine ⟨⟨?_, h.registers.writeIndexPlaced, h.registers.lockHoldsPacket, h.registers.pflBits, h.registers.haltIffCode,
      h.registers.codeKnown, h.registers.sourceTagLegal⟩, ?_, hring⟩
    · simp only [len_add_one hl, maxLen] at *; omega
    · exact ⟨(memWrite_keeps_memoryInv _ _ h.memory).canonical, (memWrite_keeps_memoryInv _ _ h.memory).inside⟩
  · rw [e]; exact h.orFlags (by decide)

theorem State.Inv.commit {s : State} (h : s.Inv) (hroom : hdr + s.len.toNat + 1 ≤ room s) : (commit s).Inv where
  registers := by
    refine ⟨by simp, ?_, ?_, by simp, ?_, ?_, ?_⟩
    · simpa using nextPosition_le _ _
    · intro _; simp
    · simpa using h.registers.haltIffCode
    · simpa using h.registers.codeKnown
    · simpa using h.registers.sourceTagLegal
  memory := by
    have := writeBytes_keeps_memoryInv (commitWrites s) h.memory
    exact ⟨by simpa using this.canonical, by simpa using this.inside⟩
  ring := h.ring.commit h.registers hroom

theorem State.Inv.doFinish {s : State} (h : s.Inv) : (doFinish s).Inv := by
  have hr : room (Machine.endEscape s) = room s := room_congr (by simp) (by simp) (by simp) (by simp)
  rcases doFinish_cases s with ⟨hroom, e⟩ | ⟨-, e⟩ <;> rw [e]
  · exact h.endEscape.commit (by simpa [hr] using hroom)
  · exact h.endEscape.losePacket

theorem State.Inv.decodeStep {s : State} (h : s.Inv) (b : Byte) (d : Bool) : (decodeStep b d s).Inv :=
  decodeStep_keeps (P := State.Inv) b d h (fun _ hu => hu.setEscp false) (fun _ hu => hu.orFlags (by decide))
    (fun _ hu => hu.doFinish) (fun _ hu => hu.setEscp true) (fun c _ hu => hu.appendByte c)

/-- The end of a dispatch, or a copy-out, frees the oldest Packet (R84, R85). -/
theorem State.Inv.freeOldest {s : State} (h : s.Inv) (hn : 0 < s.npk) : (setLock false (freeOldest s)).Inv where
  registers := ⟨h.registers.lenAtMost, h.registers.writeIndexPlaced, by simp, h.registers.pflBits, h.registers.haltIffCode,
    h.registers.codeKnown, h.registers.sourceTagLegal⟩
  memory := ⟨h.memory.canonical, h.memory.inside⟩
  ring := h.ring.freeOldest h.registers.writeIndexPlaced hn

/-- The start of a dispatch holds the oldest Packet (R83). -/
theorem State.Inv.hold {s : State} (h : s.Inv) (hn : 0 < s.npk) : (setLock true s).Inv where
  registers := ⟨h.registers.lenAtMost, h.registers.writeIndexPlaced, fun _ => hn, h.registers.pflBits,
    h.registers.haltIffCode, h.registers.codeKnown, h.registers.sourceTagLegal⟩
  memory := ⟨h.memory.canonical, h.memory.inside⟩
  ring := h.ring.hold

/-- A legal cursor written into the held Packet (R89). -/
theorem State.Inv.writeCursor {s : State} (h : s.Inv) (hl : s.lock = true) {v : Byte} (hv : v.toNat ≤ lengthAt s s.old) :
    (memWrite (s.old + 2) v s).Inv where
  registers := ⟨h.registers.lenAtMost, h.registers.writeIndexPlaced, h.registers.lockHoldsPacket, h.registers.pflBits,
    h.registers.haltIffCode, h.registers.codeKnown, h.registers.sourceTagLegal⟩
  memory := memWrite_keeps_memoryInv _ _ h.memory
  ring := h.ring.writeCursor (h.registers.lockHoldsPacket hl) hl hv

end Sys2Proof.Machine
end

