-- ==== Sys2Proof/Laws/Exec.lean ====
section
/-! SUPPORT. What a command can do, said once: it is ignored, it halts the block, or it answers and has its own effect. Every frame
and every invariant goes through `exec_cases`. -/

namespace Sys2Proof.Machine

/-- The change of state of a command that runs to its end, its response apart (R65 to R95). -/
def effect (i : Instr) (s : State) : State :=
  match i with
  | .rxByte b e => receiveByte b (foldErrors e s)
  | .storeRaw b => appendByte b s
  | .storeData b => decodeStep b false s
  | .finish => doFinish s
  | .forceSync => doForceSync s
  | .setMode v => writeModes v s
  | .setSource v => setSrc v s
  | .dispatchBegin => if s.npk = 0 then s else setLock true s
  | .dispatchEnd => setLock false (freeOldest s)
  | .copyOut => if s.npk = 0 then s else freeOldest (emitConsumer (packetBytes s s.old) s)
  | .wrCursor v => memWrite (s.old + 2) v s
  | .clearLost => setLost false s
  | .txByte b => emitTx (encodeTx s.outMode b) s
  | .txEnd => emitTx (endTx s.outMode) s
  | .nop _ | .canAccept | .isFull | .count | .isEmpty | .rd _ | .status | .check => s

/-- The code a command halts a running block with in state `s`, if it does (R98, R100). -/
def haltCode (i : Instr) (s : State) : Option Byte :=
  match i with
  | .setMode v => if modeByteLegal v then none else some badArgumentCode
  | .setSource v => if sourceLegal v then none else some badArgumentCode
  | .dispatchBegin => if s.lock then some recursiveDispatchCode else none
  | .dispatchEnd => if s.lock then none else some notDispatchingCode
  | .copyOut => if s.lock then some recursiveDispatchCode else none
  | .wrCursor v =>
    if s.lock then if lengthAt s s.old < v.toNat then some badArgumentCode else none else some notDispatchingCode
  | .check => if checkPasses s then none else some invalidPacketCode
  | .nop _ | .rxByte _ _ | .storeRaw _ | .storeData _ | .finish | .forceSync | .canAccept | .isFull | .count
  | .isEmpty | .rd _ | .status | .clearLost | .txByte _ | .txEnd => none

/-- What a command that runs to its end answers (R56). -/
def answerValue (i : Instr) (s : State) : Word :=
  match i with
  | .canAccept => boolWord (canAcceptByte s)
  | .isFull => boolWord (bufferFull s)
  | .count => BitVec.ofNat 32 (removable s)
  | .isEmpty => boolWord (removable s == 0)
  | .dispatchBegin => if s.npk = 0 then 0#32 else packetWord s.old (sourceAt s s.old)
  | .copyOut => if s.npk = 0 then 0#32 else packetWord s.old (memRead s (s.old + 3))
  | .rd a => (memRead s (operandIndex s.cfg a)).setWidth 32
  | .status => statusWord s
  | .check => 1#32
  | .nop _ | .rxByte _ _ | .storeRaw _ | .storeData _ | .finish | .forceSync | .setMode _ | .setSource _
  | .dispatchEnd | .wrCursor _ | .clearLost | .txByte _ | .txEnd => 0#32

/-- The bytes a command that runs to its end emits (R35, R56). -/
def emitted (i : Instr) (s : State) : List Byte :=
  match i with
  | .copyOut => if s.npk = 0 then [] else packetBytes s s.old
  | .txByte b => encodeTx s.outMode b
  | .txEnd => endTx s.outMode
  | .nop _ | .rxByte _ _ | .storeRaw _ | .storeData _ | .finish | .forceSync | .canAccept | .isFull | .setMode _
  | .setSource _ | .count | .isEmpty | .dispatchBegin | .dispatchEnd | .rd _ | .wrCursor _ | .status | .check
  | .clearLost => []

/-- A command while the block is halted (R101). -/
theorem exec_halted {i : Instr} {s : State} (h : s.halt = true) (hi : i ≠ .status) :
    exec i s = .next (setResponse i.port haltedResponse s) := by
  cases i <;> first
    | exact absurd rfl hi
    | exact unlessHalted_halted h

/-- A command that halts a running block (R99). -/
theorem exec_fatal {i : Instr} {s : State} {c : Byte} (h : s.halt = false) (hc : haltCode i s = some c) :
    exec i s = .next (fatal i.port c s) := by
  cases i <;> simp only [haltCode, reduceCtorEq] at hc <;>
    simp only [exec, execSetMode, execSetSource, execDispatchBegin, execDispatchEnd, execCopyOut, execWrCursor, execCheck,
      unlessHalted_running h] <;> revert hc <;> (repeat' split) <;> simp [Instr.port] <;>
    rintro rfl <;> rfl

/-- A command of a running block that does not halt it: the response and the effect. -/
theorem exec_running {i : Instr} {s : State} (h : s.halt = false) (hc : haltCode i s = none) :
    exec i s = .next (respond i.port (answerValue i s) (emitted i s) (effect i s)) := by
  cases i <;> simp only [haltCode] at hc <;>
    first
    | (simp only [exec, execStatus, h]; rfl)
    | exact unlessHalted_running h
    | (simp only [exec, execSetMode, execSetSource, execDispatchBegin, execDispatchEnd, execCopyOut, execWrCursor, execCheck,
        unlessHalted_running h, effect, answerValue, emitted, Instr.port] at hc ⊢
       revert hc
       repeat' split
       all_goals simp_all)

/-- The codes a command can halt with (R98). -/
theorem haltCode_mem {i : Instr} {s : State} {c : Byte} (h : haltCode i s = some c) :
    c = badArgumentCode ∨ c = recursiveDispatchCode ∨ c = notDispatchingCode ∨ c = invalidPacketCode := by
  cases i <;> simp only [haltCode, reduceCtorEq] at h <;> revert h <;> (repeat' split) <;> simp_all

/-- What a command can do. -/
theorem exec_cases (i : Instr) (s : State) :
    (s.halt = true ∧ exec i s = .next (setResponse i.port
        { halted := true, value := if i = .status then statusWord s else 0#32, out := [] } s)) ∨
    (s.halt = false ∧ ∃ c, haltCode i s = some c ∧ exec i s = .next (fatal i.port c s)) ∨
    (s.halt = false ∧ haltCode i s = none ∧
      exec i s = .next (respond i.port (answerValue i s) (emitted i s) (effect i s))) := by
  cases h : s.halt with
  | true =>
    refine .inl ⟨rfl, ?_⟩
    by_cases hi : i = .status
    · subst hi; simp [exec, execStatus, h, Instr.port]
    · simp [exec_halted h hi, hi]
  | false =>
    cases hc : haltCode i s with
    | some c => exact .inr (.inl ⟨rfl, c, rfl, exec_fatal h hc⟩)
    | none => exact .inr (.inr ⟨rfl, rfl, exec_running h hc⟩)

/-- Every command's effect keeps all invariants of the block (R37). -/
theorem State.Inv.effect {s : State} {i : Instr} (h : s.Inv) (hc : haltCode i s = none) : (effect i s).Inv := by
  cases i <;> simp only [Machine.effect, receiveByte, writeModes] <;> try exact h
  case rxByte b e =>
    have := h.foldErrors e
    split
    · exact (this.appendByte _).doFinish
    · exact this.decodeStep _ _
  case storeRaw b => exact h.appendByte _
  case storeData b => exact h.decodeStep _ _
  case finish => exact h.doFinish
  case forceSync => exact h.doForceSync
  case setMode v =>
    split
    · exact h.setModes _ _
    · exact h.doForceSync.setModes _ _
  case setSource v => exact h.setSrc (by simpa [haltCode, sourceLegal] using hc)
  case dispatchBegin =>
    split
    · exact h
    · exact h.hold (by omega)
  case dispatchEnd => exact h.freeOldest (h.registers.lockHoldsPacket (by simpa [haltCode] using hc))
  case copyOut =>
    split
    · exact h
    · have hl : s.lock = false := by simpa [haltCode] using hc
      have := (h.emitConsumer (packetBytes s s.old)).freeOldest (by simp; omega)
      have e : setLock false (Machine.freeOldest (Machine.emitConsumer (packetBytes s s.old) s))
          = Machine.freeOldest (Machine.emitConsumer (packetBytes s s.old) s) := by
        simp [setLock, Machine.freeOldest, Machine.emitConsumer, ← hl]
      rw [e] at this; exact this
  case wrCursor v =>
    simp only [haltCode] at hc
    split at hc
    · split at hc
      · cases hc
      · exact h.writeCursor ‹_› (by omega)
    · cases hc
  case clearLost => exact h.setLost _
  case txByte => exact h.emitTx _
  case txEnd => exact h.emitTx _

/-- Whatever survives a response, a halt and the command's own effect, survives the command. -/
theorem exec_keeps {P : State → Prop} {s t : State} {i : Instr} (h : P s) (response : ∀ u p r, P u → P (setResponse p r u))
    (halting : ∀ u p c, c ≠ 0x00#8 → c.toNat ≤ 5 → P u → P (fatal p c u))
    (running : s.halt = false → haltCode i s = none → P (effect i s)) (e : exec i s = .next t) : P t := by
  have known : ∀ c, haltCode i s = some c → c ≠ 0x00#8 ∧ c.toNat ≤ 5 := by
    intro c hc
    rcases haltCode_mem hc with rfl | rfl | rfl | rfl <;> decide
  rcases exec_cases i s with ⟨-, e'⟩ | ⟨-, c, hc, e'⟩ | ⟨hh, hc, e'⟩ <;> rw [e'] at e <;> cases e
  · exact response _ _ _ h
  · exact halting _ _ _ (known c hc).1 (known c hc).2 h
  · exact response _ _ _ (running hh hc)

/-- Whatever reset gives, and survives taking an input, a response, a halt and every command's effect, survives a step. -/
theorem step_keeps {P : State → Prop} {s t : State} (h : P s) (inputs : ∀ u l, P u → P { u with inputs := l })
    (reset : ∀ u, P (applyReset u)) (response : ∀ u p r, P u → P (setResponse p r u))
    (halting : ∀ u p c, c ≠ 0x00#8 → c.toNat ≤ 5 → P u → P (fatal p c u))
    (running : ∀ i u, P u → u.halt = false → haltCode i u = none → P (effect i u)) (e : step s = .next t) : P t := by
  have command : ∀ (p : Port) (w : Word) (u v : State), P u →
      (match decode p w with | .ok i => exec i u | .error _ => .next (illegalWord p u)) = .next v → P v := by
    intro p w u v hu he
    split at he
    · exact exec_keeps hu response halting (running _ u hu) he
    · cases he
      unfold illegalWord
      split
      · exact response _ _ _ hu
      · exact halting _ _ _ (by decide) (by decide) hu
  unfold step takeInput at e
  split at e <;> rename_i heq <;> split at heq <;> cases heq
  all_goals first
    | exact command _ _ _ _ (inputs _ _ h) e
    | (cases e; first | exact h | exact reset _ | exact inputs _ _ h)

end Sys2Proof.Machine
end

