-- ==== Sys2Proof/Laws/Inputs.lean ====
section
/-! SUPPORT. No command looks at what the agents will present next (R33): its outcome is the same whatever `inputs` is. And what the
producer port does reads no byte of `MEM` at all. -/

namespace Sys2Proof.Machine

/-- `s` with another draw of the unwritten bytes, other inputs and other response records. -/
abbrev State.withOutside (d : Nat) (l : List Event) (r : Responses) (s : State) : State :=
  { s with draws := d, inputs := l, resp := r }

/-- `s` with other inputs. -/
abbrev State.withInputs (l : List Event) (s : State) : State := { s with inputs := l }

theorem withOutside_of_same {d : Nat} {l : List Event} {r : Responses} {s : State} (hd : s.draws = d) (hr : s.resp = r) :
    s.withOutside d l r = s.withInputs l := by
  subst hd hr; rfl

/-- A response is all that `setResponse` changes. -/
theorem setResponse_eq (p : Port) (r : Response) (s : State) : setResponse p r s = { s with resp := (setResponse p r s).resp } := by
  cases p <;> rfl

/-! ### The operations that read no byte of `MEM` depend on none of these -/

theorem writeBytes_withOutside (d : Nat) (l : List Event) (r : Responses) (ws : List (Nat × Byte)) (s : State) :
    writeBytes ws (s.withOutside d l r) = (writeBytes ws s).withOutside d l r := by
  induction ws generalizing s with
  | nil => rfl
  | cons c ws ih => exact ih (memWrite c.1 c.2 s)

theorem appendByte_withOutside (d : Nat) (l : List Event) (r : Responses) (b : Byte) (s : State) :
    appendByte b (s.withOutside d l r) = (appendByte b s).withOutside d l r := by
  unfold appendByte
  rw [apply_ite (State.withOutside d l r)]
  rfl

theorem commit_withOutside (d : Nat) (l : List Event) (r : Responses) (s : State) :
    commit (s.withOutside d l r) = (commit s).withOutside d l r := by
  unfold commit
  rw [show commitWrites (s.withOutside d l r) = commitWrites s from rfl, writeBytes_withOutside]

theorem endEscape_withOutside (d : Nat) (l : List Event) (r : Responses) (s : State) :
    endEscape (s.withOutside d l r) = (endEscape s).withOutside d l r := by
  unfold endEscape
  rw [apply_ite (State.withOutside d l r)]
  rfl

theorem doFinish_withOutside (d : Nat) (l : List Event) (r : Responses) (s : State) :
    doFinish (s.withOutside d l r) = (doFinish s).withOutside d l r := by
  unfold doFinish
  simp only [endEscape_withOutside, commit_withOutside]
  rw [apply_ite (State.withOutside d l r)]
  rfl

theorem decodePlain_withOutside (d : Nat) (l : List Event) (r : Responses) (b : Byte) (e : Bool) (s : State) :
    decodePlain b e (s.withOutside d l r) = (decodePlain b e s).withOutside d l r := by
  unfold decodePlain
  rw [doFinish_withOutside, appendByte_withOutside, apply_ite (State.withOutside d l r), apply_ite (State.withOutside d l r)]
  rfl

theorem decodeStep_withOutside (d : Nat) (l : List Event) (r : Responses) (b : Byte) (e : Bool) (s : State) :
    decodeStep b e (s.withOutside d l r) = (decodeStep b e s).withOutside d l r := by
  have h1 := appendByte_withOutside d l r delim (setEscp false s)
  have h2 := appendByte_withOutside d l r esc (setEscp false s)
  have h3 := decodePlain_withOutside d l r b e (orFlags flagBadEscape (setEscp false s))
  have h4 := decodePlain_withOutside d l r b e s
  unfold decodeStep
  rw [apply_ite (State.withOutside d l r), apply_ite (State.withOutside d l r), apply_ite (State.withOutside d l r),
    ← h1, ← h2, ← h3, ← h4]
  rfl

theorem receiveByte_withOutside (d : Nat) (l : List Event) (r : Responses) (b : Byte) (s : State) :
    receiveByte b (s.withOutside d l r) = (receiveByte b s).withOutside d l r := by
  unfold receiveByte
  cases s.inMode with
  | byte => simp only [appendByte_withOutside, doFinish_withOutside]
  | packet => exact decodeStep_withOutside d l r b true s

/-! ### Commands and the inputs -/

/-- The outcome of a command does not depend on the inputs, and leaves them alone. -/
theorem exec_withInputs (l : List Event) (i : Instr) (s : State) :
    ∃ t, exec i s = .next t ∧ exec i (s.withInputs l) = .next (t.withInputs l) ∧ t.inputs = s.inputs := by
  have hresp : ∀ p r (u : State), setResponse p r (u.withInputs l) = (setResponse p r u).withInputs l := by
    intro p r u; cases p <;> rfl
  have hfatal : ∀ p c (u : State), fatal p c (u.withInputs l) = (fatal p c u).withInputs l := by
    intro p c u; cases p <;> rfl
  have hcode : haltCode i (s.withInputs l) = haltCode i s := by
    cases i <;> try rfl
    simp only [haltCode, checkPasses_congr (s := s) (t := s.withInputs l) rfl rfl rfl rfl rfl rfl rfl rfl]
  have hval : answerValue i (s.withInputs l) = answerValue i s := by cases i <;> rfl
  have hout : emitted i (s.withInputs l) = emitted i s := by cases i <;> rfl
  have heff : effect i (s.withInputs l) = (effect i s).withInputs l := by
    cases i <;> try rfl
    · exact (receiveByte_withOutside s.draws l s.resp _ (foldErrors _ s)).trans
        (withOutside_of_same (by simp [receiveByte]; split <;> simp) (by simp [receiveByte]; split <;> simp))
    · exact (appendByte_withOutside s.draws l s.resp _ s).trans (withOutside_of_same (by simp) (by simp))
    · exact (decodeStep_withOutside s.draws l s.resp _ _ s).trans (withOutside_of_same (by simp) (by simp))
    · exact (doFinish_withOutside s.draws l s.resp s).trans (withOutside_of_same (by simp) (by simp))
    · simp only [effect, writeModes]
      split <;> rfl
    · simp only [effect]
      split <;> rfl
    · simp only [effect]
      split <;> rfl
  have hin : (effect i s).inputs = s.inputs := by
    cases i <;> simp [effect, receiveByte, writeModes] <;> split <;> simp
  rcases exec_cases i s with ⟨h, e⟩ | ⟨h, c, hc, e⟩ | ⟨h, hc, e⟩
  · refine ⟨_, e, ?_, by simp⟩
    rcases exec_cases i (s.withInputs l) with ⟨-, e'⟩ | ⟨h', -⟩ | ⟨h', -⟩
    · rw [e', hresp]; rfl
    · rw [show (s.withInputs l).halt = s.halt from rfl, h] at h'; cases h'
    · rw [show (s.withInputs l).halt = s.halt from rfl, h] at h'; cases h'
  · exact ⟨_, e, by rw [exec_fatal (s := s.withInputs l) h (hcode.trans hc), hfatal], by simp⟩
  · refine ⟨_, e, ?_, by simp [respond, hin]⟩
    rw [exec_running (s := s.withInputs l) h (hcode.trans hc), hval, hout, heff]
    exact congrArg _ (hresp _ _ _)

end Sys2Proof.Machine
end

