-- ==== Sys2Proof/Laws/Written.lean ====
section
/-! SUPPORT. Which bytes of `MEM` have been written since reset (R110): every write only adds, and the bytes a command reads have
been written. -/

namespace Sys2Proof.Machine

/-- The byte at index `a` has been written since reset. -/
def writtenAt (s : State) (a : Nat) : Prop := (Memory.lookup s.mem a).isSome = true

theorem writtenAt_congr {s t : State} (h : t.mem = s.mem) (a : Nat) : writtenAt t a ↔ writtenAt s a := by
  simp [writtenAt, h]

theorem writtenAt_memWrite (s : State) (a b : Nat) (v : Byte) :
    writtenAt (memWrite a v s) b ↔ b = maskIndex s.cfg a ∨ writtenAt s b := by
  simp only [writtenAt, memWrite, lookup_store]
  split <;> simp_all

theorem writtenAt_writeBytes (ws : List (Nat × Byte)) (s : State) (b : Nat) :
    writtenAt (writeBytes ws s) b ↔ (∃ c ∈ ws, b = maskIndex s.cfg c.1) ∨ writtenAt s b := by
  induction ws generalizing s with
  | nil => simp [writeBytes]
  | cons c ws ih =>
    rw [writeBytes, ih, writtenAt_memWrite]
    simp only [memWrite_cfg, List.mem_cons, exists_eq_or_imp]
    rw [or_left_comm, or_assoc]

/-- A written byte reads the same whatever the unwritten bytes hold. -/
theorem memRead_of_written {s t : State} {a : Nat} (hc : t.cfg = s.cfg) (hm : t.mem = s.mem)
    (h : writtenAt s (maskIndex s.cfg a)) : memRead t a = memRead s a := by
  unfold memRead
  rw [hc, hm]
  obtain ⟨v, hv⟩ := Option.isSome_iff_exists.1 h
  rw [hv]

/-- A walk over written Packets tests the same whatever the unwritten bytes hold. -/
theorem walkSound_of_written {s t : State} (hc : t.cfg = s.cfg) (hm : t.mem = s.mem) (hw : t.w = s.w) (k p : Nat)
    (hs : ∀ q ∈ walk s k p, packetSound s q = true)
    (h : ∀ q ∈ walk s k p, ∀ j, j < lengthAt s q + 5 → writtenAt s (q + j)) : walkSound t k p = walkSound s k p := by
  induction k generalizing p with
  | zero => simp [walkSound, hw]
  | succ k ih =>
    have hcap := cap_ge s.cfg
    have hp := (packetSound_iff _ _).1 (hs p (by simp [walk]))
    have hb : ∀ j, j < lengthAt s p + 5 → memRead t (p + j) = memRead s (p + j) := by
      intro j hj
      refine memRead_of_written hc hm ?_
      rw [maskIndex_of_lt (by simp only [maxSpan, maxLen] at *; omega)]
      exact h p (by simp [walk]) j hj
    obtain ⟨e1, e2, e3, e4, e5⟩ := packet_congr hb
    have hsound : packetSound t p = packetSound s p := by simp [packetSound, validHeader, hc, e1, e2, e4, e5]
    have ha : advance t p = advance s p := by simp [advance, hc, e1]
    rw [walkSound, walkSound, hsound, ha,
      ih _ (fun q hq => hs q (by simp [walk, hq])) (fun q hq => h q (by simp [walk, hq]))]

/-- The bytes read stay written, if no written byte is forgotten, the Packets are the same and the in-progress Packet's data
stay or go. -/
theorem State.WrittenInv.of_same {s t : State} (h : s.WrittenInv) (hocc : occupying t = occupying s)
    (hlen : ∀ p ∈ occupying s, lengthAt t p = lengthAt s p) (hmem : ∀ a, writtenAt s a → writtenAt t a)
    (hdata : ∀ j, j < t.len.toNat → writtenAt t (t.w + 4 + j)) : t.WrittenInv where
  packets := by
    rw [hocc]
    intro p hp j hj
    rw [hlen p hp] at hj
    exact hmem _ (h.packets p hp j hj)
  inProgress := hdata

/-- A change of none of the registers of the ring. -/
theorem State.WrittenInv.of_fields {s t : State} (h : s.WrittenInv) (hc : t.cfg = s.cfg) (hw : t.w = s.w) (ho : t.old = s.old)
    (hl : t.len = s.len ∨ t.len = 0x00#8) (hn : t.npk = s.npk) (hm : t.mem = s.mem) (hd : t.draws = s.draws) : t.WrittenInv := by
  have hread : ∀ a, memRead t a = memRead s a := memRead_congr hc hm hd
  have hlen : ∀ p, lengthAt t p = lengthAt s p := fun p => by simp only [lengthAt, hread]
  refine h.of_same ?_ (fun p _ => hlen p) (fun a => (writtenAt_congr hm a).2) ?_
  · simp only [occupying, hn, ho]
    exact (walk_congr hc _ _ fun q _ => hlen q).1
  · rcases hl with hl | hl
    · rw [hl, hw]
      exact fun j hj => (writtenAt_congr hm _).2 (h.inProgress j hj)
    · rw [hl]; intro j hj; simp at hj

/-- Appending a byte (R47). -/
theorem State.WrittenInv.appendByte {s : State} (h : s.WrittenInv) (hi : s.Inv) (b : Byte) : (appendByte b s).WrittenInv := by
  have hw := hi.registers.writeIndexPlaced
  have hin := hi.ring.room_le hw
  rcases appendByte_cases b s with ⟨hl, hroom, e⟩ | ⟨-, e⟩ <;> rw [e]
  · simp only [hdr] at hroom
    have ha : maskIndex s.cfg (s.w + hdr + s.len.toNat) = s.w + hdr + s.len.toNat :=
      maskIndex_of_lt (by simp only [hdr]; omega)
    have hlen : ∀ p ∈ occupying s, lengthAt (memWrite (s.w + hdr + s.len.toNat) b s) p = lengthAt s p := by
      intro p hp
      have hs := (packetSound_iff _ _).1 (hi.ring.sound hp)
      have hap := hi.ring.roomApart p hp
      have hcap := cap_ge s.cfg
      have : memRead (memWrite (s.w + hdr + s.len.toNat) b s) (p + 3) = memRead s (p + 3) := by
        apply memRead_memWrite_other
        rw [ha, maskIndex_of_lt (by simp only [maxSpan] at hs; omega)]
        simp only [spanEnd, hdr] at *; omega
      simp only [lengthAt, this]
    refine h.of_same ?_ hlen ?_ ?_
    · exact (walk_congr (s := s) (t := { memWrite (s.w + hdr + s.len.toNat) b s with len := s.len + 1#8 }) rfl s.npk s.old hlen).1
    · exact fun a ha => (writtenAt_memWrite s _ a b).2 (.inr ha)
    · intro j hj
      simp only [len_add_one hl] at hj
      refine (writtenAt_memWrite s _ _ b).2 ?_
      by_cases hj' : j = s.len.toNat
      · exact .inl (by rw [ha, hj']; rfl)
      · exact .inr (h.inProgress j (by omega))
  · exact h.of_fields rfl rfl rfl (.inl rfl) rfl rfl rfl

/-- Committing a Packet whose data are written (R48). -/
theorem State.WrittenInv.commit {s : State} (h : s.WrittenInv) (hi : s.Inv) (hroom : hdr + s.len.toNat + 1 ≤ room s) :
    (commit s).WrittenInv := by
  have hw := hi.registers.writeIndexPlaced
  have hin := hi.ring.room_le hw
  obtain ⟨hbytes, hocc, -⟩ := occupying_commit hi.ring hw hroom
  simp only [hdr] at hroom
  have hlenw := (memRead_commit_header (s := s) (by omega)).2.2.2.1
  have hadd : ∀ a, (∃ c ∈ commitWrites s, a = maskIndex s.cfg c.1) ∨ writtenAt s a → writtenAt (Machine.commit s) a := by
    intro a ha
    exact (writtenAt_congr (commit_mem s) a).2 ((writtenAt_writeBytes _ s a).2 ha)
  have hpacket : ∀ c ∈ packetWrites s, c ∈ commitWrites s := by
    intro c hc
    unfold commitWrites
    split
    · exact List.mem_append_left _ hc
    · exact hc
  refine ⟨?_, by simp⟩
  rw [hocc]
  intro p hp j hj
  rcases List.mem_append.1 hp with hp | hp
  · rw [(packet_congr (hbytes p hp)).1] at hj
    exact hadd _ (.inr (h.packets p hp j hj))
  · rw [List.mem_singleton] at hp
    subst hp
    rw [hlenw] at hj
    have hwrite : ∀ v, (s.w + j, v) ∈ packetWrites s → writtenAt (Machine.commit s) (s.w + j) := by
      intro v hv
      exact hadd _ (.inl ⟨_, hpacket _ hv, (maskIndex_of_lt (by omega)).symm⟩)
    by_cases h4 : j < 4
    · rcases (by omega : j = 0 ∨ j = 1 ∨ j = 2 ∨ j = 3) with rfl | rfl | rfl | rfl
      · exact hwrite s.src (by simp [packetWrites])
      · exact hwrite s.pfl (by simp [packetWrites])
      · exact hwrite 0x00#8 (by simp [packetWrites])
      · exact hwrite s.len (by simp [packetWrites])
    · by_cases hlast : j = 4 + s.len.toNat
      · subst hlast
        exact hwrite 0x00#8 (by simp [packetWrites, Nat.add_assoc])
      · have := h.inProgress (j - 4) (by omega)
        rw [show s.w + 4 + (j - 4) = s.w + j by omega] at this
        exact hadd _ (.inr this)

end Sys2Proof.Machine
end

