-- ==== Sys2Proof/Laws/Packets.lean ====
section
/-! SUPPORT. The queue of stored Packets (R46, R86): what appending, committing, freeing and marking as read do to it, and to the
data of the in-progress Packet. -/

namespace Sys2Proof.Machine

theorem readSpan_congr {s t : State} {p n : Nat} (h : ∀ j, j < n → memRead t (p + j) = memRead s (p + j)) :
    readSpan t p n = readSpan s p n := by
  unfold readSpan
  exact List.map_congr_left fun j hj => h j (by simpa using hj)

@[simp] theorem length_readSpan (s : State) (p n : Nat) : (readSpan s p n).length = n := by simp [readSpan]

theorem getElem?_readSpan {s : State} {p n j : Nat} (h : j < n) : (readSpan s p n)[j]? = some (memRead s (p + j)) := by
  simp [readSpan, h]

theorem readSpan_succ (s : State) (p n : Nat) : readSpan s p (n + 1) = readSpan s p n ++ [memRead s (p + n)] := by
  simp [readSpan, List.range_succ]

/-- A Packet whose bytes read the same, its cursor perhaps apart, is the same Packet to its reader. -/
theorem packetView_congr {s t : State} {p : Nat} (h : ∀ j, j < lengthAt s p + 5 → j ≠ 2 → memRead t (p + j) = memRead s (p + j)) :
    packetView t p = packetView s p := by
  have hl : lengthAt t p = lengthAt s p := by simp only [lengthAt, h 3 (by omega) (by omega)]
  have hd : readSpan t (p + 4) (lengthAt s p) = readSpan s (p + 4) (lengthAt s p) := by
    refine readSpan_congr fun j hj => ?_
    have := h (4 + j) (by omega) (by omega)
    simpa [Nat.add_assoc] using this
  have hs : sourceAt t p = sourceAt s p := h 0 (by omega) (by omega)
  have hf : flagsAt t p = flagsAt s p := h 1 (by omega) (by omega)
  simp only [packetView, hl, hd, hs, hf]

/-- The queue is the same where the ring's registers are and the Packets' bytes read the same, cursors apart. -/
theorem storedPackets_of_bytes {s t : State} (hc : t.cfg = s.cfg) (ho : t.old = s.old) (hn : t.npk = s.npk)
    (h : ∀ p ∈ occupying s, ∀ j, j < lengthAt s p + 5 → j ≠ 2 → memRead t (p + j) = memRead s (p + j)) :
    storedPackets t = storedPackets s := by
  have hocc : occupying t = occupying s := by
    simp only [occupying, hn, ho]
    exact (walk_congr hc _ _ fun q hq => by simp only [lengthAt, h q hq 3 (by omega) (by omega)]).1
  simp only [storedPackets, hocc]
  exact List.map_congr_left fun p hp => packetView_congr (h p hp)

theorem storedPackets_congr {s t : State} (hc : t.cfg = s.cfg) (ho : t.old = s.old) (hn : t.npk = s.npk) (hm : t.mem = s.mem)
    (hd : t.draws = s.draws) : storedPackets t = storedPackets s :=
  storedPackets_of_bytes hc ho hn fun _ _ _ _ _ => memRead_congr hc hm hd _

theorem inProgressData_congr {s t : State} (hc : t.cfg = s.cfg) (hw : t.w = s.w) (hl : t.len = s.len) (hm : t.mem = s.mem)
    (hd : t.draws = s.draws) : inProgressData t = inProgressData s := by
  simp only [inProgressData, hw, hl]
  exact readSpan_congr fun _ _ => memRead_congr hc hm hd _

/-- Where the byte of an append goes (R47). -/
theorem appendByte_index {s : State} (h : s.Inv) (hroom : hdr + s.len.toNat + 2 ≤ room s) :
    maskIndex s.cfg (s.w + hdr + s.len.toNat) = s.w + hdr + s.len.toNat := by
  have := h.ring.room_le h.registers.writeIndexPlaced
  simp only [hdr] at *
  exact maskIndex_of_lt (by omega)

/-- Appending touches no stored Packet (R46, R47). -/
theorem memRead_appendByte_stored {s : State} (h : s.Inv) (b : Byte) {p : Nat} (hp : p ∈ occupying s) {j : Nat}
    (hj : j < lengthAt s p + 5) : memRead (appendByte b s) (p + j) = memRead s (p + j) := by
  rcases appendByte_cases b s with ⟨-, hroom, e⟩ | ⟨-, e⟩ <;> rw [e]
  · have hend := spanEnd_le (h.ring.sound hp)
    have hap := h.ring.roomApart p hp
    have : memRead (memWrite (s.w + hdr + s.len.toNat) b s) (p + j) = memRead s (p + j) := by
      apply memRead_memWrite_other
      rw [appendByte_index h hroom, maskIndex_of_lt (by simp only [spanEnd] at hend; omega)]
      simp only [spanEnd, hdr] at *; omega
    rw [← this]
    exact memRead_congr rfl rfl rfl _
  · exact memRead_congr rfl rfl rfl _

theorem storedPackets_appendByte {s : State} (h : s.Inv) (b : Byte) : storedPackets (appendByte b s) = storedPackets s :=
  storedPackets_of_bytes (by simp) (by simp) (by simp) fun _ hp _ hj _ => memRead_appendByte_stored h b hp hj

/-- A byte that is taken is the last data byte of the in-progress Packet (R16, R47). -/
theorem inProgressData_appendByte {s : State} (h : s.Inv) (b : Byte) (hl : s.len.toNat < maxLen)
    (hroom : hdr + s.len.toNat + 2 ≤ room s) : inProgressData (appendByte b s) = inProgressData s ++ [b] := by
  have hin := h.ring.room_le h.registers.writeIndexPlaced
  have hidx := appendByte_index h hroom
  have e : appendByte b s = { memWrite (s.w + hdr + s.len.toNat) b s with len := s.len + 1#8 } := by
    rcases appendByte_cases b s with ⟨-, -, e⟩ | ⟨h', -⟩
    · exact e
    · omega
  have hread : ∀ a, memRead (appendByte b s) a = memRead (memWrite (s.w + hdr + s.len.toNat) b s) a := by
    intro a; rw [e]; exact memRead_congr rfl rfl rfl _
  have hlen : (appendByte b s).len.toNat = s.len.toNat + 1 := by rw [e]; exact len_add_one hl
  have hw : (appendByte b s).w = s.w := by simp
  simp only [inProgressData, hlen, hw, readSpan_succ, hread]
  simp only [hdr] at *
  congr 1
  · refine readSpan_congr fun j hj => ?_
    rw [hread]
    apply memRead_memWrite_other
    rw [hidx, maskIndex_of_lt (by omega)]; omega
  · rw [memRead_memWrite_same]

/-- Committing adds the in-progress Packet at the back of the queue (R48, R86). -/
theorem storedPackets_commit {s : State} (h : s.Inv) (hroom : hdr + s.len.toNat + 1 ≤ room s) :
    storedPackets (commit s) = storedPackets s ++ [{ source := s.src, flags := s.pfl, data := inProgressData s }] := by
  have hin := h.ring.room_le h.registers.writeIndexPlaced
  obtain ⟨hbytes, hocc, -⟩ := occupying_commit h.ring h.registers.writeIndexPlaced hroom
  simp only [hdr] at hroom
  have hq : s.w + s.len.toNat + 5 ≤ s.cfg.cap := by omega
  obtain ⟨hsrc, hfl, hcur, hlen, htr⟩ := memRead_commit_header hq
  simp only [storedPackets, hocc, List.map_append, List.map_cons, List.map_nil]
  congr 1
  · exact List.map_congr_left fun p hp => packetView_congr fun j hj _ => hbytes p hp j hj
  · simp only [packetView, hsrc, hfl, hlen, inProgressData]
    congr 2
    refine readSpan_congr fun j hj => ?_
    have hwr : memRead (writeBytes (commitWrites s) s) (s.w + 4 + j) = memRead s (s.w + 4 + j) := by
      apply memRead_writeBytes_other
      intro c hc
      rw [maskIndex_of_lt (by omega)]
      rcases commitWrites_cases hc with hp | ⟨-, hlo, hhi⟩
      · rcases packetWrites_cases hp with rfl | rfl | rfl | rfl | rfl <;>
          (simp only; rw [maskIndex_of_lt (by omega)]; omega)
      · rw [maskIndex_of_lt hhi]; omega
    rw [← hwr]
    exact memRead_congr rfl rfl (by simp) _

/-- What the end of a Packet does to the queue (R75, R86). -/
theorem storedPackets_doFinish {s : State} (h : s.Inv) :
    (hdr + s.len.toNat + 1 ≤ room s ∧ storedPackets (doFinish s) = storedPackets s ++
      [{ source := s.src, flags := if s.escp then s.pfl ||| flagBadEscape else s.pfl, data := inProgressData s }]) ∨
    (room s < hdr + s.len.toNat + 1 ∧ storedPackets (doFinish s) = storedPackets s) := by
  have hr : room (endEscape s) = room s := room_congr (by simp) (by simp) (by simp) (by simp)
  have hst : storedPackets (endEscape s) = storedPackets s :=
    storedPackets_congr (by simp) (by simp) (by simp) (by simp) (by simp)
  have hip : inProgressData (endEscape s) = inProgressData s :=
    inProgressData_congr (by simp) (by simp) (by simp) (by simp) (by simp)
  have hpf : (endEscape s).pfl = if s.escp then s.pfl ||| flagBadEscape else s.pfl := by
    cases he : s.escp <;> simp [endEscape, he]
  rcases doFinish_cases s with ⟨hroom, e⟩ | ⟨hroom, e⟩ <;> rw [e]
  · refine .inl ⟨hroom, ?_⟩
    rw [storedPackets_commit h.endEscape (by simpa [hr] using hroom), hst, hip, hpf, endEscape_src]
  · refine .inr ⟨hroom, ?_⟩
    rw [← hst]
    exact storedPackets_congr rfl rfl rfl rfl rfl

/-- Freeing takes the Packet at the front of the queue (R50, R86). -/
theorem storedPackets_freeOldest {s : State} (hn : 0 < s.npk) :
    storedPackets s = packetView s s.old :: storedPackets (freeOldest s) := by
  simp only [storedPackets, occupying_freeOldest hn]
  rw [occupying_cons hn]
  simp only [List.map_cons, List.tail_cons]
  congr 1

/-- Marking as read changes no Packet but the held one's cursor (R89). -/
theorem storedPackets_writeCursor {s : State} (h : s.Inv) (hn : 0 < s.npk) (v : Byte) :
    storedPackets (memWrite (s.old + 2) v s) = storedPackets s := by
  refine storedPackets_of_bytes rfl rfl rfl fun p hp j hj hj2 => ?_
  have hcap := cap_ge s.cfg
  have hend := spanEnd_le (h.ring.sound hp)
  have hsold := (packetSound_iff _ _).1 (h.ring.sound (old_mem_occupying hn))
  have hap : p = s.old ∨ spanEnd s s.old ≤ p ∨ spanEnd s p ≤ s.old := by
    have := h.ring.spansApart
    rw [occupying_cons hn] at this hp
    rcases List.mem_cons.1 hp with h | h
    · exact .inl h
    · exact .inr ((List.pairwise_cons.1 this).1 p h)
  apply memRead_memWrite_other
  simp only [spanEnd, maxSpan] at *
  rw [maskIndex_of_lt (by omega), maskIndex_of_lt (by omega)]
  omega

end Sys2Proof.Machine
end

