-- ==== Sys2Proof/Laws/PerInstr.lean ====
section
/-! SUPPORT. One lemma for each command (R57, R60): its word carries its opcode, the opcode is a row of the map, and that row belongs
to the command's port. -/

/-- The word of `i` has `i`'s opcode in `cmd[31:24]`, the map gives that opcode back, and the opcode belongs to `i`'s port. -/
def Sys2Proof.Laws.OpcodeInWord.Statement (i : Sys2Proof.Instr) : Prop :=
  Sys2Proof.fieldOp (Sys2Proof.encode i) = i.opcode.code
    ∧ Sys2Proof.Opcode.ofCode (Sys2Proof.fieldOp (Sys2Proof.encode i)) = some i.opcode
    ∧ i.opcode.onPort i.port = true

namespace Sys2Proof.Laws.OpcodeInWord

/-- The statement of one command from the port column of the map. -/
theorem of_onPort {i : Instr} (h : i.opcode.onPort i.port = true) : Statement i := by
  have hop : fieldOp (encode i) = i.opcode.code := fieldOp_word _ _ _
  exact ⟨hop, by rw [hop, ofCode_code], h⟩

theorem nop (p : Port) : Statement (.nop p) := of_onPort rfl
theorem rxByte (b : Byte) (e : BitVec 4) : Statement (.rxByte b e) := of_onPort rfl
theorem storeRaw (b : Byte) : Statement (.storeRaw b) := of_onPort rfl
theorem storeData (b : Byte) : Statement (.storeData b) := of_onPort rfl
theorem finish : Statement .finish := of_onPort rfl
theorem forceSync : Statement .forceSync := of_onPort rfl
theorem canAccept : Statement .canAccept := of_onPort rfl
theorem isFull : Statement .isFull := of_onPort rfl
theorem setMode (v : Byte) : Statement (.setMode v) := of_onPort rfl
theorem setSource (v : Byte) : Statement (.setSource v) := of_onPort rfl
theorem count : Statement .count := of_onPort rfl
theorem isEmpty : Statement .isEmpty := of_onPort rfl
theorem dispatchBegin : Statement .dispatchBegin := of_onPort rfl
theorem dispatchEnd : Statement .dispatchEnd := of_onPort rfl
theorem copyOut : Statement .copyOut := of_onPort rfl
theorem rd (a : BitVec 16) : Statement (.rd a) := of_onPort rfl
theorem wrCursor (v : Byte) : Statement (.wrCursor v) := of_onPort rfl
theorem status : Statement .status := of_onPort rfl
theorem check : Statement .check := of_onPort rfl
theorem clearLost : Statement .clearLost := of_onPort rfl
theorem txByte (b : Byte) : Statement (.txByte b) := of_onPort rfl
theorem txEnd : Statement .txEnd := of_onPort rfl

end Sys2Proof.Laws.OpcodeInWord
end

