-- ==== Sys2Proof/Tests/Slice0.lean ====
section
/-! SUPPORT. The model's own tests: expected values are worked out from the spec's encodings and examples, never from the model;
and a witness for every hypothesis of the statements. -/

namespace Sys2Proof.Tests

open Sys2Proof Sys2Proof.Machine

/-- The next state, if there is one. -/
def after (o : Host.Outcome State Fault Refusal) : Option State :=
  match o with
  | .next t => some t
  | .fault _ => none
  | .refused _ => none

/-- The value and the bytes of the response on port `p`. -/
def replied (p : Port) (o : Host.Outcome State Fault Refusal) : Option (Bool × Word × List Byte) :=
  (after o).bind fun t => (lastResponse p t).map fun r => (r.halted, r.value, r.out)

/-- `HALT` and `DIAG`. -/
def halting (o : Host.Outcome State Fault Refusal) : Option (Bool × Byte) := (after o).map fun t => (t.halt, t.diag)

/-! ### Small states -/

/-- The Packet `02 00 00 02 48 69 00` at 0, of the examples of R83 to R89. -/
def oneStored : State :=
  { State.reset with
    mem := [(0, 0x02#8), (1, 0x00#8), (2, 0x00#8), (3, 0x02#8), (4, 0x48#8), (5, 0x69#8), (6, 0x00#8)]
    w := 7, npk := 1, src := 0x02#8 }

/-- The same Packet, held. -/
def oneHeld : State := { oneStored with lock := true }

/-- The data `48 69` in the in-progress Packet, not yet finished. -/
def inProgress : State := { State.reset with mem := [(4, 0x48#8), (5, 0x69#8)], len := 2#8, src := 0x02#8 }

/-- `K = 9`: one Packet of 252 data bytes fills the store; 257 leaves a tail of 255, so `W` is 0 again (R48). -/
def fullStore : State :=
  { State.resetWith ⟨0⟩ with
    mem := [(0, 0x00#8), (1, 0x00#8), (2, 0x00#8), (3, 0xFC#8), (256, 0x00#8), (257, 0x00#8), (258, 0x40#8), (259, 0x00#8),
      (260, 0x00#8), (261, 0x00#8)]
    w := 0, npk := 1 }

/-- A running block with an escape pending. -/
def escaped : State := { State.reset with escp := true }

/-- In byte mode. -/
def byteMode : State := { State.reset with inMode := .byte, outMode := .byte }

/-- Halted by a bad argument. -/
def halted : State := { State.reset with halt := true, diag := 0x02#8 }

/-! ### Well-formedness: a command of another port is refused -/

theorem test_wellFormed_refuses :
    Instr.wellFormedOn .consumer (.rxByte 0x41#8 0#4) = false ∧ Instr.wellFormedOn .tx .count = false
      ∧ Instr.wellFormedOn .producer (.txByte 0x41#8) = false ∧ Instr.wellFormedOn .producer (.nop .tx) = false := by
  decide

theorem test_wellFormed_accepts :
    Instr.wellFormedOn .producer (.rxByte 0x41#8 0#4) = true ∧ Instr.wellFormedOn .consumer .count = true
      ∧ Instr.wellFormedOn .tx (.txByte 0x41#8) = true ∧ Instr.wellFormedOn .tx (.nop .tx) = true := by
  decide

/-! ### Decoding, from the words of R58 and R60 written out bit by bit -/

theorem test_decode_producer :
    decode .producer 0b00000000_00000000_00000000_00000000#32 = .ok (.nop .producer)
      ∧ decode .producer 0b00000001_00000000_00001010_01000001#32 = .ok (.rxByte 0x41#8 0xA#4)
      ∧ decode .producer 0b00000010_00000000_00000000_11011011#32 = .ok (.storeRaw 0xDB#8)
      ∧ decode .producer 0b00000011_00000000_00000000_11011101#32 = .ok (.storeData 0xDD#8)
      ∧ decode .producer 0b00000100_00000000_00000000_00000000#32 = .ok .finish
      ∧ decode .producer 0b00000101_00000000_00000000_00000000#32 = .ok .forceSync
      ∧ decode .producer 0b00000110_00000000_00000000_00000000#32 = .ok .canAccept
      ∧ decode .producer 0b00000111_00000000_00000000_00000000#32 = .ok .isFull
      ∧ decode .producer 0b00001000_00000000_00000000_00000011#32 = .ok (.setMode 3#8)
      ∧ decode .producer 0b00001001_00000000_00000000_00101000#32 = .ok (.setSource 40#8) := by
  decide

theorem test_decode_consumer :
    decode .consumer 0b01000001_00000000_00000000_00000000#32 = .ok .count
      ∧ decode .consumer 0b01000010_00000000_00000000_00000000#32 = .ok .isEmpty
      ∧ decode .consumer 0b01000011_00000000_00000000_00000000#32 = .ok .dispatchBegin
      ∧ decode .consumer 0b01000100_00000000_00000000_00000000#32 = .ok .dispatchEnd
      ∧ decode .consumer 0b01000101_00000000_00000000_00000000#32 = .ok .copyOut
      ∧ decode .consumer 0b01000110_00000100_00000100_00000000#32 = .ok (.rd 0x0404#16)
      ∧ decode .consumer 0b01000111_00000000_00000000_00000010#32 = .ok (.wrCursor 2#8)
      ∧ decode .consumer 0b01001000_00000000_00000000_00000000#32 = .ok .status
      ∧ decode .consumer 0b01001001_00000000_00000000_00000000#32 = .ok .check
      ∧ decode .consumer 0b01001010_00000000_00000000_00000000#32 = .ok .clearLost := by
  decide

theorem test_decode_tx :
    decode .tx 0b10000001_00000000_00000000_00001010#32 = .ok (.txByte 0x0A#8)
      ∧ decode .tx 0b10000010_00000000_00000000_00000000#32 = .ok .txEnd
      ∧ decode .tx 0b00000000_00000000_00000000_00000000#32 = .ok (.nop .tx) := by
  decide

/-- The boundaries of R61's three checks. -/
theorem test_decode_illegal :
    decode .producer 0x0A000000#32 = .error .unassignedOpcode ∧ decode .consumer 0x40000000#32 = .error .unassignedOpcode
      ∧ decode .consumer 0x4B000000#32 = .error .unassignedOpcode ∧ decode .tx 0x80000000#32 = .error .unassignedOpcode
      ∧ decode .tx 0x83000000#32 = .error .unassignedOpcode ∧ decode .tx 0xFF000000#32 = .error .unassignedOpcode
      ∧ decode .producer 0x41000000#32 = .error .otherPort ∧ decode .consumer 0x82000000#32 = .error .otherPort
      ∧ decode .tx 0x01001000#32 = .error .otherPort ∧ decode .producer 0x01001000#32 = .error .reservedBit
      ∧ decode .consumer 0x46000001#32 = .error .reservedBit ∧ decode .tx 0x00000001#32 = .error .reservedBit := by
  decide

/-- What the host asks: the table's rows, and a step on a word placed after reset. -/
theorem test_tableWord :
    decodeTableWord 32 0x46040400 = some (.rd 0x0404#16) ∧ decodeTableWord 32 0 = some (.nop .producer)
      ∧ decodeTableWord 32 0x8100000A = some (.txByte 0x0A#8) ∧ decodeTableWord 32 0xC0000000 = none := by
  decide

theorem test_step_withFetchWord :
    (after (step (State.reset.withFetchWord 32 0x8100000A))).map (·.txOut) = some [0xDB#8, 0xDC#8]
      ∧ (after (step (State.reset.withFetchWord 32 0x09000028))).map (·.src) = some 40#8
      ∧ halting (step (State.reset.withFetchWord 32 0xC0000000)) = some (true, 0x01#8) := by
  decide

/-! ### The producer port -/

/-- R68: a data byte at `MEM[W + 4]`, its errors in `PFL`. -/
theorem test_rxByte_data :
    (after (exec (.rxByte 0x41#8 0x2#4) State.reset)).map (fun t => (t.len, t.pfl, t.mem))
      = some (1#8, 0x02#8, [(4, 0x41#8)]) := by
  decide

/-- R65: a delimiter while an escape is pending is a malformed escape, and ends the Packet. -/
theorem test_rxByte_delimiter_after_escape :
    (after (exec (.rxByte 0x0A#8 0#4) { inProgress with escp := true })).map (fun t => (t.npk, t.w, t.escp, t.mem))
      = some (1, 7, false,
          [(0, 0x02#8), (1, 0x20#8), (2, 0x00#8), (3, 0x02#8), (4, 0x48#8), (5, 0x69#8), (6, 0x00#8)]) := by
  decide

/-- R77's example. -/
theorem test_storeRaw : (after (exec (.storeRaw 0x0A#8) State.reset)).map (fun t => (t.len, t.mem)) = some (1#8, [(4, 0x0A#8)]) := by
  decide

/-- R47: at 252 data bytes the byte is discarded and OVERFLOW set. -/
theorem test_storeRaw_overflow :
    (after (exec (.storeRaw 0x41#8) { State.reset with len := 252#8 })).map (fun t => (t.len, t.pfl, t.mem))
      = some (252#8, 0x10#8, []) := by
  decide

/-- R78: `DB DC` is the data byte `0x0A`. -/
theorem test_storeData_escape :
    (after (exec (.storeData 0xDC#8) escaped)).map (fun t => (t.escp, t.len, t.mem)) = some (false, 1#8, [(4, 0x0A#8)]) := by
  decide

/-- R78: without delimiter detection `0x0A` is data. -/
theorem test_storeData_delimiter :
    (after (exec (.storeData 0x0A#8) State.reset)).map (fun t => (t.npk, t.len, t.mem)) = some (0, 1#8, [(4, 0x0A#8)]) := by
  decide

/-- R76, R48: the Packet of R88's example. -/
theorem test_finish : (after (exec .finish inProgress)).map (fun t => (t.w, t.npk, t.len, t.mem))
    = some (7, 1, 0#8, [(0, 0x02#8), (1, 0x00#8), (2, 0x00#8), (3, 0x02#8), (4, 0x48#8), (5, 0x69#8), (6, 0x00#8)]) := by
  decide

/-- R48: at `W = 760` (K = 10) an empty Packet ends at 765, the tail of 259 fits a maximum-size Packet; at 763 it ends at 768, the
tail of 256 does not: a sentinel at 768 and `W = 0`. -/
theorem test_finish_wrap :
    (after (exec .finish { State.reset with w := 760, old := 760 })).map (fun t => (t.w, t.mem.length)) = some (765, 5)
      ∧ (after (exec .finish { State.reset with w := 763, old := 763 })).map (fun t => (t.w, t.mem))
        = some (0, [(763, 0x00#8), (764, 0x00#8), (765, 0x00#8), (766, 0x00#8), (767, 0x00#8),
            (768, 0x00#8), (769, 0x40#8), (770, 0x00#8), (771, 0x00#8), (772, 0x00#8)]) := by
  decide

/-- R69's example. -/
theorem test_forceSync :
    (after (exec .forceSync { State.reset with len := 1#8, escp := true, pfl := 0x20#8 })).map (fun t => (t.len, t.escp, t.pfl))
      = some (0#8, false, 0x00#8) := by
  decide

/-- R79's example. -/
theorem test_canAccept : replied .producer (exec .canAccept { State.reset with npk := 3 }) = some (false, 0#32, []) := by decide

/-- R80's example: at 252 data bytes in an empty store both are 1. -/
theorem test_isFull :
    replied .producer (exec .isFull { State.reset with len := 252#8 }) = some (false, 1#32, [])
      ∧ replied .producer (exec .canAccept { State.reset with len := 252#8 }) = some (false, 1#32, []) := by
  decide

/-- R70: a change of `IN_MODE` abandons the partial Packet. -/
theorem test_setMode : (after (exec (.setMode 1#8) inProgress)).map (fun t => (t.inMode, t.outMode, t.len)) = some (.byte, .packet, 0#8) := by
  decide

/-- R70: a reserved bit halts. -/
theorem test_setMode_reserved : halting (exec (.setMode 4#8) State.reset) = some (true, 0x02#8) := by decide

/-- R91's example. -/
theorem test_setSource :
    (after (exec (.setSource 40#8) State.reset)).map (·.src) = some 40#8
      ∧ halting (exec (.setSource 41#8) State.reset) = some (true, 0x02#8) := by
  decide

/-! ### The consumer port -/

/-- R81: the held Packet is not counted. -/
theorem test_count :
    replied .consumer (exec .count oneStored) = some (false, 1#32, [])
      ∧ replied .consumer (exec .count oneHeld) = some (false, 0#32, []) := by
  decide

/-- R82. -/
theorem test_isEmpty :
    replied .consumer (exec .isEmpty State.reset) = some (false, 1#32, [])
      ∧ replied .consumer (exec .isEmpty oneStored) = some (false, 0#32, []) := by
  decide

/-- R83's example. -/
theorem test_dispatchBegin : replied .consumer (exec .dispatchBegin oneStored) = some (false, 0x00000201#32, []) := by decide

/-- R100: recursion is tested before the empty store. -/
theorem test_dispatchBegin_recursive : halting (exec .dispatchBegin oneHeld) = some (true, 0x03#8) := by decide

/-- R84's example. -/
theorem test_dispatchEnd : (after (exec .dispatchEnd oneHeld)).map (fun t => (t.old, t.npk, t.lock)) = some (7, 0, false) := by decide

/-- R84 outside a dispatch. -/
theorem test_dispatchEnd_not_dispatching : halting (exec .dispatchEnd oneStored) = some (true, 0x04#8) := by decide

/-- R85: the seven bytes of the Packet, `OLD` and the length in the answer. -/
theorem test_copyOut : replied .consumer (exec .copyOut oneStored)
    = some (false, 0x00000201#32, [0x02#8, 0x00#8, 0x00#8, 0x02#8, 0x48#8, 0x69#8, 0x00#8]) := by
  decide

/-- R85, R50: the span is freed; after an early wrap `OLD` is 0. -/
theorem test_copyOut_frees :
    (after (exec .copyOut oneStored)).map (fun t => (t.old, t.npk)) = some (7, 0)
      ∧ (after (exec .dispatchEnd { fullStore with lock := true })).map (fun t => (t.old, t.npk)) = some (0, 0) := by
  decide

/-- R88's examples: `0x0404` is masked to 4 at K = 10. -/
theorem test_rd :
    replied .consumer (exec (.rd 3#16) oneStored) = some (false, 2#32, [])
      ∧ replied .consumer (exec (.rd 0x0404#16) oneStored) = some (false, 0x48#32, []) := by
  decide

/-- R89's examples. -/
theorem test_wrCursor :
    (after (exec (.wrCursor 2#8) oneHeld)).map (fun t => memRead t 2) = some 2#8
      ∧ halting (exec (.wrCursor 3#8) oneHeld) = some (true, 0x02#8) := by
  decide

/-- R89, R100: not dispatching is tested first. -/
theorem test_wrCursor_not_dispatching : halting (exec (.wrCursor 255#8) oneStored) = some (true, 0x04#8) := by decide

/-- R92: after reset `0x00000020`; halted with DIAG `0x02` it still answers. -/
theorem test_status :
    replied .consumer (exec .status State.reset) = some (false, 0x00000020#32, [])
      ∧ replied .consumer (exec .status halted) = some (true, 0x00000221#32, []) := by
  decide

/-- R94: passes, and finds a trailing byte that is not zero. -/
theorem test_check :
    replied .consumer (exec .check oneStored) = some (false, 1#32, [])
      ∧ halting (exec .check { oneStored with mem := Memory.store oneStored.mem 6 0x01#8 }) = some (true, 0x05#8) := by
  decide

/-- R94: the walk must end at `W`. -/
theorem test_check_end : halting (exec .check { oneStored with w := 8 }) = some (true, 0x05#8) := by decide

/-- R93. -/
theorem test_clearLost : (after (exec .clearLost { State.reset with lost := true })).map (·.lost) = some false := by decide

/-! ### The TX port and NOP -/

/-- R71's examples. -/
theorem test_txByte :
    replied .tx (exec (.txByte 0x0A#8) State.reset) = some (false, 0#32, [0xDB#8, 0xDC#8])
      ∧ replied .tx (exec (.txByte 0xDD#8) State.reset) = some (false, 0#32, [0xDD#8]) := by
  decide

/-- R71 in byte mode. -/
theorem test_txByte_byteMode : replied .tx (exec (.txByte 0xDB#8) byteMode) = some (false, 0#32, [0xDB#8]) := by decide

/-- R72. -/
theorem test_txEnd :
    replied .tx (exec .txEnd State.reset) = some (false, 0#32, [0x0A#8])
      ∧ replied .tx (exec .txEnd byteMode) = some (false, 0#32, []) := by
  decide

/-- R95, R101. -/
theorem test_nop :
    replied .tx (exec (.nop .tx) State.reset) = some (false, 0#32, [])
      ∧ replied .producer (exec (.nop .producer) halted) = some (true, 0#32, []) := by
  decide

/-- R52: in one hardware step the consumer's `COUNT` is answered before the producer's `FINISH` adds a Packet. -/
theorem test_hardware_step :
    (after (step { inProgress with inputs := [.present (some 0x41000000#32) (some 0x04000000#32) none] })).map
        (fun t => (t.resp.consumer, t.npk, t.inputs))
      = some (some (answer 0#32), 0, [.present none (some 0x04000000#32) none]) := by
  decide

/-! ### Invariants of the small states -/

theorem oneStored_inv : oneStored.Inv where
  registers := by constructor <;> decide
  memory := by constructor <;> decide
  ring := by constructor <;> decide

theorem oneHeld_inv : oneHeld.Inv where
  registers := by constructor <;> decide
  memory := by constructor <;> decide
  ring := by constructor <;> decide

theorem inProgress_inv : inProgress.Inv where
  registers := by constructor <;> decide
  memory := by constructor <;> decide
  ring := by constructor <;> decide

theorem fullStore_inv : fullStore.Inv where
  registers := by constructor <;> decide
  memory := by constructor <;> decide
  ring := by constructor <;> decide

theorem oneHeld_written : oneHeld.WrittenInv where
  packets := by decide
  inProgress := by decide

theorem byteMode_inv : byteMode.Inv where
  registers := by constructor <;> decide
  memory := by constructor <;> decide
  ring := by constructor <;> decide

/-! ### Witnesses: the hypotheses of every statement can be met, clause by clause -/

/-- A state that meets every invariant and has a command to run. -/
def oneHeldAsked : State := { oneHeld with inputs := [presentOn .consumer 0x44000000#32] }

theorem oneHeldAsked_inv : oneHeldAsked.Inv where
  registers := by constructor <;> decide
  memory := by constructor <;> decide
  ring := by constructor <;> decide

theorem oneHeldAsked_written : oneHeldAsked.WrittenInv where
  packets := by decide
  inProgress := by decide

theorem oneHeldAsked_steps : ∃ t, step oneHeldAsked = .next t := ⟨_, rfl⟩

theorem witness_DecodeOfEncode : Instr.wellFormedOn .producer (.rxByte 0xFF#8 0xF#4) = true := by decide

theorem witness_EncodeOfDecode : decode .consumer 0x46FFFF00#32 = .ok (.rd 0xFFFF#16) := by decide

theorem witness_StepRunsDecodedCommand :
    oneHeldAsked.inputs = presentOn .consumer 0x44000000#32 :: [] ∧ decode .consumer 0x44000000#32 = .ok .dispatchEnd := by
  decide

/-- All three ports present a word, the producer's an illegal one; and only the TX port does. -/
theorem witness_HardwareStepRunsConsumerProducerTx :
    presentedWords (some 0x41000000#32) (some 0x0A000000#32) (some 0x82000000#32)
        = [(.consumer, 0x41000000#32), (.producer, 0x0A000000#32), (.tx, 0x82000000#32)]
      ∧ decode .producer 0x0A000000#32 = .error .unassignedOpcode
      ∧ presentedWords none none (some 0x82000000#32) ≠ [] := by
  decide

theorem witness_IllegalWordHalts :
    decode .producer 0x0A000000#32 = .error .unassignedOpcode ∧ State.reset.halt = false ∧ halted.halt = true := by decide

theorem witness_IdleHoldsState :
    State.reset.inputs = []
      ∧ { State.reset with inputs := [.present none none none, .reset] }.inputs = .present none none none :: [.reset] := by
  decide

theorem witness_ResetSetsEveryRegister : { halted with inputs := [.reset] }.inputs = .reset :: [] := rfl

/-- The least and the greatest K. -/
theorem witness_PortsAfterReset : (State.resetWith ⟨0⟩).cfg.cap = 512 ∧ (State.resetWith ⟨7⟩).cfg.cap = 65536 := by decide

theorem witness_HaltIsPrecise :
    State.reset.halt = false ∧ ∃ t, exec .dispatchEnd State.reset = .next t ∧ t.halt = true := ⟨rfl, _, rfl, rfl⟩

theorem witness_HaltedIgnoresCommands : halted.halt = true ∧ Instr.finish ≠ .status := by decide

theorem witness_OnlyResetLeavesHalt :
    { halted with inputs := [presentOn .producer 0x04000000#32] }.halt = true
      ∧ Event.reset ∉ { halted with inputs := [presentOn .producer 0x04000000#32] }.inputs := by
  decide

theorem witness_StepKeepsRegisterRanges : oneHeldAsked.RegisterInv ∧ ∃ t, step oneHeldAsked = .next t :=
  ⟨oneHeldAsked_inv.registers, oneHeldAsked_steps⟩

theorem witness_StepKeepsMemoryCanonical : oneHeldAsked.MemoryInv ∧ ∃ t, step oneHeldAsked = .next t :=
  ⟨oneHeldAsked_inv.memory, oneHeldAsked_steps⟩

theorem witness_StepKeepsAllInvariants : oneHeldAsked.Inv ∧ ∃ t, step oneHeldAsked = .next t :=
  ⟨oneHeldAsked_inv, oneHeldAsked_steps⟩

theorem witness_StepKeepsReadBytesWritten :
    oneHeldAsked.Inv ∧ oneHeldAsked.WrittenInv ∧ ∃ t, step oneHeldAsked = .next t :=
  ⟨oneHeldAsked_inv, oneHeldAsked_written, oneHeldAsked_steps⟩

theorem witness_UnwrittenBytesReachOnlyRd :
    oneHeld.Inv ∧ oneHeld.WrittenInv ∧ (∀ a, Instr.wrCursor 2#8 ≠ .rd a) ∧ ∃ t, exec (.wrCursor 2#8) oneHeld = .next t :=
  ⟨oneHeld_inv, oneHeld_written, by simp, _, rfl⟩

theorem witness_CheckPassesUnderInvariants : fullStore.Inv ∧ fullStore.halt = false := ⟨fullStore_inv, rfl⟩

/-- The last byte that fits by length, the first that does not, and a store with no room. -/
theorem witness_StoreRawAppendsVerbatim :
    (State.reset.halt = false ∧ takesByte { State.reset with len := 251#8 })
      ∧ ¬ takesByte { State.reset with len := 252#8 } ∧ ¬ takesByte fullStore ∧ fullStore.halt = false := by
  decide

theorem witness_StoreDataDecodesEscapes :
    (State.reset.halt = false ∧ State.reset.escp = false ∧ takesByte State.reset)
      ∧ (fullStore.halt = false ∧ fullStore.escp = false ∧ ¬ takesByte fullStore)
      ∧ (escaped.halt = false ∧ escaped.escp = true)
      ∧ (0x0A#8 : Byte) ≠ 0xDC#8 ∧ (0x0A#8 : Byte) ≠ 0xDD#8 ∧ (0x0A#8 : Byte) ≠ 0xDB#8 := by
  decide

theorem witness_RxByteDecodesPacketMode :
    (State.reset.halt = false ∧ State.reset.inMode = .packet ∧ State.reset.escp = false ∧ takesByte State.reset)
      ∧ (fullStore.halt = false ∧ fullStore.inMode = .packet ∧ fullStore.escp = false ∧ ¬ takesByte fullStore)
      ∧ (escaped.halt = false ∧ escaped.inMode = .packet ∧ escaped.escp = true)
      ∧ (0x41#8 : Byte) ≠ 0x0A#8 ∧ (0x41#8 : Byte) ≠ 0xDB#8 ∧ (0x41#8 : Byte) ≠ 0xDC#8 ∧ (0x41#8 : Byte) ≠ 0xDD#8 := by
  decide

theorem witness_RxByteByteModeIsStoreThenFinish : byteMode.halt = false ∧ byteMode.inMode = .byte := by decide

theorem witness_RxByteByteModeMakesPacket :
    byteMode.Inv ∧ byteMode.halt = false ∧ byteMode.inMode = .byte ∧ byteMode.len = 0#8 ∧ 6 ≤ room byteMode :=
  ⟨byteMode_inv, by decide⟩

/-- No wrap; a wrap with a sentinel (the tail of 256 and the tail of 5); a tail of 4. -/
theorem witness_FinishCommitsPacket :
    (inProgress.halt = false ∧ inProgress.w ≤ inProgress.cfg.cap - 257 ∧ inProgress.len.toNat ≤ 252
        ∧ 4 + inProgress.len.toNat + 1 ≤ room inProgress)
      ∧ (1024 - (763 + 0 + 5) = 256 ∧ 763 ≤ 1024 - 257 ∧ room { State.reset with w := 763, old := 763 } = 261)
      ∧ (1024 - (767 + 247 + 5) = 5 ∧ 767 ≤ 1024 - 257 ∧ room { State.reset with w := 767, old := 767 } = 257)
      ∧ (1024 - (767 + 248 + 5) = 4 ∧ 4 + 248 + 1 ≤ 257)
      ∧ State.reset.cfg.cap = 1024 := by
  decide

theorem witness_FinishLosesOnlyWhatCannotFit :
    fullStore.halt = false ∧ room fullStore < 4 + fullStore.len.toNat + 1 ∧ fullStore.Inv :=
  ⟨rfl, by decide, fullStore_inv⟩

/-- The least and the greatest illegal word of `NOP`'s opcode. -/
theorem witness_NopChangesNothing : (0x00000001#32 : Word) ≠ 0#32 ∧ (0x00FFFFFF#32 : Word) ≠ 0#32 ∧ (0x00FFFFFF#32 : Word).toNat < 2 ^ 24 := by
  decide

theorem witness_runningAndHalted : State.reset.halt = false ∧ halted.halt = true := by decide

/-- The four cases of `Room()`, and the states of its second clause. -/
theorem witness_RoomFollowsItsRule :
    (State.reset.npk = 0) ∧ (oneStored.npk ≠ 0 ∧ oneStored.old < oneStored.w)
      ∧ ({ oneStored with old := 300, w := 0 }.npk ≠ 0 ∧ { oneStored with old := 300, w := 0 }.w < 300)
      ∧ (fullStore.npk ≠ 0 ∧ fullStore.old = fullStore.w)
      ∧ (oneStored.RegisterInv ∧ oneStored.old < oneStored.w)
      ∧ (oneHeld.Inv ∧ Instr.dispatchEnd.port = .consumer ∧ ∃ t, exec .dispatchEnd oneHeld = .next t) :=
  ⟨rfl, by decide, by decide, by decide, ⟨oneStored_inv.registers, by decide⟩, oneHeld_inv, rfl, _, rfl⟩

/-- The least reserved bit, and the greatest legal value. -/
theorem witness_SetModeWritesModes : State.reset.halt = false ∧ (0x04#8 : Byte) &&& 0xFC#8 ≠ 0#8 ∧ (0x03#8 : Byte) &&& 0xFC#8 = 0#8 := by
  decide

theorem witness_SetSourceWritesLegalTag : State.reset.halt = false ∧ (40#8 : Byte).toNat < 41 ∧ 41 ≤ (41#8 : Byte).toNat := by decide

theorem witness_DispatchBeginHoldsOldest :
    (oneHeld.halt = false ∧ oneHeld.lock = true) ∧ (State.reset.lock = false ∧ State.reset.npk = 0)
      ∧ (oneStored.halt = false ∧ oneStored.lock = false ∧ oneStored.npk ≠ 0 ∧ oneStored.old < 2 ^ 16) := by
  decide

theorem witness_DispatchEndFreesHeld :
    7 = oneHeld.old + (memRead oneHeld (oneHeld.old + 3)).toNat + 5 ∧ (oneStored.halt = false ∧ oneStored.lock = false)
      ∧ (oneHeld.halt = false ∧ oneHeld.lock = true)
      ∧ (257 = fullStore.old + (memRead fullStore (fullStore.old + 3)).toNat + 5 ∧ fullStore.cfg.cap - 257 < 257) := by
  decide

theorem witness_CopyOutStreamsOldest :
    (2 = (memRead oneStored (oneStored.old + 3)).toNat ∧ 7 = oneStored.old + 2 + 5)
      ∧ (oneHeld.halt = false ∧ oneHeld.lock = true)
      ∧ (State.reset.halt = false ∧ State.reset.lock = false ∧ State.reset.npk = 0)
      ∧ (oneStored.halt = false ∧ oneStored.lock = false ∧ oneStored.npk ≠ 0 ∧ oneStored.old < 2 ^ 16) := by
  decide

theorem witness_CopiedCursorIsZero :
    oneStored.Inv ∧ oneStored.halt = false ∧ oneStored.lock = false ∧ oneStored.npk ≠ 0 := ⟨oneStored_inv, by decide⟩

/-- A byte nothing has written. -/
theorem witness_MemoryReadsWhatWasWritten : Memory.lookup oneStored.mem (7 % oneStored.cfg.cap) = none := by decide

/-- The greatest legal cursor and the first above it. -/
theorem witness_WrCursorWritesHeldCursor :
    (oneStored.halt = false ∧ oneStored.lock = false) ∧ (oneHeld.halt = false ∧ oneHeld.lock = true)
      ∧ (2#8 : Byte).toNat ≤ (memRead oneHeld (oneHeld.old + 3)).toNat
      ∧ (memRead oneHeld (oneHeld.old + 3)).toNat < (3#8 : Byte).toNat := by
  decide

/-- The positions a walk visits exist for every state: iterate its step. -/
theorem witness_CheckWalksTheStore (s : State) : ∃ at_ : Nat → Nat, at_ 0 = s.old ∧ ∀ k, at_ (k + 1) =
    if s.cfg.cap - (at_ k + (memRead s (at_ k + 3)).toNat + 5) < 257 then 0
    else at_ k + (memRead s (at_ k + 3)).toNat + 5 :=
  ⟨fun k => Nat.rec s.old (fun _ p => advance s p) k, rfl, fun _ => rfl⟩

theorem witness_TxByteEscapes :
    State.reset.outMode = .packet ∧ byteMode.outMode = .byte ∧ State.reset.halt = false ∧ byteMode.halt = false := by decide

theorem witness_TxStreamHasOneDelimiter : State.reset.halt = false ∧ State.reset.outMode = .packet := by decide

/-- The delimiter and the escape among the data. -/
theorem witness_FramingRoundTrip :
    (State.reset.halt = false ∧ State.reset.outMode = .packet ∧ State.reset.txOut = []
        ∧ [0x0A#8, 0xDB#8, (0x41#8 : Byte)].length ≤ 252)
      ∧ oneHeld.Inv ∧ (oneHeld.halt = false ∧ oneHeld.inMode = .packet ∧ oneHeld.escp = false ∧ oneHeld.len = 0#8
        ∧ oneHeld.pfl = 0#8 ∧ 3 + 5 ≤ room oneHeld) :=
  ⟨by decide, oneHeld_inv, by decide⟩

theorem witness_CapacityPolicy :
    oneHeld.Inv ∧ (oneHeld.halt = false ∧ oneHeld.escp = false ∧ oneHeld.len = 0#8 ∧ oneHeld.pfl = 0#8 ∧ 257 ≤ room oneHeld) :=
  ⟨oneHeld_inv, by decide⟩

/-- One command of each clause: one that adds, one that takes, one that leaves the queue. -/
theorem witness_RingIsFifoQueue :
    (inProgress.Inv ∧ ∃ t, exec .finish inProgress = .next t) ∧ (oneHeld.Inv ∧ ∃ t, exec .dispatchEnd oneHeld = .next t)
      ∧ ∃ t, exec .count oneHeld = .next t :=
  ⟨⟨inProgress_inv, _, rfl⟩, ⟨oneHeld_inv, _, rfl⟩, _, rfl⟩

theorem witness_FinishAppendsInProgressPacket :
    inProgress.Inv ∧ inProgress.halt = false ∧ 4 + inProgress.len.toNat + 1 ≤ room inProgress := ⟨inProgress_inv, by decide⟩

theorem witness_ProducerLeavesStoredPacketsAlone :
    oneHeld.Inv ∧ Instr.finish.port ≠ .consumer ∧ ∃ t, exec .finish oneHeld = .next t := ⟨oneHeld_inv, by decide, _, rfl⟩

/-- A command that moves `W`, and one that halts the block. -/
theorem witness_OnlyTheseCommandsWriteEachRegister :
    (∃ t, exec .finish inProgress = .next t ∧ t.w ≠ inProgress.w)
      ∧ ∃ t, exec .copyOut oneHeld = .next t ∧ t.halt ≠ oneHeld.halt ∧ t.diag ≠ oneHeld.diag :=
  ⟨⟨_, rfl, by decide⟩, _, rfl, by decide⟩

theorem witness_OnlyTheseCommandsWriteMemory : ∃ t, exec (.wrCursor 1#8) oneHeld = .next t ∧ t.mem ≠ oneHeld.mem :=
  ⟨_, rfl, by decide⟩

theorem witness_ReadOnlyCommandsRepeat : ∃ t, exec .check oneStored = .next t ∧ t.halt = oneStored.halt := ⟨_, rfl, by decide⟩

theorem witness_TxPortIsIndependent :
    (Instr.txByte 0x0A#8).port = .tx ∧ State.reset.outMode = oneHeld.outMode ∧ State.reset.halt = oneHeld.halt := by decide

theorem witness_LevelOutputsFollowState :
    (oneStored.halt = false ∧ oneStored.lock = false ∧ oneStored.npk = 1)
      ∧ (oneHeld.halt = false ∧ (oneHeld.lock = true → 1 ≤ oneHeld.npk) ∧ 4 + oneHeld.len.toNat + 1 ≤ room oneHeld) := by
  decide

/-- The consumer's word runs, the producer's is illegal and halts the block, the TX port's is ignored; and a consumer command
halts it before both. -/
theorem witness_FirstFatalOfHardwareStepHalts :
    (∃ u v, presentedWords (some 0x41000000#32) (some 0x0A000000#32) (some 0x82000000#32)
          = [(.consumer, 0x41000000#32)] ++ (.producer, 0x0A000000#32) :: [(.tx, 0x82000000#32)]
        ∧ applyWords [(.consumer, 0x41000000#32)] oneStored = .next u ∧ u.halt = false
        ∧ applyWord .producer 0x0A000000#32 u = .next v ∧ v.halt = true)
      ∧ ∃ v, presentedWords (some 0x45000000#32) (some 0x04000000#32) (some 0x82000000#32)
          = [] ++ (.consumer, 0x45000000#32) :: [(.producer, 0x04000000#32), (.tx, 0x82000000#32)]
        ∧ oneHeld.halt = false ∧ applyWord .consumer 0x45000000#32 oneHeld = .next v ∧ v.halt = true :=
  ⟨⟨_, _, rfl, rfl, rfl, rfl, rfl⟩, _, rfl, rfl, rfl, rfl⟩

theorem witness_RemovalTakesOldestPacket :
    (oneHeld.Inv ∧ oneHeld.halt = false ∧ oneHeld.lock = true)
      ∧ oneStored.Inv ∧ oneStored.halt = false ∧ oneStored.lock = false ∧ oneStored.npk ≠ 0 :=
  ⟨⟨oneHeld_inv, by decide⟩, oneStored_inv, by decide⟩

end Sys2Proof.Tests
end

section
/-! The Framer/Deframer commands `FORCE_SYNC`, `SET_MODE` and `TX_BYTE` (40_framer.md): the mode byte and the outbound encoder
said once, then the statements O29, O33 and O46. -/

namespace Sys2Proof.Machine

/-! ### The mode byte of `SET_MODE` (R23, R32) -/

@[simp] theorem modeOfBit_eq_byte_iff (b : Bool) : modeOfBit b = .byte ↔ b = true := by
  cases b <;> decide

theorem modeByteLegal_iff (v : Byte) : modeByteLegal v = true ↔ v &&& 0xFC#8 = 0#8 := beq_iff_eq

/-- A mode byte with no reserved bit does not halt (R70). -/
theorem haltCode_setMode_of_legal {v : Byte} (s : State) (h : v &&& 0xFC#8 = 0#8) : haltCode (.setMode v) s = none :=
  if_pos ((modeByteLegal_iff v).mpr h)

/-- A mode byte with a reserved bit halts with "bad argument" (R70, R98). -/
theorem haltCode_setMode_of_reserved {v : Byte} (s : State) (h : v &&& 0xFC#8 ≠ 0#8) :
    haltCode (.setMode v) s = some badArgumentCode :=
  if_neg (mt (modeByteLegal_iff v).mp h)

/-! ### Writing both modes (R70) -/

/-- Writing the current `IN_MODE` keeps the partial Packet. -/
theorem writeModes_of_inMode_eq {v : Byte} {s : State} (h : operandInMode v = s.inMode) :
    writeModes v s = setModes (operandInMode v) (operandOutMode v) s :=
  congrArg (setModes _ _) (if_pos h)

/-- A change of `IN_MODE` abandons the partial Packet. -/
theorem writeModes_of_inMode_ne {v : Byte} {s : State} (h : operandInMode v ≠ s.inMode) :
    writeModes v s = setModes (operandInMode v) (operandOutMode v) (doForceSync s) :=
  congrArg (setModes _ _) (if_neg h)

/-! ### The outbound encoder (R71) -/

/-- The wire bytes of a data byte, by the mode and the two reserved values. -/
theorem encodeTx_eq (m : Mode) (b : Byte) :
    encodeTx m b = if m = .byte then [b] else if b = 0x0A#8 then [0xDB#8, 0xDC#8]
      else if b = 0xDB#8 then [0xDB#8, 0xDD#8] else [b] := by
  cases m <;> rfl

/-! ### The statements -/

/-- Settles O29: `FORCE_SYNC` never halts a running block, and its effect is `doForceSync`. -/
theorem forceSyncAbandonsPartialPacket : Obligations.ForceSyncAbandonsPartialPacket := fun _ =>
  ⟨rfl, fun hrun => exec_running hrun rfl⟩

/-- Settles O33: a reserved bit is the one thing that halts; the effect is `writeModes`, split on whether `IN_MODE` changes. -/
theorem setModeWritesModes : Obligations.SetModeWritesModes := by
  intro v s
  refine ⟨encode_setMode v, fun hrun hres => exec_fatal hrun (haltCode_setMode_of_reserved s hres), fun hrun hleg =>
    ⟨respond .producer 0#32 [] (writeModes v s), exec_running hrun (haltCode_setMode_of_legal s hleg),
      modeOfBit_eq_byte_iff _, modeOfBit_eq_byte_iff _, fun hsame => ?_, fun hchange => ?_⟩⟩
  · exact congrArg (respond .producer 0#32 []) (writeModes_of_inMode_eq hsame)
  · exact congrArg (respond .producer 0#32 []) (writeModes_of_inMode_ne hchange)

/-- Settles O46: `TX_BYTE` never halts a running block; it emits and answers with the encoder's bytes. -/
theorem txByteEscapes : Obligations.TxByteEscapes := by
  intro b s out hout
  obtain rfl : out = encodeTx s.outMode b := hout.trans (encodeTx_eq s.outMode b).symm
  exact ⟨encode_txByte b, fun hrun => exec_running hrun rfl⟩

end Sys2Proof.Machine
end

section
/-! The Ring Store commands `STORE_RAW`, `STORE_DATA`, `CAN_ACCEPT`, `IS_FULL`, `COUNT` and `IS_EMPTY` (41_ring_store.md):
appending one byte, decoding without delimiter detection and the one-bit answers said once, then the statements O22, O23, O30 and O31. -/

namespace Sys2Proof.Machine

/-! ### Appending one byte (R47) -/

/-- Where the Packet takes a byte, `AppendByte` and the answer give what `appendedByte` says, `PFL` and `ESCP` as they were. -/
theorem appendedByte_respond_appendByte {s : State} (b : Byte) (h : takesByte s) :
    appendedByte b s.pfl s.escp s (respond .producer 0#32 [] (appendByte b s)) := by
  have stored : appendByte b s = { memWrite (s.w + hdr + s.len.toNat) b s with len := s.len + 1#8 } := if_pos h
  rw [stored]
  refine ⟨rfl, memRead_memWrite_same s _ b, fun a ha => memRead_memWrite_other (s := s) ?_⟩
  rwa [maskIndex_eq_mod, maskIndex_eq_mod]

/-- Where the Packet cannot take a byte, `AppendByte` only sets OVERFLOW. -/
theorem appendByte_of_not_takesByte {s : State} (b : Byte) (h : ¬ takesByte s) :
    appendByte b s = orFlags flagOverflow s := if_neg h

/-! ### Decoding without delimiter detection (R65, R78) -/

/-- With no escape pending, `ESC` only sets `ESCP`. -/
theorem decodeStep_off_esc {s : State} (hplain : s.escp = false) : decodeStep esc false s = setEscp true s :=
  decodeStep_unescaped hplain

/-- With no escape pending and delimiter detection off, any other byte, the delimiter too, is data. -/
theorem decodeStep_off_of_ne_esc {b : Byte} {s : State} (hplain : s.escp = false) (hb : b ≠ esc) :
    decodeStep b false s = appendByte b s := by
  rw [decodeStep_unescaped hplain]
  simp [decodePlain, hb]

/-- After an escape, `ESC_DELIM` is the data byte `DELIM`. -/
theorem decodeStep_escDelim {d : Bool} {s : State} (hpending : s.escp = true) :
    decodeStep escDelim d s = appendByte delim (setEscp false s) := if_pos hpending

/-- After an escape, `ESC_ESC` is the data byte `ESC`. -/
theorem decodeStep_escEsc {d : Bool} {s : State} (hpending : s.escp = true) :
    decodeStep escEsc d s = appendByte esc (setEscp false s) := if_pos hpending

/-- After an escape, a byte that is no continuation is flagged, and then decoded as in a state with no escape pending. -/
theorem decodeStep_bad_escape {b : Byte} {d : Bool} {s : State} (hpending : s.escp = true) (hdelim : b ≠ escDelim)
    (hesc : b ≠ escEsc) : decodeStep b d s = decodeStep b d (orFlags flagBadEscape (setEscp false s)) := by
  rw [decodeStep_unescaped (s := orFlags flagBadEscape (setEscp false s)) rfl]
  simp [decodeStep, hpending, hdelim, hesc]

/-- `STORE_DATA` on a running block answers 0 from the state its decoding step gives. -/
theorem exec_storeData_of_decodeStep {b : Byte} {s t : State} (hrun : s.halt = false) (h : decodeStep b false s = t) :
    exec (.storeData b) s = .next (setResponse .producer (answer 0#32) t) :=
  h ▸ exec_running hrun rfl

/-- A `STORE_DATA` that decodes to one data byte is the `STORE_RAW` of that byte. -/
theorem exec_storeData_eq_storeRaw {b c : Byte} {s : State} (hrun : s.halt = false)
    (h : decodeStep b false s = appendByte c (setEscp false s)) :
    exec (.storeData b) s = exec (.storeRaw c) (setEscp false s) :=
  (exec_storeData_of_decodeStep hrun h).trans (exec_running (i := .storeRaw c) (s := setEscp false s) hrun rfl).symm

/-! ### Answers (R79 to R82) -/

/-- A one-bit answer is the word 1 or 0. -/
theorem boolWord_decide (p : Prop) [Decidable p] : boolWord (decide p) = if p then 1#32 else 0#32 := by
  by_cases h : p <;> simp [h, boolWord]

/-- `IS_FULL` is the opposite of the test that `AppendByte` makes (R47, R80). -/
theorem bufferFull_eq (s : State) : bufferFull s = decide (¬ takesByte s) := by
  rw [decide_not, Bool.decide_and]; rfl

/-- `REMOVABLE` leaves out the Packet that a dispatch holds (R27). -/
theorem removable_eq (s : State) : removable s = s.npk - (if s.lock then 1 else 0) := by
  unfold removable
  cases s.lock <;> rfl

/-! ### The statements -/

/-- Settles O22: `STORE_RAW` never halts a running block; its effect is `AppendByte`, split on whether the Packet takes a byte. -/
theorem storeRawAppendsVerbatim : Obligations.StoreRawAppendsVerbatim := by
  intro b s
  refine ⟨encode_storeRaw b, fun hrun htakes => ?_, fun hrun hfull => ?_⟩
  · exact ⟨_, exec_running hrun rfl, appendedByte_respond_appendByte b htakes⟩
  · rw [exec_running hrun rfl, effect, appendByte_of_not_takesByte b hfull]; rfl

/-- Settles O23: `STORE_DATA` never halts a running block; its effect is the decoding step, one case for each kind of byte with
and without an escape pending. -/
theorem storeDataDecodesEscapes : Obligations.StoreDataDecodesEscapes := by
  intro b s
  refine ⟨encode_storeData b, fun hrun hplain hb => ?_, fun hrun hplain hb htakes => ?_, fun hrun hplain hb hfull => ?_,
    fun hrun hpending hb => ?_, fun hrun hpending hb => ?_, fun hrun hpending hdelim hesc => ?_⟩
  · subst hb
    exact exec_storeData_of_decodeStep hrun (decodeStep_off_esc hplain)
  · exact ⟨_, exec_storeData_of_decodeStep hrun (decodeStep_off_of_ne_esc hplain hb),
      hplain ▸ appendedByte_respond_appendByte b htakes⟩
  · exact exec_storeData_of_decodeStep hrun
      ((decodeStep_off_of_ne_esc hplain hb).trans (appendByte_of_not_takesByte b hfull))
  · subst hb
    exact exec_storeData_eq_storeRaw hrun (decodeStep_escDelim hpending)
  · subst hb
    exact exec_storeData_eq_storeRaw hrun (decodeStep_escEsc hpending)
  · exact (exec_storeData_of_decodeStep hrun (decodeStep_bad_escape hpending hdelim hesc)).trans
      (exec_storeData_of_decodeStep (s := orFlags flagBadEscape (setEscp false s)) hrun rfl).symm

/-- Settles O30: neither query halts a running block or has an effect; the answers are the tests of R79 and R80 as words. -/
theorem producerQueriesAnswer : Obligations.ProducerQueriesAnswer := by
  intro s
  refine ⟨rfl, rfl, fun hrun => ⟨?_, ?_⟩⟩
  · rw [exec_running hrun rfl, answerValue, canAcceptByte, boolWord_decide]; rfl
  · rw [exec_running hrun rfl, answerValue, bufferFull_eq, boolWord_decide, ite_not]; rfl

/-- Settles O31: neither query halts a running block or has an effect; the answers are `REMOVABLE` and whether it is 0. -/
theorem consumerQueriesAnswer : Obligations.ConsumerQueriesAnswer := by
  intro s
  rw [← removable_eq]
  refine ⟨rfl, rfl, fun hrun => ⟨exec_running hrun rfl, ?_⟩⟩
  rw [← boolWord_decide]
  exact exec_running hrun rfl

end Sys2Proof.Machine
end

section
/-! The control commands `STATUS` and `NOP` (42_control.md): the fields of the STATUS word and the decoding of a word of opcode 0
said once, then the statements O42 and O45. -/

namespace Sys2Proof.Machine

/-! ### The fields of the STATUS word (R31) -/

/-- A flag at bit `k` of a word shows at no higher bit. -/
theorem getLsbD_flag_of_lt (b : Bool) {k i : Nat} (h : k < i) :
    ((BitVec.ofBool b).setWidth 32 <<< k).getLsbD i = false := by
  rw [BitVec.getLsbD_shiftLeft, BitVec.getLsbD_setWidth, BitVec.getLsbD_of_ge _ (i - k) (by omega)]
  simp

/-- Above the eight flags the STATUS word is `DIAG` from bit 8 and `PFL` from bit 16, with no flag in the way. -/
theorem getLsbD_statusWord_of_ge (s : State) {i : Nat} (h : 8 ≤ i) (hi : i < 32) :
    (statusWord s).getLsbD i = (s.diag.getLsbD (i - 8) || (!decide (i < 16) && s.pfl.getLsbD (i - 16))) := by
  have hhalt := getLsbD_flag_of_lt s.halt (k := 0) (i := i) (by omega)
  rw [BitVec.shiftLeft_zero] at hhalt
  simp (disch := omega) only [statusWord, BitVec.getLsbD_or, hhalt, getLsbD_flag_of_lt, Bool.false_or]
  simp [hi, Nat.not_lt.mpr h]

theorem extractLsb'_statusWord_diag (s : State) : (statusWord s).extractLsb' 8 8 = s.diag := by
  ext i hi
  rw [BitVec.getElem_extractLsb', getLsbD_statusWord_of_ge s (by omega) (by omega)]
  simp [hi, show 8 + i < 16 by omega]

theorem extractLsb'_statusWord_pfl (s : State) : (statusWord s).extractLsb' 16 8 = s.pfl := by
  ext i hi
  rw [BitVec.getElem_extractLsb', getLsbD_statusWord_of_ge s (by omega) (by omega),
    BitVec.getLsbD_of_ge s.diag _ (by omega)]
  simp [hi]

/-- The top byte is reserved and reads as 0. -/
theorem extractLsb'_statusWord_reserved (s : State) : (statusWord s).extractLsb' 24 8 = 0#8 := by
  ext i hi
  rw [BitVec.getElem_extractLsb', getLsbD_statusWord_of_ge s (by omega) (by omega),
    BitVec.getLsbD_of_ge s.diag _ (by omega), BitVec.getLsbD_of_ge s.pfl _ (by omega)]
  simp

theorem canAcceptByte_iff (s : State) : canAcceptByte s = true ↔ 4 + s.len.toNat + 2 ≤ room s := decide_eq_true_iff

theorem bufferFull_iff (s : State) : bufferFull s = true ↔ ¬ takesByte s := by
  rw [bufferFull_eq, decide_eq_true_iff]

/-! ### Words of opcode 0 (R58, R60, R61) -/

theorem fieldOp_of_lt {w : Word} (h : w.toNat < 2 ^ 24) : fieldOp w = 0#8 := by
  have high : w.toNat >>> 24 = 0 := by rw [Nat.shiftRight_eq_div_pow]; exact Nat.div_eq_of_lt h
  exact BitVec.eq_of_toNat_eq (by rw [fieldOp, BitVec.extractLsb'_toNat, high]; rfl)

/-- Format N reserves every bit below the opcode. -/
theorem and_reserved_N_of_lt {w : Word} (h : w.toNat < 2 ^ 24) : w &&& Format.N.reserved = w :=
  BitVec.eq_of_toNat_eq <|
    calc (w &&& Format.N.reserved).toNat = w.toNat &&& (2 ^ 24 - 1) := BitVec.toNat_and ..
      _ = w.toNat % 2 ^ 24 := Nat.and_two_pow_sub_one_eq_mod ..
      _ = w.toNat := Nat.mod_eq_of_lt h

/-- A word of opcode 0 is `NOP` on every port when it is zero, and has a reserved bit set otherwise. -/
theorem decode_of_lt (p : Port) {w : Word} (h : w.toNat < 2 ^ 24) :
    decode p w = if w = 0#32 then .ok (.nop p) else .error .reservedBit := by
  have hnop : Opcode.ofCode (fieldOp w) = some .nop := fieldOp_of_lt h ▸ ofCode_code .nop
  have hres : w &&& Opcode.nop.format.reserved = w := and_reserved_N_of_lt h
  simp [decode, hnop, hres, Opcode.onPort, Opcode.instr]

theorem encode_nop (p : Port) : encode (.nop p) = 0#32 := (word_eq_zero_iff _ _ _).mpr ⟨rfl, rfl, rfl⟩

/-! ### The statements -/

/-- Settles O42: `STATUS` runs halted or not and answers `statusWord`; its eight flags are bits of the word, two of them the tests
that `CAN_ACCEPT` and `IS_FULL` make, and its three upper bytes are `DIAG`, `PFL` and the reserved byte. -/
theorem statusShowsEveryField : Obligations.StatusShowsEveryField := by
  intro s
  refine ⟨rfl, statusWord s, rfl, ?halt, ?lock, ?escp, ?inMode, ?outMode, ?accept, ?full, ?lost,
    extractLsb'_statusWord_diag s, extractLsb'_statusWord_pfl s, extractLsb'_statusWord_reserved s⟩
  case accept => rw [← canAcceptByte_iff]; simp [statusWord]
  case full => rw [← bufferFull_iff]; simp [statusWord]
  case halt | lock | escp | inMode | outMode | lost => simp [statusWord]

/-- Settles O45: `NOP` never halts a running block and has no effect; the zero word is the one word of its opcode that decodes. -/
theorem nopChangesNothing : Obligations.NopChangesNothing := by
  intro p s
  refine ⟨encode_nop p, ?_, fun hrun => exec_running hrun rfl, fun hhalted => exec_halted hhalted nofun, fun w hne hlt => ?_⟩
  · exact decode_of_lt p (by decide)
  · exact (decode_of_lt p hlt).trans (if_neg hne)

end Sys2Proof.Machine
end

section
/-! The command words (30_encoding.md): the decoder's three checks and its answer said once, each as an equivalence over the
opcode map, then the statements O1 to O4. -/

namespace Sys2Proof

/-! ### The fields of a command's word (R57, R58) -/

@[simp] theorem fieldOp_encode (i : Instr) : fieldOp (encode i) = i.opcode.code := fieldOp_word _ _ _

@[simp] theorem fieldA_encode (i : Instr) : fieldA (encode i) = i.bitsA := fieldA_word _ _ _

@[simp] theorem fieldB_encode (i : Instr) : fieldB (encode i) = i.bitsB := fieldB_word _ _ _

@[simp] theorem fieldE_encode (i : Instr) : fieldE (encode i) = i.bitsA.setWidth 4 := by rw [fieldE_eq, fieldA_encode]

/-- A command read back from its own word (R59). -/
theorem instr_encode (i : Instr) : i.opcode.instr i.port (encode i) = i := by
  cases i <;> simp [Instr.opcode, Opcode.instr, Instr.port, Instr.bitsA, Instr.bitsB]

@[simp] theorem opcode_instr (o : Opcode) (p : Port) (w : Word) : (o.instr p w).opcode = o := by cases o <;> rfl

/-- A command read from a word of its port belongs to that port (R60). -/
theorem port_instr {o : Opcode} {p : Port} (w : Word) (h : o.onPort p = true) : (o.instr p w).port = p := by
  rcases (opcode_onPort (o.instr p w) p).mp ((opcode_instr o p w).symm ▸ h) with hnop | hport
  · rw [opcode_instr] at hnop
    subst hnop
    rfl
  · exact hport

/-! ### The words of a format (R58) -/

/-- A word with no reserved bit of its format set has none in either of its operand fields. -/
theorem fields_of_reserved {w : Word} {f : Format} (h : w &&& f.reserved = 0#32) :
    fieldA w &&& f.reservedA = 0#16 ∧ fieldB w &&& f.reservedB = 0#8 := by
  rw [reserved_eq, ← word_of_fields w, word_and, word_eq_zero_iff] at h
  exact h.2

/-- A field of 16 bits whose upper 12 are 0 is its lower four bits. -/
theorem setWidth_setWidth_of_and {a : BitVec 16} (h : a &&& 0xFFF0#16 = 0#16) : (a.setWidth 4).setWidth 16 = a := by
  have high : ∀ k : Fin 16, ¬ k.val < 4 → (0xFFF0#16).getLsbD k.val = true := by decide
  refine BitVec.eq_of_getLsbD_eq fun k hk => ?_
  by_cases hlow : k < 4
  · simp [hk, hlow]
  · have hzero : (a &&& 0xFFF0#16).getLsbD k = false := by rw [h, BitVec.getLsbD_zero]
    rw [BitVec.getLsbD_and, high ⟨k, hk⟩ hlow, Bool.and_true] at hzero
    simp [hlow, hzero]

theorem and_allOnes_16_eq_zero {a : BitVec 16} (h : a &&& 0xFFFF#16 = 0#16) : 0#16 = a :=
  h.symm.trans (BitVec.and_allOnes (x := a))

theorem and_allOnes_8_eq_zero {b : Byte} (h : b &&& 0xFF#8 = 0#8) : 0#8 = b :=
  h.symm.trans (BitVec.and_allOnes (x := b))

/-- The operands of a command read from a word with no reserved bit are all of that word's lower 24 bits. -/
theorem bits_instr {o : Opcode} {w : Word} (p : Port) (h : w &&& o.format.reserved = 0#32) :
    (o.instr p w).bitsA = fieldA w ∧ (o.instr p w).bitsB = fieldB w := by
  obtain ⟨hA, hB⟩ := fields_of_reserved h
  cases o
  case rxByte => exact ⟨by rw [Opcode.instr, Instr.bitsA, fieldE_eq, setWidth_setWidth_of_and hA], rfl⟩
  case rd => exact ⟨rfl, and_allOnes_8_eq_zero hB⟩
  case storeRaw | storeData | setMode | setSource | wrCursor | txByte => exact ⟨and_allOnes_16_eq_zero hA, rfl⟩
  all_goals exact ⟨and_allOnes_16_eq_zero hA, and_allOnes_8_eq_zero hB⟩

/-- Encoding a command read from a word with no reserved bit gives the word back. -/
theorem encode_instr {o : Opcode} {w : Word} (p : Port) (hop : o.code = fieldOp w) (h : w &&& o.format.reserved = 0#32) :
    encode (o.instr p w) = w := by
  obtain ⟨hA, hB⟩ := bits_instr p h
  rw [encode, opcode_instr, hop, hA, hB, word_of_fields]

/-! ### The checks of the decoder (R61) -/

/-- Decoding once the row of the map is known. -/
theorem decode_of_code {o : Opcode} {w : Word} (p : Port) (h : o.code = fieldOp w) :
    decode p w = if o.onPort p = false then .error .otherPort
      else if w &&& o.format.reserved = 0#32 then .ok (o.instr p w) else .error .reservedBit := by
  rw [decode, ← h, ofCode_code]

/-- What the decoder can answer, and when (R60, R61). -/
theorem decode_cases (p : Port) (w : Word) :
    ((∀ o : Opcode, o.code ≠ fieldOp w) ∧ decode p w = .error .unassignedOpcode) ∨
      ∃ o : Opcode, o.code = fieldOp w ∧
        ((¬ o.onPort p = true ∧ decode p w = .error .otherPort) ∨
          (o.onPort p = true ∧ w &&& o.format.reserved = 0#32 ∧ decode p w = .ok (o.instr p w)) ∨
          (o.onPort p = true ∧ w &&& o.format.reserved ≠ 0#32 ∧ decode p w = .error .reservedBit)) := by
  by_cases hrow : ∃ o : Opcode, o.code = fieldOp w
  · obtain ⟨o, ho⟩ := hrow
    refine .inr ⟨o, ho, ?_⟩
    rw [decode_of_code p ho]
    cases hport : o.onPort p with
    | false => exact .inl ⟨nofun, rfl⟩
    | true =>
      by_cases hres : w &&& o.format.reserved = 0#32
      · exact .inr (.inl ⟨rfl, hres, if_pos hres⟩)
      · exact .inr (.inr ⟨rfl, hres, if_neg hres⟩)
  · have hnone := not_exists.mp hrow
    exact .inl ⟨hnone, by rw [decode, (ofCode_eq_none_iff _).mpr hnone]⟩

/-- Check 1 speaks exactly where no row has the opcode. -/
theorem decode_eq_unassignedOpcode_iff (p : Port) (w : Word) :
    decode p w = .error .unassignedOpcode ↔ ∀ o : Opcode, o.code ≠ fieldOp w := by
  refine ⟨fun hdec => ?_, fun hnone => by rw [decode, (ofCode_eq_none_iff _).mpr hnone]⟩
  obtain ⟨hnone, -⟩ | ⟨o, -, ⟨-, e⟩ | ⟨-, -, e⟩ | ⟨-, -, e⟩⟩ := decode_cases p w
  · exact hnone
  all_goals cases e.symm.trans hdec

/-- Check 2 speaks exactly where a row of another port has the opcode. -/
theorem decode_eq_otherPort_iff (p : Port) (w : Word) :
    decode p w = .error .otherPort ↔ ∃ o : Opcode, o.code = fieldOp w ∧ ¬ o.onPort p = true := by
  refine ⟨fun hdec => ?_, fun ⟨o, ho, hport⟩ => by simp [decode_of_code p ho, hport]⟩
  obtain ⟨-, e⟩ | ⟨o, ho, ⟨hport, e⟩ | ⟨-, -, e⟩ | ⟨-, -, e⟩⟩ := decode_cases p w <;> cases e.symm.trans hdec
  exact ⟨o, ho, hport⟩

/-- Check 3 speaks exactly where a row of the port has the opcode and a reserved bit of its format is set. -/
theorem decode_eq_reservedBit_iff (p : Port) (w : Word) :
    decode p w = .error .reservedBit ↔
      ∃ o : Opcode, o.code = fieldOp w ∧ o.onPort p = true ∧ w &&& o.format.reserved ≠ 0#32 := by
  refine ⟨fun hdec => ?_, fun ⟨o, ho, hport, hres⟩ => by simp [decode_of_code p ho, hport, hres]⟩
  obtain ⟨-, e⟩ | ⟨o, ho, ⟨-, e⟩ | ⟨-, -, e⟩ | ⟨hport, hres, e⟩⟩ := decode_cases p w <;> cases e.symm.trans hdec
  exact ⟨o, ho, hport, hres⟩

/-- A word is a command exactly where it passes the three checks. -/
theorem decode_eq_ok_iff (p : Port) (w : Word) (i : Instr) :
    decode p w = .ok i ↔
      ∃ o : Opcode, o.code = fieldOp w ∧ o.onPort p = true ∧ w &&& o.format.reserved = 0#32 ∧ o.instr p w = i := by
  refine ⟨fun hdec => ?_, fun ⟨o, ho, hport, hres, hi⟩ => by simp [decode_of_code p ho, hport, hres, hi]⟩
  obtain ⟨-, e⟩ | ⟨o, ho, ⟨-, e⟩ | ⟨hport, hres, e⟩ | ⟨-, -, e⟩⟩ := decode_cases p w <;> cases e.symm.trans hdec
  exact ⟨o, ho, hport, hres, rfl⟩

/-! ### The ranges of the opcode map (R60) -/

/-- `OP` as a number is the top byte of the word. -/
theorem fieldOp_toNat (w : Word) : (fieldOp w).toNat = w.toNat >>> 24 := by
  have hlt : w.toNat >>> 24 < 2 ^ 8 := by rw [Nat.shiftRight_eq_div_pow]; have := w.isLt; omega
  rw [fieldOp, BitVec.extractLsb'_toNat, Nat.mod_eq_of_lt hlt]

theorem code_eq_fieldOp_iff (o : Opcode) (w : Word) : o.code = fieldOp w ↔ o.code.toNat = w.toNat >>> 24 := by
  rw [← BitVec.toNat_inj, fieldOp_toNat]

/-- The value of `OP[7:6]` that names a port (R57). -/
def Port.code : Port → Nat
  | .producer => 0
  | .consumer => 1
  | .tx => 2

/-- The port column agrees with `OP[7:6]`, `NOP` apart (R57, R60). -/
theorem onPort_iff (o : Opcode) (p : Port) : o.onPort p = true ↔ o = .nop ∨ o.code.toNat >>> 6 = p.code := by
  cases o <;> cases p <;> decide

/-- `OP[7:6]` is the top of the word. -/
theorem code_shiftRight {o : Opcode} {w : Word} (h : o.code.toNat = w.toNat >>> 24) :
    o.code.toNat >>> 6 = w.toNat >>> 30 := by
  rw [h, ← Nat.shiftRight_add]

/-- The bytes that are no opcode (R60). -/
theorem ofCode_eq_none_iff_range : ∀ c : Byte, Opcode.ofCode c = none ↔
    (0x0A ≤ c.toNat ∧ c.toNat ≤ 0x40) ∨ (0x4B ≤ c.toNat ∧ c.toNat ≤ 0x80) ∨ 0x83 ≤ c.toNat := by
  decide

/-! ### The statements -/

/-- Settles O1: the ten words are closed, and so is their decoding. -/
theorem specWordsDecode : Obligations.SpecWordsDecode := by
  unfold Obligations.SpecWordsDecode
  decide

/-- Settles O2: the word of a command passes the three checks, and its fields give the operands back. -/
theorem decodeOfEncode : Obligations.DecodeOfEncode := by
  intro p i hwf
  obtain rfl : i.port = p := by simpa [Instr.wellFormedOn] using hwf
  exact (decode_eq_ok_iff _ _ _).mpr
    ⟨i.opcode, (fieldOp_encode i).symm, (opcode_onPort i _).mpr (.inr rfl), encode_reserved i, instr_encode i⟩

/-- Settles O3: a word that passes the three checks is put together again from its opcode and its operands. -/
theorem encodeOfDecode : Obligations.EncodeOfDecode := by
  intro p w i hdec
  obtain ⟨o, hop, hport, hres, rfl⟩ := (decode_eq_ok_iff p w i).mp hdec
  exact ⟨by simp [Instr.wellFormedOn, port_instr w hport], encode_instr p hop hres⟩

/-- Settles O4: each check's equivalence, with the rows of the map as ranges of bytes and the port column as `OP[7:6]`. -/
theorem illegalWordChecksInOrder : Obligations.IllegalWordChecksInOrder := by
  intro p w
  refine ⟨?unassigned, ?other, ?reserved⟩
  case unassigned =>
    rw [decode_eq_unassignedOpcode_iff, ← ofCode_eq_none_iff, ofCode_eq_none_iff_range, fieldOp_toNat]
  case other =>
    rw [decode_eq_otherPort_iff]
    refine exists_congr fun o => ?_
    rw [code_eq_fieldOp_iff, onPort_iff, not_or]
    exact and_congr_right fun hop => by rw [code_shiftRight hop]; rfl
  case reserved =>
    rw [decode_eq_reservedBit_iff]
    refine exists_congr fun o => ?_
    rw [code_eq_fieldOp_iff, onPort_iff]
    exact and_congr_right fun hop => by rw [code_shiftRight hop]; rfl

end Sys2Proof
end

section
/-! The invariants (R37, R110): a predicate that every shared operation, every answer, every halt and every reset keeps is kept by
every step. This is said once, and the statements O15 to O19 and O21 follow from what the single operations keep. -/

namespace Sys2Proof.Machine

/-! ### Predicates that every operation keeps -/

/-- Every operation of the block keeps `P`, and reset gives it. -/
structure Preserved (P : State → Prop) : Prop where
  escape : ∀ b s, P s → P (setEscp b s)
  flag : ∀ f s, f &&& 0xC0#8 = 0x00#8 → P s → P (orFlags f s)
  append : ∀ b s, P s → P (appendByte b s)
  committed : ∀ s, hdr + s.len.toNat + 1 ≤ room s → P s → P (commit s)
  losing : ∀ s, P s → P (losePacket s)
  sync : ∀ s, P s → P (doForceSync s)
  modes : ∀ i o s, P s → P (setModes i o s)
  source : ∀ v s, v.toNat < srcLimit → P s → P (setSrc v s)
  lost : ∀ b s, P s → P (setLost b s)
  hold : ∀ s, 0 < s.npk → P s → P (setLock true s)
  free : ∀ s, s.lock = true ∨ 0 < s.npk → P s → P (setLock false (freeOldest s))
  cursor : ∀ v s, s.lock = true → v.toNat ≤ lengthAt s s.old → P s → P (memWrite (s.old + 2) v s)
  copied : ∀ bs s, P s → P (emitConsumer bs s)
  sent : ∀ bs s, P s → P (emitTx bs s)
  response : ∀ p r s, P s → P (setResponse p r s)
  halting : ∀ p c s, c ≠ 0x00#8 → c.toNat ≤ 5 → P s → P (fatal p c s)
  inputs : ∀ l s, P s → P { s with inputs := l }
  reset : ∀ s, P (applyReset s)

section
variable {P : State → Prop} (hP : Preserved P) {s : State}
include hP

theorem Preserved.endEscape (h : P s) : P (endEscape s) := by
  rcases endEscape_cases s with ⟨-, e⟩ | ⟨-, e⟩ <;> rw [e]
  · exact h
  · exact hP.escape _ _ (hP.flag _ _ (by decide) h)

theorem Preserved.doFinish (h : P s) : P (doFinish s) := by
  have hroom : room (Machine.endEscape s) = room s := room_congr (by simp) (by simp) (by simp) (by simp)
  rcases doFinish_cases s with ⟨hfits, e⟩ | ⟨-, e⟩ <;> rw [e]
  · exact hP.committed _ (by simpa [hroom] using hfits) (hP.endEscape h)
  · exact hP.losing _ (hP.endEscape h)

theorem Preserved.decodeStep (b : Byte) (d : Bool) (h : P s) : P (decodeStep b d s) :=
  decodeStep_keeps b d h (hP.escape false) (fun u hu => hP.flag _ u (by decide) hu) (fun _ hu => hP.doFinish hu)
    (hP.escape true) hP.append

theorem Preserved.foldErrors (e : BitVec 4) (h : P s) : P (foldErrors e s) :=
  hP.flag _ _ ((by decide : ∀ e : BitVec 4, e.setWidth 8 &&& 0xC0#8 = 0x00#8) e) h

theorem Preserved.receiveByte (b : Byte) (h : P s) : P (receiveByte b s) := by
  unfold Machine.receiveByte
  split
  · exact hP.doFinish (hP.append _ _ h)
  · exact hP.decodeStep _ _ h

theorem Preserved.writeModes (v : Byte) (h : P s) : P (writeModes v s) := by
  unfold Machine.writeModes
  split
  · exact hP.modes _ _ _ h
  · exact hP.modes _ _ _ (hP.sync _ h)

end

/-- Freeing a Packet that no dispatch holds leaves `LOCK` as it is. -/
theorem setLock_freeOldest_of_unlocked {s : State} (h : s.lock = false) : setLock false (freeOldest s) = freeOldest s := by
  simp [setLock, freeOldest, ← h]

/-- A cursor that is written lies within the held Packet (R89). -/
theorem haltCode_wrCursor_eq_none_iff (v : Byte) (s : State) :
    haltCode (.wrCursor v) s = none ↔ s.lock = true ∧ v.toNat ≤ lengthAt s s.old := by
  cases hlock : s.lock <;> simp [haltCode, hlock]

/-- What every operation keeps, every command's effect keeps. -/
theorem Preserved.effect {P : State → Prop} (hP : Preserved P) {i : Instr} {s : State} (h : P s)
    (hc : haltCode i s = none) : P (effect i s) := by
  cases i with
  | nop | canAccept | isFull | count | isEmpty | rd | status | check => exact h
  | rxByte b e => exact hP.receiveByte b (hP.foldErrors e h)
  | storeRaw b => exact hP.append b s h
  | storeData b => exact hP.decodeStep b false h
  | finish => exact hP.doFinish h
  | forceSync => exact hP.sync s h
  | setMode v => exact hP.writeModes v h
  | setSource v => exact hP.source v s (by simpa [haltCode, sourceLegal] using hc) h
  | dispatchBegin =>
    rw [Machine.effect]
    split
    · exact h
    · exact hP.hold s (by omega) h
  | dispatchEnd => exact hP.free s (.inl (by simpa [haltCode] using hc)) h
  | copyOut =>
    rw [Machine.effect]
    split
    · exact h
    · have hlock : s.lock = false := by simpa [haltCode] using hc
      rw [← setLock_freeOldest_of_unlocked (s := emitConsumer (packetBytes s s.old) s) hlock]
      exact hP.free _ (.inr (by simp; omega)) (hP.copied _ s h)
  | wrCursor v =>
    obtain ⟨hlock, hle⟩ := (haltCode_wrCursor_eq_none_iff v s).mp hc
    exact hP.cursor v s hlock hle h
  | clearLost => exact hP.lost false s h
  | txByte b => exact hP.sent _ s h
  | txEnd => exact hP.sent _ s h

/-- What every operation keeps, every step keeps. -/
theorem Preserved.step {P : State → Prop} (hP : Preserved P) {s t : State} (h : P s) (e : step s = .next t) : P t :=
  step_keeps h (fun u l hu => hP.inputs l u hu) hP.reset (fun u p r hu => hP.response p r u hu)
    (fun u p c hc hle hu => hP.halting p c u hc hle hu) (fun _ _ hu _ hc => hP.effect hu hc) e

/-! ### The registers (R37) -/

/-- The ranges of the registers look at nine of them only. -/
theorem State.RegisterInv.of_same {s t : State} (h : s.RegisterInv) (hc : t.cfg = s.cfg) (hl : t.len = s.len)
    (hw : t.w = s.w) (hk : t.lock = s.lock) (hn : t.npk = s.npk) (hp : t.pfl = s.pfl) (hs : t.src = s.src)
    (hh : t.halt = s.halt) (hg : t.diag = s.diag) : t.RegisterInv where
  lenAtMost := hl ▸ h.lenAtMost
  writeIndexPlaced := by rw [hw, hc]; exact h.writeIndexPlaced
  lockHoldsPacket := by rw [hk, hn]; exact h.lockHoldsPacket
  pflBits := hp ▸ h.pflBits
  haltIffCode := by rw [hh, hg]; exact h.haltIffCode
  codeKnown := hg ▸ h.codeKnown
  sourceTagLegal := hs ▸ h.sourceTagLegal

/-- Bits that two flag bytes leave clear, their union leaves clear. -/
theorem or_and_eq_zero {a b m : Byte} (ha : a &&& m = 0x00#8) (hb : b &&& m = 0x00#8) : (a ||| b) &&& m = 0x00#8 := by
  rw [BitVec.and_comm, BitVec.and_or_distrib_left, BitVec.and_comm m a, BitVec.and_comm m b, ha, hb]
  rfl

theorem registerInv_appendByte {s : State} (b : Byte) (h : s.RegisterInv) : (appendByte b s).RegisterInv := by
  rcases appendByte_cases b s with ⟨hlt, -, e⟩ | ⟨-, e⟩ <;> rw [e]
  · exact { h with lenAtMost := by simp only [len_add_one hlt]; exact hlt }
  · exact { h with pflBits := or_and_eq_zero h.pflBits (by decide) }

theorem registerInv_commit {s : State} (h : s.RegisterInv) : (commit s).RegisterInv where
  lenAtMost := by simp
  writeIndexPlaced := by simpa using nextPosition_le _ _
  lockHoldsPacket := fun _ => by simp
  pflBits := by simp
  haltIffCode := by simpa using h.haltIffCode
  codeKnown := by simpa using h.codeKnown
  sourceTagLegal := by simpa using h.sourceTagLegal

/-- A partial Packet that is abandoned, or lost, leaves the registers in their ranges. -/
theorem registerInv_of_abandoned {s t : State} (h : s.RegisterInv) (e : t = doForceSync s ∨ t = losePacket s) :
    t.RegisterInv := by
  rcases e with rfl | rfl <;> exact { h with lenAtMost := by simp, pflBits := by simp }

theorem registerInv_applyReset (s : State) : (applyReset s).RegisterInv := by
  constructor <;> simp [applyReset, State.resetWith]

theorem registerInv_fatal {s : State} (p : Port) {c : Byte} (hc : c ≠ 0x00#8) (hle : c.toNat ≤ 5) (h : s.RegisterInv) :
    (fatal p c s).RegisterInv where
  lenAtMost := by simpa using h.lenAtMost
  writeIndexPlaced := by simpa using h.writeIndexPlaced
  lockHoldsPacket := by simpa using h.lockHoldsPacket
  pflBits := by simpa using h.pflBits
  haltIffCode := by simpa using hc
  codeKnown := by simpa using hle
  sourceTagLegal := by simpa using h.sourceTagLegal

theorem registerInv_preserved : Preserved State.RegisterInv where
  escape _ _ h := h.of_same rfl rfl rfl rfl rfl rfl rfl rfl rfl
  flag _ _ hf h := { h with pflBits := or_and_eq_zero h.pflBits hf }
  append b _ h := registerInv_appendByte b h
  committed _ _ h := registerInv_commit h
  losing _ h := registerInv_of_abandoned h (.inr rfl)
  sync _ h := registerInv_of_abandoned h (.inl rfl)
  modes _ _ _ h := h.of_same rfl rfl rfl rfl rfl rfl rfl rfl rfl
  source _ _ hv h := { h with sourceTagLegal := hv }
  lost _ _ h := h.of_same rfl rfl rfl rfl rfl rfl rfl rfl rfl
  hold _ hn h := { h with lockHoldsPacket := fun _ => hn }
  free _ _ h := { h with lockHoldsPacket := nofun }
  cursor _ _ _ _ h := h.of_same rfl rfl rfl rfl rfl rfl rfl rfl rfl
  copied _ _ h := h.of_same rfl rfl rfl rfl rfl rfl rfl rfl rfl
  sent _ _ h := h.of_same rfl rfl rfl rfl rfl rfl rfl rfl rfl
  response _ _ _ h := h.of_same (by simp) (by simp) (by simp) (by simp) (by simp) (by simp) (by simp) (by simp) (by simp)
  halting p _ _ hc hle h := registerInv_fatal p hc hle h
  inputs _ _ h := h.of_same rfl rfl rfl rfl rfl rfl rfl rfl rfl
  reset := registerInv_applyReset

/-! ### The memory list (R38, R39) -/

theorem State.MemoryInv.of_same {s t : State} (h : s.MemoryInv) (hc : t.cfg = s.cfg) (hm : t.mem = s.mem) : t.MemoryInv where
  canonical := hm ▸ h.canonical
  inside := by rw [hm, hc]; exact h.inside

theorem memoryInv_appendByte {s : State} (b : Byte) (h : s.MemoryInv) : (appendByte b s).MemoryInv := by
  rcases appendByte_cases b s with ⟨-, -, e⟩ | ⟨-, e⟩ <;> rw [e]
  · exact (memWrite_keeps_memoryInv _ b h).of_same rfl rfl
  · exact h.of_same rfl rfl

theorem memoryInv_preserved : Preserved State.MemoryInv where
  escape _ _ h := h.of_same rfl rfl
  flag _ _ _ h := h.of_same rfl rfl
  append b _ h := memoryInv_appendByte b h
  committed s _ h := (writeBytes_keeps_memoryInv (commitWrites s) h).of_same (by simp) (by simp)
  losing _ h := h.of_same rfl rfl
  sync _ h := h.of_same rfl rfl
  modes _ _ _ h := h.of_same rfl rfl
  source _ _ _ h := h.of_same rfl rfl
  lost _ _ h := h.of_same rfl rfl
  hold _ _ h := h.of_same rfl rfl
  free _ _ h := h.of_same rfl rfl
  cursor v _ _ _ h := memWrite_keeps_memoryInv _ v h
  copied _ _ h := h.of_same rfl rfl
  sent _ _ h := h.of_same rfl rfl
  response _ _ _ h := h.of_same (by simp) (by simp)
  halting _ _ _ _ _ h := h.of_same (by simp) (by simp)
  inputs _ _ h := h.of_same rfl rfl
  reset _ := ⟨rfl, nofun⟩

/-! ### All invariants (R37) -/

/-- A block with no Packet and nothing written meets every invariant, whatever its unwritten bytes and its inputs. -/
theorem inv_resetWith (c : Config) (d : Nat) (l : List Event) :
    ({ State.resetWith c with draws := d, inputs := l } : State).Inv where
  registers := by constructor <;> simp [State.resetWith]
  memory := ⟨rfl, nofun⟩
  ring := by constructor <;> simp [State.resetWith, occupying, walk, walkSound]

theorem writtenInv_resetWith (c : Config) (d : Nat) (l : List Event) :
    ({ State.resetWith c with draws := d, inputs := l } : State).WrittenInv where
  packets := nofun
  inProgress := nofun

theorem State.Inv.withInputs {s : State} (h : s.Inv) (l : List Event) : (s.withInputs l).Inv :=
  h.of_same rfl rfl rfl rfl rfl rfl rfl rfl h.registers.pflBits h.registers.sourceTagLegal h.registers.haltIffCode
    h.registers.codeKnown

/-! ### The bytes that have been written (R110) -/

/-- The length byte of a stored Packet is not the cursor byte of the held one (R46). -/
theorem lengthAt_writeCursor {s : State} (h : s.Inv) (hn : 0 < s.npk) (v : Byte) {p : Nat} (hp : p ∈ occupying s) :
    lengthAt (memWrite (s.old + 2) v s) p = lengthAt s p := by
  have hapart : p = s.old ∨ spanEnd s s.old ≤ p ∨ spanEnd s p ≤ s.old := by
    have hpairs := h.ring.spansApart
    rw [occupying_cons hn] at hpairs hp
    exact (List.mem_cons.mp hp).imp_right ((List.pairwise_cons.mp hpairs).1 p)
  have hend := spanEnd_le (h.ring.sound hp)
  have hend' := spanEnd_le (h.ring.sound (old_mem_occupying hn))
  simp only [spanEnd] at hapart hend hend'
  unfold lengthAt
  rw [memRead_memWrite_other]
  rw [maskIndex_of_lt (by omega), maskIndex_of_lt (by omega)]
  omega

theorem State.WrittenInv.writeCursor {s : State} (h : s.WrittenInv) (hi : s.Inv) (hn : 0 < s.npk) (v : Byte) :
    (memWrite (s.old + 2) v s).WrittenInv := by
  have hlen : ∀ p ∈ occupying s, lengthAt (memWrite (s.old + 2) v s) p = lengthAt s p :=
    fun _ hp => lengthAt_writeCursor hi hn v hp
  have hadd : ∀ a, writtenAt s a → writtenAt (memWrite (s.old + 2) v s) a :=
    fun a ha => (writtenAt_memWrite s _ a v).mpr (.inr ha)
  exact h.of_same (walk_congr (s := s) (t := memWrite (s.old + 2) v s) rfl _ _ hlen).1 hlen hadd
    fun j hj => hadd _ (h.inProgress j hj)

theorem State.WrittenInv.freeOldest {s : State} (h : s.WrittenInv) (hn : 0 < s.npk) :
    (setLock false (freeOldest s)).WrittenInv where
  packets p hp := by
    have hrest : occupying (setLock false (Machine.freeOldest s)) = (occupying s).tail :=
      (occupying_congr (s := Machine.freeOldest s) (t := setLock false (Machine.freeOldest s)) rfl rfl rfl rfl rfl).trans
        (occupying_freeOldest hn)
    rw [hrest] at hp
    exact h.packets p (List.mem_of_mem_tail hp)
  inProgress := h.inProgress

/-- Every invariant of the block, and R110. -/
structure State.FullInv (s : State) : Prop where
  inv : s.Inv
  written : s.WrittenInv

theorem fullInv_preserved : Preserved State.FullInv where
  escape b _ h := ⟨h.inv.setEscp b, h.written.of_fields rfl rfl rfl (.inl rfl) rfl rfl rfl⟩
  flag _ _ hf h := ⟨h.inv.orFlags hf, h.written.of_fields rfl rfl rfl (.inl rfl) rfl rfl rfl⟩
  append b _ h := ⟨h.inv.appendByte b, h.written.appendByte h.inv b⟩
  committed _ hroom h := ⟨h.inv.commit hroom, h.written.commit h.inv hroom⟩
  losing _ h := ⟨h.inv.losePacket, h.written.of_fields rfl rfl rfl (.inr rfl) rfl rfl rfl⟩
  sync _ h := ⟨h.inv.doForceSync, h.written.of_fields rfl rfl rfl (.inr rfl) rfl rfl rfl⟩
  modes i o _ h := ⟨h.inv.setModes i o, h.written.of_fields rfl rfl rfl (.inl rfl) rfl rfl rfl⟩
  source _ _ hv h := ⟨h.inv.setSrc hv, h.written.of_fields rfl rfl rfl (.inl rfl) rfl rfl rfl⟩
  lost b _ h := ⟨h.inv.setLost b, h.written.of_fields rfl rfl rfl (.inl rfl) rfl rfl rfl⟩
  hold _ hn h := ⟨h.inv.hold hn, h.written.of_fields rfl rfl rfl (.inl rfl) rfl rfl rfl⟩
  free _ hpacket h :=
    have hn := hpacket.elim h.inv.registers.lockHoldsPacket id
    ⟨h.inv.freeOldest hn, h.written.freeOldest hn⟩
  cursor v _ hlock hle h :=
    ⟨h.inv.writeCursor hlock hle, h.written.writeCursor h.inv (h.inv.registers.lockHoldsPacket hlock) v⟩
  copied bs _ h := ⟨h.inv.emitConsumer bs, h.written.of_fields rfl rfl rfl (.inl rfl) rfl rfl rfl⟩
  sent bs _ h := ⟨h.inv.emitTx bs, h.written.of_fields rfl rfl rfl (.inl rfl) rfl rfl rfl⟩
  response p r _ h :=
    ⟨h.inv.setResponse p r, h.written.of_fields (by simp) (by simp) (by simp) (.inl (by simp)) (by simp) (by simp) (by simp)⟩
  halting p _ _ hc hle h :=
    ⟨h.inv.fatal p hc hle, h.written.of_fields (by simp) (by simp) (by simp) (.inl (by simp)) (by simp) (by simp) (by simp)⟩
  inputs l _ h := ⟨h.inv.withInputs l, h.written.of_fields rfl rfl rfl (.inl rfl) rfl rfl rfl⟩
  reset _ := ⟨inv_resetWith _ _ _, writtenInv_resetWith _ _ _⟩

/-! ### `CHECK` (R94) -/

/-- The tests of `CHECK` are among the invariants. -/
theorem State.Inv.checkPasses {s : State} (h : s.Inv) : checkPasses s = true := by
  have hlock : s.lock.toNat ≤ s.npk := by
    cases hl : s.lock with
    | false => exact Nat.zero_le _
    | true => exact h.registers.lockHoldsPacket hl
  have hempty : 0 < s.npk ∨ s.old = s.w := (Nat.eq_zero_or_pos s.npk).symm.imp_right h.ring.emptyAtWrite
  simpa [Machine.checkPasses, h.ring.countAtMost, hlock, h.registers.lenAtMost, h.ring.walkReachesWrite] using hempty

/-! ### The statements -/

/-- Settles O15: right after reset nothing is stored and nothing is written. -/
theorem resetMeetsInvariants : Obligations.ResetMeetsInvariants :=
  fun c => ⟨inv_resetWith c 0 [], writtenInv_resetWith c 0 []⟩

/-- Settles O16: every operation keeps the ranges of the registers. -/
theorem stepKeepsRegisterRanges : Obligations.StepKeepsRegisterRanges :=
  fun _ _ h e => registerInv_preserved.step h e

/-- Settles O17: every operation keeps the memory list canonical and inside the index space. -/
theorem stepKeepsMemoryCanonical : Obligations.StepKeepsMemoryCanonical :=
  fun _ _ h e => memoryInv_preserved.step h e

/-- Settles O18: reset meets all invariants, and every command's effect keeps them. -/
theorem stepKeepsAllInvariants : Obligations.StepKeepsAllInvariants := fun _ _ h e =>
  step_keeps h (fun _ l hu => hu.withInputs l) (fun _ => inv_resetWith _ _ _) (fun _ p r hu => hu.setResponse p r)
    (fun _ p _ hc hle hu => hu.fatal p hc hle) (fun _ _ hu _ hc => hu.effect hc) e

/-- Settles O19: every operation keeps the invariants and R110 together. -/
theorem stepKeepsReadBytesWritten : Obligations.StepKeepsReadBytesWritten :=
  fun _ _ h hwritten e => (fullInv_preserved.step ⟨h, hwritten⟩ e).written

/-- Settles O21: in a running block `CHECK` halts only where one of its tests fails. -/
theorem checkPassesUnderInvariants : Obligations.CheckPassesUnderInvariants :=
  fun _ h hrun => exec_running hrun (if_pos h.checkPasses)

end Sys2Proof.Machine
end

section
/-! Frames: which commands write which register, stream or byte (R16 to R26, R36, R38), and what follows for the read-only commands
(R51), the TX port (R71, R72) and the level outputs (R102). One lemma for each register says which commands' effects write it;
`exec_field` lifts it to the command. Then the statements O54 to O58. -/

namespace Sys2Proof.Machine

/-! ### `receiveByte`: the fields it leaves alone -/

section
variable (b : Byte) (s : State)

@[simp] theorem receiveByte_cfg : (receiveByte b s).cfg = s.cfg := by unfold receiveByte; split <;> simp
@[simp] theorem receiveByte_old : (receiveByte b s).old = s.old := by unfold receiveByte; split <;> simp
@[simp] theorem receiveByte_lock : (receiveByte b s).lock = s.lock := by unfold receiveByte; split <;> simp
@[simp] theorem receiveByte_inMode : (receiveByte b s).inMode = s.inMode := by unfold receiveByte; split <;> simp
@[simp] theorem receiveByte_outMode : (receiveByte b s).outMode = s.outMode := by unfold receiveByte; split <;> simp
@[simp] theorem receiveByte_src : (receiveByte b s).src = s.src := by unfold receiveByte; split <;> simp
@[simp] theorem receiveByte_halt : (receiveByte b s).halt = s.halt := by unfold receiveByte; split <;> simp
@[simp] theorem receiveByte_diag : (receiveByte b s).diag = s.diag := by unfold receiveByte; split <;> simp
@[simp] theorem receiveByte_draws : (receiveByte b s).draws = s.draws := by unfold receiveByte; split <;> simp
@[simp] theorem receiveByte_txOut : (receiveByte b s).txOut = s.txOut := by unfold receiveByte; split <;> simp
@[simp] theorem receiveByte_copyOut : (receiveByte b s).copyOut = s.copyOut := by unfold receiveByte; split <;> simp
@[simp] theorem receiveByte_resp : (receiveByte b s).resp = s.resp := by unfold receiveByte; split <;> simp
@[simp] theorem receiveByte_inputs : (receiveByte b s).inputs = s.inputs := by unfold receiveByte; split <;> simp

end

/-! ### `writeModes` and decoding without delimiter detection: the fields they leave alone -/

/-- Both modes are written, and of the other registers only those of the partial Packet can change (R70). -/
theorem writeModes_eq (v : Byte) (s : State) :
    writeModes v s = { s with
      inMode := operandInMode v, outMode := operandOutMode v, escp := (writeModes v s).escp, len := (writeModes v s).len,
      pfl := (writeModes v s).pfl } := by
  unfold writeModes
  split <;> rfl

section
variable (v : Byte) (s : State)

@[simp] theorem writeModes_cfg : (writeModes v s).cfg = s.cfg := by rw [writeModes_eq]
@[simp] theorem writeModes_w : (writeModes v s).w = s.w := by rw [writeModes_eq]
@[simp] theorem writeModes_old : (writeModes v s).old = s.old := by rw [writeModes_eq]
@[simp] theorem writeModes_npk : (writeModes v s).npk = s.npk := by rw [writeModes_eq]
@[simp] theorem writeModes_lock : (writeModes v s).lock = s.lock := by rw [writeModes_eq]
@[simp] theorem writeModes_src : (writeModes v s).src = s.src := by rw [writeModes_eq]
@[simp] theorem writeModes_lost : (writeModes v s).lost = s.lost := by rw [writeModes_eq]
@[simp] theorem writeModes_halt : (writeModes v s).halt = s.halt := by rw [writeModes_eq]
@[simp] theorem writeModes_diag : (writeModes v s).diag = s.diag := by rw [writeModes_eq]
@[simp] theorem writeModes_mem : (writeModes v s).mem = s.mem := by rw [writeModes_eq]
@[simp] theorem writeModes_draws : (writeModes v s).draws = s.draws := by rw [writeModes_eq]
@[simp] theorem writeModes_txOut : (writeModes v s).txOut = s.txOut := by rw [writeModes_eq]
@[simp] theorem writeModes_copyOut : (writeModes v s).copyOut = s.copyOut := by rw [writeModes_eq]
@[simp] theorem writeModes_resp : (writeModes v s).resp = s.resp := by rw [writeModes_eq]
@[simp] theorem writeModes_inputs : (writeModes v s).inputs = s.inputs := by rw [writeModes_eq]

end

/-- Without delimiter detection no Packet ends, so neither `W`, `NPK` nor `LOST` changes (R78). -/
theorem decodeStep_off_ring (b : Byte) (s : State) :
    (decodeStep b false s).w = s.w ∧ (decodeStep b false s).npk = s.npk ∧ (decodeStep b false s).lost = s.lost := by
  refine decodeStep_keeps_off (P := fun u => u.w = s.w ∧ u.npk = s.npk ∧ u.lost = s.lost) b ⟨rfl, rfl, rfl⟩
    (fun _ hu => hu) (fun _ hu => hu) (fun _ hu => hu) fun c u hu => ?_
  simpa using hu

/-! ### The register each effect writes -/

section
variable {i : Instr} {s : State}

@[simp] theorem effect_cfg (i : Instr) (s : State) : (effect i s).cfg = s.cfg := by
  cases i <;> simp [effect, apply_ite State.cfg]

@[simp] theorem effect_draws (i : Instr) (s : State) : (effect i s).draws = s.draws := by
  cases i <;> simp [effect, apply_ite State.draws]

@[simp] theorem effect_inputs (i : Instr) (s : State) : (effect i s).inputs = s.inputs := by
  cases i <;> simp [effect, apply_ite State.inputs]

@[simp] theorem effect_halt (i : Instr) (s : State) : (effect i s).halt = s.halt := by
  cases i <;> simp [effect, apply_ite State.halt]

@[simp] theorem effect_diag (i : Instr) (s : State) : (effect i s).diag = s.diag := by
  cases i <;> simp [effect, apply_ite State.diag]

theorem writer_of_w (h : (effect i s).w ≠ s.w) : i = .finish ∨ ∃ b e, i = .rxByte b e := by
  cases i with
  | finish => exact .inl rfl
  | rxByte b e => exact .inr ⟨b, e, rfl⟩
  | _ => exact absurd (by simp [effect, decodeStep_off_ring, apply_ite State.w]) h

theorem writer_of_old (h : (effect i s).old ≠ s.old) : i = .dispatchEnd ∨ i = .copyOut := by
  cases i with
  | dispatchEnd => exact .inl rfl
  | copyOut => exact .inr rfl
  | _ => exact absurd (by simp [effect, apply_ite State.old]) h

theorem writer_of_npk (h : (effect i s).npk ≠ s.npk) :
    i = .finish ∨ (∃ b e, i = .rxByte b e) ∨ i = .dispatchEnd ∨ i = .copyOut := by
  cases i with
  | finish => exact .inl rfl
  | rxByte b e => exact .inr (.inl ⟨b, e, rfl⟩)
  | dispatchEnd => exact .inr (.inr (.inl rfl))
  | copyOut => exact .inr (.inr (.inr rfl))
  | _ => exact absurd (by simp [effect, decodeStep_off_ring, apply_ite State.npk]) h

theorem writer_of_len_or_pfl (h : (effect i s).len ≠ s.len ∨ (effect i s).pfl ≠ s.pfl) :
    (∃ b e, i = .rxByte b e) ∨ (∃ b, i = .storeRaw b) ∨ (∃ b, i = .storeData b) ∨ i = .finish ∨ i = .forceSync
      ∨ ∃ v, i = .setMode v := by
  cases i with
  | rxByte b e => exact .inl ⟨b, e, rfl⟩
  | storeRaw b => exact .inr (.inl ⟨b, rfl⟩)
  | storeData b => exact .inr (.inr (.inl ⟨b, rfl⟩))
  | finish => exact .inr (.inr (.inr (.inl rfl)))
  | forceSync => exact .inr (.inr (.inr (.inr (.inl rfl))))
  | setMode v => exact .inr (.inr (.inr (.inr (.inr ⟨v, rfl⟩))))
  | _ => exact absurd h (by simp [effect, apply_ite State.len, apply_ite State.pfl])

theorem writer_of_escp (h : (effect i s).escp ≠ s.escp) :
    (∃ b e, i = .rxByte b e) ∨ (∃ b, i = .storeData b) ∨ i = .finish ∨ i = .forceSync ∨ ∃ v, i = .setMode v := by
  cases i with
  | rxByte b e => exact .inl ⟨b, e, rfl⟩
  | storeData b => exact .inr (.inl ⟨b, rfl⟩)
  | finish => exact .inr (.inr (.inl rfl))
  | forceSync => exact .inr (.inr (.inr (.inl rfl)))
  | setMode v => exact .inr (.inr (.inr (.inr ⟨v, rfl⟩)))
  | _ => exact absurd (by simp [effect, apply_ite State.escp]) h

theorem writer_of_lock (h : (effect i s).lock ≠ s.lock) : i = .dispatchBegin ∨ i = .dispatchEnd := by
  cases i with
  | dispatchBegin => exact .inl rfl
  | dispatchEnd => exact .inr rfl
  | _ => exact absurd (by simp [effect, apply_ite State.lock]) h

theorem writer_of_modes (h : (effect i s).inMode ≠ s.inMode ∨ (effect i s).outMode ≠ s.outMode) : ∃ v, i = .setMode v := by
  cases i with
  | setMode v => exact ⟨v, rfl⟩
  | _ => exact absurd h (by simp [effect, apply_ite State.inMode, apply_ite State.outMode])

theorem writer_of_src (h : (effect i s).src ≠ s.src) : ∃ v, i = .setSource v := by
  cases i with
  | setSource v => exact ⟨v, rfl⟩
  | _ => exact absurd (by simp [effect, apply_ite State.src]) h

theorem writer_of_lost (h : (effect i s).lost ≠ s.lost) : i = .finish ∨ (∃ b e, i = .rxByte b e) ∨ i = .clearLost := by
  cases i with
  | finish => exact .inl rfl
  | rxByte b e => exact .inr (.inl ⟨b, e, rfl⟩)
  | clearLost => exact .inr (.inr rfl)
  | _ => exact absurd (by simp [effect, decodeStep_off_ring, apply_ite State.lost]) h

theorem writer_of_txOut (h : (effect i s).txOut ≠ s.txOut) : i.port = .tx := by
  cases i with
  | txByte b => rfl
  | txEnd => rfl
  | _ => exact absurd (by simp [effect, apply_ite State.txOut]) h

theorem writer_of_copyOut (h : (effect i s).copyOut ≠ s.copyOut) : i = .copyOut := by
  cases i with
  | copyOut => rfl
  | _ => exact absurd (by simp [effect, apply_ite State.copyOut]) h

theorem writer_of_mem (h : (effect i s).mem ≠ s.mem) :
    (∃ b e, i = .rxByte b e) ∨ (∃ b, i = .storeRaw b) ∨ (∃ b, i = .storeData b) ∨ i = .finish
      ∨ ∃ v, i = .wrCursor v := by
  cases i with
  | rxByte b e => exact .inl ⟨b, e, rfl⟩
  | storeRaw b => exact .inr (.inl ⟨b, rfl⟩)
  | storeData b => exact .inr (.inr (.inl ⟨b, rfl⟩))
  | finish => exact .inr (.inr (.inr (.inl rfl)))
  | wrCursor v => exact .inr (.inr (.inr (.inr ⟨v, rfl⟩)))
  | _ => exact absurd (by simp [effect, apply_ite State.mem]) h

/-- The commands that can halt a running block (R98). -/
theorem halter_of_haltCode {c : Byte} (h : haltCode i s = some c) :
    (∃ v, i = .setMode v) ∨ (∃ v, i = .setSource v) ∨ i = .dispatchBegin ∨ i = .dispatchEnd ∨ i = .copyOut
      ∨ (∃ v, i = .wrCursor v) ∨ i = .check := by
  cases i with
  | setMode v => exact .inl ⟨v, rfl⟩
  | setSource v => exact .inr (.inl ⟨v, rfl⟩)
  | dispatchBegin => exact .inr (.inr (.inl rfl))
  | dispatchEnd => exact .inr (.inr (.inr (.inl rfl)))
  | copyOut => exact .inr (.inr (.inr (.inr (.inl rfl))))
  | wrCursor v => exact .inr (.inr (.inr (.inr (.inr (.inl ⟨v, rfl⟩)))))
  | check => exact .inr (.inr (.inr (.inr (.inr (.inr rfl)))))
  | _ => cases h

end

/-! ### From the effect to the command -/

/-- A part of the state that neither an answer nor a halt touches changes only where the command's effect changes it. -/
theorem exec_field {α : Type} (f : State → α) {i : Instr} {s t : State} (hresponse : ∀ p r u, f (setResponse p r u) = f u)
    (hfatal : ∀ p c u, f (fatal p c u) = f u) (e : exec i s = .next t) (h : f t ≠ f s) : f (effect i s) ≠ f s := by
  rcases exec_cases i s with ⟨-, e'⟩ | ⟨-, c, -, e'⟩ | ⟨-, -, e'⟩ <;> cases e'.symm.trans e
  · exact absurd (hresponse ..) h
  · exact absurd (hfatal ..) h
  · exact (hresponse ..) ▸ h

/-- A part of the state that no answer, no halt and no effect touches is left alone by every command. -/
theorem exec_field_eq {α : Type} (f : State → α) {i : Instr} {s t : State} (hresponse : ∀ p r u, f (setResponse p r u) = f u)
    (hfatal : ∀ p c u, f (fatal p c u) = f u) (heffect : f (effect i s) = f s) (e : exec i s = .next t) : f t = f s :=
  not_ne_iff.mp fun h => exec_field f hresponse hfatal e h heffect

/-- `HALT` and `DIAG` change only where a command halts a running block (R26). -/
theorem halter_of_halt_or_diag {i : Instr} {s t : State} (e : exec i s = .next t) (h : t.halt ≠ s.halt ∨ t.diag ≠ s.diag) :
    s.halt = false ∧ t.halt = true ∧ ∃ c, haltCode i s = some c := by
  rcases exec_cases i s with ⟨-, e'⟩ | ⟨hrun, c, hc, e'⟩ | ⟨-, -, e'⟩ <;> cases e'.symm.trans e
  · simp at h
  · exact ⟨hrun, by simp, c, hc⟩
  · simp [respond] at h

/-! ### Reading again (R51) -/

theorem haltCode_withResp (i : Instr) (s : State) (r : Responses) : haltCode i { s with resp := r } = haltCode i s := by
  cases i with
  | check => simp only [haltCode, checkPasses_congr (s := s) (t := { s with resp := r }) rfl rfl rfl rfl rfl rfl rfl rfl]
  | _ => rfl

theorem answerValue_withResp (i : Instr) (s : State) (r : Responses) :
    answerValue i { s with resp := r } = answerValue i s := by
  cases i <;> rfl

theorem emitted_withResp (i : Instr) (s : State) (r : Responses) : emitted i { s with resp := r } = emitted i s := by
  cases i <;> rfl

@[simp] theorem setResponse_setResponse (p : Port) (r r' : Response) (s : State) :
    setResponse p r (setResponse p r' s) = setResponse p r s := by
  cases p <;> rfl

theorem statusWord_setResponse (p : Port) (r : Response) (s : State) : statusWord (setResponse p r s) = statusWord s := by
  cases p <;> rfl

/-- A command with no effect that does not halt the block can be repeated. -/
theorem exec_repeat {i : Instr} {s t : State} (hnone : ∀ u, effect i u = u) (e : exec i s = .next t) (hsame : t.halt = s.halt) :
    exec i t = .next t ∧ ∃ r, t = setResponse i.port r s := by
  rcases exec_cases i s with ⟨hhalted, e'⟩ | ⟨hrun, c, -, e'⟩ | ⟨hrun, hc, e'⟩ <;> cases e'.symm.trans e
  · refine ⟨?_, _, rfl⟩
    rcases exec_cases i (setResponse i.port ⟨true, if i = .status then statusWord s else 0#32, []⟩ s) with
      ⟨-, e''⟩ | ⟨hrun, -⟩ | ⟨hrun, -⟩
    · rw [e'', setResponse_setResponse, statusWord_setResponse]
    · exact absurd (hrun.symm.trans (hsame.trans hhalted)) nofun
    · exact absurd (hrun.symm.trans (hsame.trans hhalted)) nofun
  · simp [hrun] at hsame
  · rw [hnone] at hsame ⊢
    refine ⟨?_, _, rfl⟩
    have hresp := setResponse_eq i.port ⟨false, answerValue i s, emitted i s⟩ s
    have hc' : haltCode i (respond i.port (answerValue i s) (emitted i s) s) = none := by
      rw [respond, hresp, haltCode_withResp, hc]
    have hans : answerValue i (respond i.port (answerValue i s) (emitted i s) s) = answerValue i s := by
      rw [respond, hresp, answerValue_withResp]
    have hout : emitted i (respond i.port (answerValue i s) (emitted i s) s) = emitted i s := by
      rw [respond, hresp, emitted_withResp]
    rw [exec_running (hsame.trans hrun) hc', hans, hout, hnone, respond, respond, setResponse_setResponse]

/-! ### The TX port (R71, R72) -/

/-- A command of the TX port never halts the block, answers 0 and does nothing but emit bytes that `OUT_MODE` alone decides. -/
theorem tx_command {i : Instr} (h : i.port = .tx) (s : State) :
    haltCode i s = none ∧ answerValue i s = 0#32 ∧ effect i s = emitTx (emitted i s) s
      ∧ ∀ s' : State, s.outMode = s'.outMode → emitted i s = emitted i s' := by
  cases i with
  | nop p => exact ⟨rfl, rfl, by simp [effect, emitted, emitTx], fun _ _ => rfl⟩
  | txByte b => exact ⟨rfl, rfl, rfl, fun _ hmode => by rw [emitted, emitted, hmode]⟩
  | txEnd => exact ⟨rfl, rfl, rfl, fun _ hmode => by rw [emitted, emitted, hmode]⟩
  | _ => cases h

/-! ### The level outputs (R102) -/

theorem availOut_iff (s : State) : availOut s = true ↔ 0 < s.npk - (if s.lock then 1 else 0) := by
  rw [availOut, removable_eq, decide_eq_true_iff]

theorem availOut_setResponse (p : Port) (r : Response) (s : State) : availOut (setResponse p r s) = availOut s := by
  simp [availOut, removable]

/-! ### The statements -/

/-- Settles O54: each register through the one lemma that names its writers; `HALT` and `DIAG` through the halting commands. -/
theorem onlyTheseCommandsWriteEachRegister : Obligations.OnlyTheseCommandsWriteEachRegister := by
  intro i s t e
  refine ⟨exec_field_eq State.cfg (by simp) (by simp) (by simp) e,
    exec_field_eq State.draws (by simp) (by simp) (by simp) e,
    exec_field_eq State.inputs (by simp) (by simp) (by simp) e,
    fun h => writer_of_w (exec_field State.w (by simp) (by simp) e h),
    fun h => writer_of_old (exec_field State.old (by simp) (by simp) e h),
    fun h => writer_of_npk (exec_field State.npk (by simp) (by simp) e h),
    fun h => writer_of_len_or_pfl
      (h.imp (exec_field State.len (by simp) (by simp) e) (exec_field State.pfl (by simp) (by simp) e)),
    fun h => writer_of_escp (exec_field State.escp (by simp) (by simp) e h),
    fun h => ?halting,
    fun h => writer_of_lock (exec_field State.lock (by simp) (by simp) e h),
    fun h => writer_of_modes
      (h.imp (exec_field State.inMode (by simp) (by simp) e) (exec_field State.outMode (by simp) (by simp) e)),
    fun h => writer_of_src (exec_field State.src (by simp) (by simp) e h),
    fun h => writer_of_lost (exec_field State.lost (by simp) (by simp) e h),
    fun h => writer_of_txOut (exec_field State.txOut (by simp) (by simp) e h),
    fun h => writer_of_copyOut (exec_field State.copyOut (by simp) (by simp) e h)⟩
  case halting =>
    obtain ⟨hrun, hhalted, c, hc⟩ := halter_of_halt_or_diag e h
    exact ⟨hrun, hhalted, halter_of_haltCode hc⟩

/-- Settles O55: the writers of `MEM` are those of the effects that write it. -/
theorem onlyTheseCommandsWriteMemory : Obligations.OnlyTheseCommandsWriteMemory :=
  fun _ _ _ e h => writer_of_mem (exec_field State.mem (by simp) (by simp) e h)

/-- Settles O56: the read-only commands have no effect, so they can be repeated. -/
theorem readOnlyCommandsRepeat : Obligations.ReadOnlyCommandsRepeat := by
  intro i s t hi e hsame
  have hnone : ∀ u, effect i u = u := by
    rcases hi with rfl | rfl | rfl | rfl | ⟨a, rfl⟩ | rfl | rfl | ⟨p, rfl⟩ <;> exact fun _ => rfl
  obtain ⟨hagain, r, rfl⟩ := exec_repeat hnone e hsame
  exact ⟨hagain, setResponse_eq _ _ _⟩

/-- Settles O57: halted, a TX command only leaves the halted answer; running, it answers with what it emits. -/
theorem txPortIsIndependent : Obligations.TxPortIsIndependent := by
  intro i s s' hport hmode hhalt
  rcases Bool.eq_false_or_eq_true s.halt with hs | hs
  · have hi : i ≠ .status := by rintro rfl; cases hport
    refine ⟨_, _, haltedAnswer, exec_halted hs hi, exec_halted (hhalt ▸ hs) hi, ?_, ?_, ?_⟩ <;> rw [hport]
    · exact lastResponse_setResponse _ _ _
    · exact lastResponse_setResponse _ _ _
    · simp [setResponse]
  · obtain ⟨hc, hans, heff, hout⟩ := tx_command hport s
    obtain ⟨hc', hans', -, -⟩ := tx_command hport s'
    refine ⟨_, _, answer 0#32 (emitted i s), exec_running hs hc, exec_running (hhalt ▸ hs) hc', ?_, ?_, ?_⟩ <;> rw [hport]
    · rw [hans]; exact lastResponse_setResponse _ _ _
    · rw [hans', ← hout s' hmode]; exact lastResponse_setResponse _ _ _
    · rw [heff]; rfl

/-- Settles O58: the three outputs, and how taking the last Packet, finishing one and `CLEAR_LOST` move them. -/
theorem levelOutputsFollowState : Obligations.LevelOutputsFollowState := by
  intro s
  refine ⟨availOut_iff s, rfl, rfl, fun hrun hlock hone => ⟨?_, ?_⟩, fun hrun hheld hroom => ?_,
    fun hrun => ⟨_, exec_running hrun rfl, rfl⟩⟩
  · refine ⟨_, exec_running hrun (by simp [haltCode, hlock]), ?_⟩
    rw [respond, availOut_setResponse]
    simp [effect, availOut, removable, hone]
  · refine ⟨_, exec_running hrun (by simp [haltCode, hlock]), ?_⟩
    rw [respond, availOut_setResponse]
    simp [effect, availOut, removable, hone]
  · refine ⟨_, exec_running hrun rfl, ?_⟩
    have hcommit : doFinish s = commit (endEscape s) := by
      rcases doFinish_cases s with ⟨-, e⟩ | ⟨hshort, -⟩
      · exact e
      · exact absurd hroom (Nat.not_le.mpr hshort)
    rw [respond, availOut_setResponse, effect, hcommit, availOut_iff, commit_npk, commit_lock, endEscape_npk, endEscape_lock]
    split
    · have := hheld ‹_›
      omega
    · omega

end Sys2Proof.Machine
end

section
/-! The unspecified bytes of `MEM` (R38, R110): each part of what a command other than `RD` does is the same under another draw of
the unwritten bytes, then the statement O20. -/

namespace Sys2Proof.Machine

/-- `s` with another draw of the unwritten bytes (log 2). -/
abbrev State.withDraws (d : Nat) (s : State) : State := { s with draws := d }

/-! ### Reading the stored Packets -/

/-- Every byte of a stored Packet reads the same under another draw. -/
theorem memRead_withDraws {s : State} (h : s.FullInv) (d : Nat) {p : Nat} (hp : p ∈ occupying s) {j : Nat}
    (hj : j < lengthAt s p + 5) : memRead (s.withDraws d) (p + j) = memRead s (p + j) := by
  obtain ⟨hinv, hwritten⟩ := h
  have hend := spanEnd_le (hinv.ring.sound hp)
  refine memRead_of_written (s := s) (t := s.withDraws d) rfl rfl ?_
  rw [maskIndex_of_lt (by simp only [spanEnd] at hend; omega)]
  exact hwritten.packets p hp j hj

/-- So do the length and the source tag of the oldest Packet. -/
theorem oldest_withDraws {s : State} (h : s.FullInv) (d : Nat) (hn : 0 < s.npk) :
    lengthAt (s.withDraws d) s.old = lengthAt s s.old ∧ sourceAt (s.withDraws d) s.old = sourceAt s s.old := by
  obtain ⟨hlen, -, -, hsrc, -⟩ := packet_congr fun _ => memRead_withDraws h d (old_mem_occupying hn)
  exact ⟨hlen, hsrc⟩

theorem packetBytes_withDraws {s : State} (h : s.FullInv) (d : Nat) (hn : 0 < s.npk) :
    packetBytes (s.withDraws d) s.old = packetBytes s s.old := by
  unfold packetBytes
  rw [(oldest_withDraws h d hn).1]
  exact readSpan_congr fun _ => memRead_withDraws h d (old_mem_occupying hn)

theorem advance_withDraws {s : State} (h : s.FullInv) (d : Nat) (hn : 0 < s.npk) :
    advance (s.withDraws d) s.old = advance s s.old := by
  unfold advance
  rw [(oldest_withDraws h d hn).1]

theorem freeOldest_withDraws {s : State} (h : s.FullInv) (d : Nat) (hn : 0 < s.npk) :
    freeOldest (s.withDraws d) = (freeOldest s).withDraws d := by
  unfold freeOldest
  rw [advance_withDraws h d hn]

theorem checkPasses_withDraws {s : State} (h : s.FullInv) (d : Nat) : checkPasses (s.withDraws d) = checkPasses s := by
  have hwalk : walkSound (s.withDraws d) s.npk s.old = walkSound s s.npk s.old :=
    walkSound_of_written (s := s) (t := s.withDraws d) rfl rfl rfl _ _ (fun _ => h.inv.ring.sound) h.written.packets
  unfold checkPasses
  rw [hwalk]

/-! ### The parts of a command -/

theorem haltCode_withDraws (i : Instr) {s : State} (h : s.FullInv) (d : Nat) : haltCode i (s.withDraws d) = haltCode i s := by
  cases i with
  | wrCursor v =>
    unfold haltCode
    refine if_ctx_congr Iff.rfl (fun hlock => ?_) fun _ => rfl
    rw [(oldest_withDraws h d (h.inv.registers.lockHoldsPacket hlock)).1]
  | check => unfold haltCode; rw [checkPasses_withDraws h]
  | _ => rfl

theorem answerValue_withDraws {i : Instr} {s : State} (h : s.FullInv) (d : Nat) (hi : ∀ a, i ≠ .rd a) :
    answerValue i (s.withDraws d) = answerValue i s := by
  cases i with
  | rd a => exact absurd rfl (hi a)
  | dispatchBegin =>
    refine if_ctx_congr Iff.rfl (fun _ => rfl) fun hn => ?_
    rw [(oldest_withDraws h d (Nat.pos_of_ne_zero hn)).2]
  | copyOut =>
    refine if_ctx_congr Iff.rfl (fun _ => rfl) fun hn => ?_
    rw [memRead_withDraws h d (old_mem_occupying (Nat.pos_of_ne_zero hn)) (by omega)]
  | _ => rfl

theorem emitted_withDraws (i : Instr) {s : State} (h : s.FullInv) (d : Nat) :
    emitted i (s.withDraws d) = emitted i s := by
  cases i with
  | copyOut => exact if_ctx_congr Iff.rfl (fun _ => rfl) fun hn => packetBytes_withDraws h d (Nat.pos_of_ne_zero hn)
  | _ => rfl

/-- An operation that leaves the inputs and the responses alone changes `draws` only, where it was given another draw. -/
theorem withOutside_eq_withDraws {d : Nat} {l : List Event} {r : Responses} {s : State} (hl : s.inputs = l) (hr : s.resp = r) :
    s.withOutside d l r = s.withDraws d := by
  subst hl hr; rfl

theorem effect_withDraws {i : Instr} {s : State} (h : s.FullInv) (d : Nat) (hc : haltCode i s = none) :
    effect i (s.withDraws d) = (effect i s).withDraws d := by
  cases i with
  | rxByte b e =>
    exact (receiveByte_withOutside d s.inputs s.resp b (foldErrors e s)).trans
      (withOutside_eq_withDraws (by simp) (by simp))
  | storeRaw b =>
    exact (appendByte_withOutside d s.inputs s.resp b s).trans (withOutside_eq_withDraws (by simp) (by simp))
  | storeData b =>
    exact (decodeStep_withOutside d s.inputs s.resp b false s).trans (withOutside_eq_withDraws (by simp) (by simp))
  | finish => exact (doFinish_withOutside d s.inputs s.resp s).trans (withOutside_eq_withDraws (by simp) (by simp))
  | setMode v =>
    simp only [effect, writeModes]
    split <;> rfl
  | dispatchBegin =>
    simp only [effect]
    split <;> rfl
  | dispatchEnd =>
    have hlock : s.lock = true := by simpa [haltCode] using hc
    simp only [effect, freeOldest_withDraws h d (h.inv.registers.lockHoldsPacket hlock)]
    rfl
  | copyOut =>
    simp only [effect]
    split
    · rfl
    · have hn : 0 < s.npk := by omega
      have hcopied := fullInv_preserved.copied (packetBytes s s.old) s h
      rw [packetBytes_withDraws h d hn]
      exact freeOldest_withDraws hcopied d hn
  | _ => rfl

/-! ### The statement -/

theorem setResponse_withDraws (p : Port) (r : Response) (d : Nat) (s : State) :
    setResponse p r (s.withDraws d) = (setResponse p r s).withDraws d := by
  cases p <;> rfl

theorem fatal_withDraws (p : Port) (c : Byte) (d : Nat) (s : State) :
    fatal p c (s.withDraws d) = (fatal p c s).withDraws d := by
  cases p <;> rfl

/-- Settles O20: whether the command is ignored, halts or runs, each of its parts is the same under another draw. -/
theorem unwrittenBytesReachOnlyRd : Obligations.UnwrittenBytesReachOnlyRd := by
  intro i s t d hinv hwritten hi e
  have h : s.FullInv := ⟨hinv, hwritten⟩
  rcases exec_cases i s with ⟨hhalted, e'⟩ | ⟨hrun, c, hc, e'⟩ | ⟨hrun, hc, e'⟩ <;> cases e'.symm.trans e
  · rcases exec_cases i (s.withDraws d) with ⟨-, e''⟩ | ⟨hrun, -⟩ | ⟨hrun, -⟩
    · rw [e'', setResponse_withDraws]
      rfl
    · exact absurd (hrun.symm.trans hhalted) nofun
    · exact absurd (hrun.symm.trans hhalted) nofun
  · rw [exec_fatal (s := s.withDraws d) hrun ((haltCode_withDraws i h d).trans hc), fatal_withDraws]
  · rw [exec_running (s := s.withDraws d) hrun ((haltCode_withDraws i h d).trans hc), answerValue_withDraws h d hi,
      emitted_withDraws i h d, effect_withDraws h d hc, respond, setResponse_withDraws]
    rfl

end Sys2Proof.Machine
end

section
/-! One step of the block (R33, R51, R52) and the halted state (R61, R99, R101): what the inputs can hand over said once, a step as
the word it takes applied, then the statements O5 to O14 and O59. -/

namespace Sys2Proof.Machine

/-! ### The word a step takes -/

/-- An illegal word, written out (R61, R101). -/
theorem illegalWord_eq (p : Port) (s : State) :
    illegalWord p s = setResponse p haltedAnswer (if s.halt then s else { s with halt := true, diag := 0x01#8 }) := by
  unfold illegalWord
  split <;> rfl

theorem applyWord_of_ok {p : Port} {w : Word} {i : Instr} (h : decode p w = .ok i) (s : State) : applyWord p w s = exec i s := by
  simp only [applyWord, h]

theorem applyWord_of_error {p : Port} {w : Word} {e : Illegal} (h : decode p w = .error e) (s : State) :
    applyWord p w s = .next (illegalWord p s) := by
  simp only [applyWord, h, illegalWord_eq]

/-- A step that takes a word applies it. -/
theorem step_of_command {p : Port} {w : Word} {s u : State} (h : takeInput s = .command p w u) : step s = applyWord p w u := by
  cases hdec : decode p w with
  | ok i => simp only [step, h, hdec, applyWord_of_ok hdec]
  | error e => simp only [step, h, hdec, applyWord_of_error hdec]

theorem step_of_idle {s u : State} (h : takeInput s = .idle u) : step s = .next u := by
  simp only [step, h]

theorem step_of_reset {s u : State} (h : takeInput s = .reset u) : step s = .next (applyReset u) := by
  simp only [step, h]

theorem step_presentOn {p : Port} {w : Word} {s : State} {rest : List Event} (h : s.inputs = presentOn p w :: rest) :
    step s = applyWord p w { s with inputs := rest } :=
  step_of_command (takeInput_presentOn p w rest s h)

/-- What a step takes leaves everything but the inputs alone; it is a reset only where the inputs hold one, and no reset comes in. -/
theorem takeInput_cases (s : State) : ∃ l, (Event.reset ∈ l → Event.reset ∈ s.inputs) ∧
    (takeInput s = .idle (s.withInputs l) ∨ (Event.reset ∈ s.inputs ∧ takeInput s = .reset (s.withInputs l)) ∨
      ∃ p w, takeInput s = .command p w (s.withInputs l)) := by
  unfold takeInput
  split
  case h_1 h => exact ⟨[], by simp, .inl (by cases s; cases h; rfl)⟩
  case h_2 rest h => exact ⟨rest, by simp [h], .inr (.inl ⟨by simp [h], rfl⟩)⟩
  case h_8 rest h => exact ⟨rest, by simp [h], .inl rfl⟩
  all_goals exact ⟨_, by simp [*], .inr (.inr ⟨_, _, rfl⟩)⟩

/-! ### Words and the inputs (R33) -/

/-- Every word ends in a next state. -/
theorem applyWord_next (p : Port) (w : Word) (s : State) : ∃ t, applyWord p w s = .next t := by
  cases hdec : decode p w with
  | ok i => obtain ⟨t, e, -⟩ := exec_withInputs [] i s; exact ⟨t, (applyWord_of_ok hdec s).trans e⟩
  | error e => exact ⟨_, applyWord_of_error hdec s⟩

/-- What a word does, does not depend on the inputs, and leaves them alone. -/
theorem applyWord_withInputs {p : Port} {w : Word} {s t : State} (h : applyWord p w s = .next t) (l : List Event) :
    applyWord p w (s.withInputs l) = .next (t.withInputs l) := by
  cases hdec : decode p w with
  | ok i =>
    obtain ⟨u, e, e', -⟩ := exec_withInputs l i s
    rw [applyWord_of_ok hdec] at h ⊢
    cases e.symm.trans h
    exact e'
  | error e =>
    rw [applyWord_of_error hdec] at h ⊢
    cases h
    unfold illegalWord
    cases p <;> split <;> rfl

/-- A hardware step hands over its words in the order of R52: the first one, and then the hardware step that is left of it. -/
theorem takeInput_present {s : State} {c p t : Option Word} {rest : List Event} {q : Port} {w : Word} {ws : List (Port × Word)}
    (hin : s.inputs = .present c p t :: rest) (hwords : presentedWords c p t = (q, w) :: ws) :
    ∃ l, takeInput s = .command q w (s.withInputs l) ∧
      (ws = [] ∧ l = rest ∨ ws ≠ [] ∧ ∃ c' p' t', l = .present c' p' t' :: rest ∧ presentedWords c' p' t' = ws) := by
  rcases c with _ | c <;> rcases p with _ | p <;> rcases t with _ | t <;> cases hwords <;>
    simp only [takeInput, hin]
  case none.none.some | none.some.none | some.none.none => exact ⟨rest, rfl, .inl ⟨rfl, rfl⟩⟩
  case none.some.some | some.none.some => exact ⟨_, rfl, .inr ⟨nofun, none, none, some t, rfl, rfl⟩⟩
  case some.some.none => exact ⟨_, rfl, .inr ⟨nofun, none, some p, none, rfl, rfl⟩⟩
  case some.some.some => exact ⟨_, rfl, .inr ⟨nofun, none, some p, some t, rfl, rfl⟩⟩

theorem run_succ {s u : State} (h : step s = .next u) (n : Nat) : Sys2Proof.core.run (n + 1) s = Sys2Proof.core.run n u := by
  have hcore : Sys2Proof.core.step s = .next u := h
  simp only [Host.Core.run, hcore]

theorem applyWords_cons {p : Port} {w : Word} {s t : State} (h : applyWord p w s = .next t) (ws : List (Port × Word)) :
    applyWords ((p, w) :: ws) s = applyWords ws t := by
  simp only [applyWords, h]

/-- The words of a hardware step, run one for each step, are those words applied one after another (R52, R100). -/
theorem run_present {ws : List (Port × Word)} (hne : ws ≠ []) {s : State} {c p t : Option Word} {rest : List Event}
    (hin : s.inputs = .present c p t :: rest) (hwords : presentedWords c p t = ws) :
    Sys2Proof.core.run ws.length s = applyWords ws (s.withInputs rest) := by
  induction ws generalizing s c p t with
  | nil => exact absurd rfl hne
  | cons head ws ih =>
    obtain ⟨q, w⟩ := head
    obtain ⟨l, htake, hleft⟩ := takeInput_present hin hwords
    obtain ⟨u, hu⟩ := applyWord_next q w s
    have hstep : step s = .next (u.withInputs l) := (step_of_command htake).trans (applyWord_withInputs hu l)
    rw [List.length_cons, run_succ hstep, applyWords_cons (applyWord_withInputs hu rest)]
    rcases hleft with ⟨rfl, rfl⟩ | ⟨hne', c', p', t', rfl, hwords'⟩
    · rfl
    · exact ih (s := u.withInputs _) hne' rfl hwords'

/-! ### Halting (R99) -/

/-- A command that halts a running block does only that, with one of the codes of the commands. -/
theorem halt_precise {i : Instr} {s t : State} (hrun : s.halt = false) (e : exec i s = .next t) (hhalted : t.halt = true) :
    ∃ c, haltCode i s = some c ∧ t = fatal i.port c s := by
  rcases exec_cases i s with ⟨h, -⟩ | ⟨-, c, hc, e'⟩ | ⟨-, -, e'⟩
  · exact absurd (hrun.symm.trans h) nofun
  · exact ⟨c, hc, by cases e'.symm.trans e; rfl⟩
  · cases e'.symm.trans e
    simp [respond, hrun] at hhalted

/-- What a halt changes, written out (R99). -/
theorem fatal_eq (p : Port) (c : Byte) (s : State) :
    fatal p c s = setResponse p haltedAnswer { s with halt := true, diag := (fatal p c s).diag } := by
  rw [fatal_diag]; rfl

/-- A word that halts a running block does only that; an illegal word records 0x01 (R61). -/
theorem applyWord_halt_precise {q : Port} {w : Word} {s t : State} (hrun : s.halt = false) (e : applyWord q w s = .next t)
    (hhalted : t.halt = true) :
    t = setResponse q haltedAnswer { s with halt := true, diag := t.diag } ∧ ∀ x, decode q w = .error x → t.diag = 0x01#8 := by
  cases hdec : decode q w with
  | ok i =>
    obtain ⟨o, -, hport, -, hi⟩ := (decode_eq_ok_iff q w i).mp hdec
    rw [applyWord_of_ok hdec] at e
    obtain ⟨c, -, rfl⟩ := halt_precise hrun e hhalted
    rw [← hi, port_instr w hport]
    exact ⟨fatal_eq _ _ _, nofun⟩
  | error x =>
    rw [applyWord_of_error hdec] at e
    cases e
    have hfatal : illegalWord q s = fatal q illegalCommandCode s := by simp [illegalWord, hrun]
    rw [hfatal]
    exact ⟨fatal_eq _ _ _, fun _ _ => fatal_diag _ _ _⟩

/-! ### The halted block (R101) -/

/-- A word in a halted block leaves a response and nothing else. -/
theorem applyWord_halted {s : State} (h : s.halt = true) (p : Port) (w : Word) :
    ∃ q r, applyWord p w s = .next (setResponse q r s) := by
  cases hdec : decode p w with
  | ok i =>
    rcases exec_cases i s with ⟨-, e⟩ | ⟨hrun, -⟩ | ⟨hrun, -⟩
    · exact ⟨_, _, (applyWord_of_ok hdec s).trans e⟩
    · exact absurd (hrun.symm.trans h) nofun
    · exact absurd (hrun.symm.trans h) nofun
  | error x => exact ⟨p, _, (applyWord_of_error hdec s).trans (by rw [illegalWord, if_pos h, ignored])⟩

/-- On the other ports than the consumer's, where no `STATUS` can stand, it is the halted answer on its own port. -/
theorem applyWord_halted_ignored {s : State} (h : s.halt = true) {p : Port} (hp : p ≠ .consumer) (w : Word) :
    applyWord p w s = .next (setResponse p haltedAnswer s) := by
  cases hdec : decode p w with
  | ok i =>
    obtain ⟨o, -, hport, -, hi⟩ := (decode_eq_ok_iff p w i).mp hdec
    obtain rfl : i.port = p := hi ▸ port_instr w hport
    rw [applyWord_of_ok hdec]
    exact exec_halted h fun hstatus => hp (by rw [hstatus]; rfl)
  | error x => rw [applyWord_of_error hdec, illegalWord, if_pos h, ignored]

theorem applyWords_halted_ignored {ws : List (Port × Word)} (hports : ∀ k ∈ ws, k.1 ≠ .consumer) {s : State}
    (h : s.halt = true) :
    applyWords ws s = .next (ws.foldl (fun x k => setResponse k.1 haltedAnswer x) s) := by
  induction ws generalizing s with
  | nil => rfl
  | cons k ws ih =>
    rw [applyWords_cons (applyWord_halted_ignored h (hports k (List.mem_cons_self ..)) k.2)]
    exact ih (fun k hk => hports k (List.mem_cons_of_mem _ hk)) (by simpa using h)

/-- In a hardware step only the first word can be the consumer's (R52). -/
theorem later_not_consumer {c p t : Option Word} {earlier later : List (Port × Word)} {k : Port × Word}
    (h : presentedWords c p t = earlier ++ k :: later) : ∀ k ∈ later, k.1 ≠ .consumer := by
  have htail : ∀ k ∈ (presentedWords c p t).tail, k.1 ≠ .consumer := by
    rcases c with _ | c <;> rcases p with _ | p <;> rcases t with _ | t <;> simp [presentedWords]
  rw [h] at htail
  cases earlier with
  | nil => exact htail
  | cons => exact fun k hk => htail k (List.mem_append_right _ (List.mem_cons_of_mem _ hk))

theorem applyWords_append {ws ws' : List (Port × Word)} {s t : State} (h : applyWords ws s = .next t) :
    applyWords (ws ++ ws') s = applyWords ws' t := by
  induction ws generalizing s with
  | nil => cases h; rfl
  | cons k ws ih =>
    obtain ⟨u, hu⟩ := applyWord_next k.1 k.2 s
    rw [applyWords_cons hu] at h
    exact (applyWords_cons hu _).trans (ih h)

/-- A step of a halted block without a reset changes the responses and the inputs only. -/
theorem step_halted {s : State} (h : s.halt = true) (hreset : Event.reset ∉ s.inputs) :
    ∃ r l, step s = .next { s with resp := r, inputs := l } ∧ Event.reset ∉ l := by
  obtain ⟨l, hl, htake | ⟨hmem, -⟩ | ⟨p, w, htake⟩⟩ := takeInput_cases s
  · exact ⟨s.resp, l, step_of_idle htake, mt hl hreset⟩
  · exact absurd hmem hreset
  · obtain ⟨q, r, e⟩ := applyWord_halted (s := s.withInputs l) h p w
    exact ⟨_, l, (step_of_command htake).trans (e.trans (by rw [setResponse_eq])), mt hl hreset⟩

/-! ### After reset (R108, R109) -/

theorem memRead_of_unwritten {s : State} {a : Nat} (h : Memory.lookup s.mem (a % s.cfg.cap) = none) :
    memRead s a = Config.unwrittenByte s.draws (a % s.cfg.cap) := by
  rw [← maskIndex_eq_mod] at h ⊢
  simp only [memRead, h]

theorem room_resetWith (c : Config) : room (State.resetWith c) = c.cap := rfl

theorem canAcceptByte_resetWith (c : Config) : canAcceptByte (State.resetWith c) = true := by
  have := cap_ge c
  rw [canAcceptByte_iff, room_resetWith]
  exact Nat.le_trans (by decide : 4 + (0x00#8).toNat + 2 ≤ 512) this

theorem bufferFull_resetWith (c : Config) : bufferFull (State.resetWith c) = false := by
  rw [bufferFull, canAcceptByte_resetWith]
  rfl

theorem statusWord_resetWith (c : Config) : statusWord (State.resetWith c) = 0x00000020#32 := by
  rw [statusWord, canAcceptByte_resetWith, bufferFull_resetWith]
  simp [State.resetWith, (by decide : (Mode.packet == Mode.byte) = false)]

/-! ### The statements -/

/-- Settles O5: a step that takes a word applies it. -/
theorem stepRunsDecodedCommand : Obligations.StepRunsDecodedCommand :=
  fun _ _ _ _ _ hin hdec => (step_presentOn hin).trans (applyWord_of_ok hdec _)

/-- Settles O6: by induction on the words that are left. -/
theorem hardwareStepRunsConsumerProducerTx : Obligations.HardwareStepRunsConsumerProducerTx :=
  fun _ _ _ _ _ hin hne => run_present hne hin rfl

/-- Settles O7: a step that takes an illegal word applies it. -/
theorem illegalWordHalts : Obligations.IllegalWordHalts :=
  fun s p w _ rest hin hdec => (step_presentOn hin).trans <| (applyWord_of_error hdec _).trans <| by
    rw [illegalWord_eq]

/-- Settles O8: both idle forms of the inputs hold the state. -/
theorem idleHoldsState : Obligations.IdleHoldsState :=
  fun _ => ⟨fun h => step_of_idle (by simp only [takeInput, h]), fun _ h => step_of_idle (by simp only [takeInput, h])⟩

/-- Settles O9: the step is `applyReset`, which leaves `MEM` unwritten. -/
theorem resetSetsEveryRegister : Obligations.ResetSetsEveryRegister := by
  intro s rest h
  refine ⟨applyReset { s with inputs := rest }, step_of_reset (by simp only [takeInput, h]), ?_⟩
  refine ⟨rfl, rfl, rfl, rfl, rfl, rfl, rfl, rfl, rfl, rfl, rfl, rfl, rfl, rfl, rfl, rfl, rfl, fun a => ?_⟩
  exact memRead_of_unwritten rfl

/-- Settles O10: none of these commands halts right after reset, and the answers are those of an empty store. -/
theorem portsAfterReset : Obligations.PortsAfterReset := by
  rintro c s rfl
  have hrun : (State.resetWith c).halt = false := rfl
  refine ⟨room_resetWith c, ?canAccept, ?isFull, exec_running hrun rfl, exec_running hrun rfl, exec_running hrun rfl,
    exec_running hrun rfl, ?status, ?check, rfl, rfl, rfl, fun a => ?rd⟩
  case canAccept => rw [exec_running hrun rfl, answerValue, canAcceptByte_resetWith]; rfl
  case isFull => rw [exec_running hrun rfl, answerValue, bufferFull_resetWith]; rfl
  case status => rw [exec_running hrun rfl, answerValue, statusWord_resetWith]; rfl
  case check => exact checkPassesUnderInvariants _ (inv_resetWith c 0 []) hrun
  case rd =>
    rw [exec_running hrun rfl, answerValue, operandIndex, memRead_maskIndex, memRead_of_unwritten rfl]
    rfl

/-- Settles O11: the one way a command halts a running block is `fatal`, with a code of `haltCode`. -/
theorem haltIsPrecise : Obligations.HaltIsPrecise := by
  intro i s t hrun e hhalted
  obtain ⟨c, hc, rfl⟩ := halt_precise hrun e hhalted
  exact ⟨fatal_eq _ _ _, by simpa using haltCode_mem hc⟩

/-- Settles O12: `STATUS` alone does not look at `HALT` before it answers. -/
theorem haltedIgnoresCommands : Obligations.HaltedIgnoresCommands :=
  fun _ s h => ⟨exec_halted h, by rw [← h]; rfl⟩

/-- Settles O13: by induction on the steps. -/
theorem onlyResetLeavesHalt : Obligations.OnlyResetLeavesHalt := by
  intro n
  induction n with
  | zero => exact fun s _ _ => ⟨s, rfl, rfl⟩
  | succ n ih =>
    intro s h hreset
    obtain ⟨r, l, hstep, hl⟩ := step_halted h hreset
    obtain ⟨t, hrun, ht⟩ := ih { s with resp := r, inputs := l } h hl
    exact ⟨t, (run_succ hstep n).trans hrun, ht⟩

/-- Settles O14: a command is ignored, halts or runs; a step is idle, a reset or a word. -/
theorem everyCommandCompletes : Obligations.EveryCommandCompletes := by
  refine ⟨fun i s => ?_, fun s => ?_⟩
  · obtain ⟨t, e, -⟩ := exec_withInputs [] i s
    exact ⟨t, e⟩
  · obtain ⟨l, -, htake | ⟨-, htake⟩ | ⟨p, w, htake⟩⟩ := takeInput_cases s
    · exact ⟨_, step_of_idle htake⟩
    · exact ⟨_, step_of_reset htake⟩
    · rw [step_of_command htake]
      exact applyWord_next p w _

/-- Settles O59: the hardware step runs its words in order; the first one that halts does only that, and the later ones, none of
them the consumer's, are ignored. -/
theorem firstFatalOfHardwareStepHalts : Obligations.FirstFatalOfHardwareStepHalts := by
  intro s u v c p t rest earlier later q w hin hwords hearlier hrun hword hhalted
  obtain ⟨hprecise, hcode⟩ := applyWord_halt_precise hrun hword hhalted
  refine ⟨hprecise, hcode, ?_⟩
  rw [run_present (by simp [hwords]) hin rfl, hwords, applyWords_append hearlier, applyWords_cons hword]
  exact applyWords_halted_ignored (later_not_consumer hwords) hhalted

end Sys2Proof.Machine
end

section
/-! Receiving and finishing (R65 to R68, R75, R76): the decoding step with delimiter detection, what `Commit` writes byte by byte
(R48), and the Packet that cannot be placed, then the statements O24 to O28. -/

namespace Sys2Proof.Machine

/-! ### Decoding with delimiter detection (R65) -/

/-- With no escape pending, the delimiter ends the Packet. -/
theorem decodeStep_on_delim {s : State} (hplain : s.escp = false) : decodeStep delim true s = doFinish s :=
  (decodeStep_unescaped hplain).trans (if_pos ⟨rfl, rfl⟩)

/-- With no escape pending, `ESC` only sets `ESCP`. -/
theorem decodeStep_on_esc {s : State} (hplain : s.escp = false) : decodeStep esc true s = setEscp true s :=
  decodeStep_unescaped hplain

/-- With no escape pending, any other byte is data. -/
theorem decodeStep_on_data {b : Byte} {s : State} (hplain : s.escp = false) (hdelim : b ≠ delim) (hesc : b ≠ esc) :
    decodeStep b true s = appendByte b s := by
  rw [decodeStep_unescaped hplain]
  simp [decodePlain, hdelim, hesc]

/-- No errors to fold in (R66). -/
theorem foldErrors_zero (s : State) : foldErrors 0#4 s = s := by
  simp [foldErrors, orFlags]

/-- `RX_BYTE` in packet mode answers 0 from the state its decoding step gives (R68). -/
theorem exec_rxByte_of_decodeStep {b : Byte} {e : BitVec 4} {s t : State} (hrun : s.halt = false) (hmode : s.inMode = .packet)
    (h : decodeStep b true (foldErrors e s) = t) :
    exec (.rxByte b e) s = .next (setResponse .producer (answer 0#32) t) := by
  have hreceive : receiveByte b (foldErrors e s) = t := by simpa only [receiveByte, foldErrors_inMode, hmode] using h
  rw [exec_running hrun rfl, effect, hreceive]
  rfl

theorem exec_storeRaw_eq {b : Byte} {s : State} (hrun : s.halt = false) :
    exec (.storeRaw b) s = .next (setResponse .producer (answer 0#32) (appendByte b s)) :=
  exec_running hrun rfl

theorem exec_finish_eq {s : State} (hrun : s.halt = false) :
    exec .finish s = .next (setResponse .producer (answer 0#32) (doFinish s)) :=
  exec_running hrun rfl

/-- In byte mode a byte is appended and finished at once, between the error fold and the answer (R68). -/
theorem exec_rxByte_byteMode {b : Byte} {e : BitVec 4} {s : State} (hrun : s.halt = false) (hmode : s.inMode = .byte) :
    exec (.rxByte b e) s = .next (setResponse .producer (answer 0#32) (doFinish (appendByte b (foldErrors e s)))) := by
  have hreceive : receiveByte b (foldErrors e s) = doFinish (appendByte b (foldErrors e s)) := by
    simp only [receiveByte, foldErrors_inMode, hmode]
  rw [exec_running hrun rfl, effect, hreceive]
  rfl

/-! ### Commands one after another -/

theorem execAll_cons {i : Instr} {s t : State} (h : exec i s = .next t) (is : List Instr) :
    execAll (i :: is) s = execAll is t := by
  simp only [execAll, h]

theorem execAll_append {is js : List Instr} {s t : State} (h : execAll is s = .next t) :
    execAll (is ++ js) s = execAll js t := by
  induction is generalizing s with
  | nil => cases h; rfl
  | cons i is ih =>
    obtain ⟨u, e, -⟩ := exec_withInputs [] i s
    rw [execAll_cons e] at h
    exact (execAll_cons e _).trans (ih h)

/-- The end of a Packet does not look at the answers given before it. -/
theorem doFinish_setResponse (p : Port) (r : Response) (s : State) :
    doFinish (setResponse p r s) = setResponse p r (doFinish s) := by
  have hresp : ∀ r' : Responses, doFinish { s with resp := r' } = { doFinish s with resp := r' } := fun r' =>
    (doFinish_withOutside s.draws s.inputs r' s).trans (by
      rw [State.withOutside, ← doFinish_draws, ← doFinish_inputs])
  rw [setResponse_eq p r s, hresp, setResponse_eq p r (doFinish s)]
  cases p <;> simp [setResponse]

/-! ### What `Commit` changes (R48) -/

theorem writeBytes_eq (ws : List (Nat × Byte)) (s : State) : writeBytes ws s = { s with mem := (writeBytes ws s).mem } := by
  induction ws generalizing s with
  | nil => rfl
  | cons c ws ih => exact (ih (memWrite c.1 c.2 s)).trans rfl

/-- The registers that `Commit` writes. -/
theorem commit_eq (s : State) : commit s = { s with
    mem := (commit s).mem, npk := s.npk + 1, w := nextPosition s.cfg (s.w + s.len.toNat + 5), len := 0x00#8, pfl := 0x00#8 } := by
  rw [commit_mem, commit, writeBytes_eq]

/-- What the end of a Packet does to a pending escape, as one update. -/
theorem endEscape_eq (s : State) :
    endEscape s = { s with escp := false, pfl := if s.escp then s.pfl ||| flagBadEscape else s.pfl } := by
  unfold endEscape
  split
  · rfl
  · rename_i h
    rw [← Bool.eq_false_of_not_eq_true h]

theorem endEscape_pfl (s : State) : (endEscape s).pfl = if s.escp then s.pfl ||| flagBadEscape else s.pfl := by
  rw [endEscape_eq]

theorem doFinish_eq_commit {s : State} (h : hdr + s.len.toNat + 1 ≤ room s) : doFinish s = commit (endEscape s) := by
  rcases doFinish_cases s with ⟨-, e⟩ | ⟨hshort, -⟩
  · exact e
  · exact absurd h (Nat.not_le.mpr hshort)

theorem doFinish_eq_losePacket {s : State} (h : room s < hdr + s.len.toNat + 1) : doFinish s = losePacket (endEscape s) := by
  rcases doFinish_cases s with ⟨hfits, -⟩ | ⟨-, e⟩
  · exact absurd hfits (Nat.not_le.mpr h)
  · exact e

/-! ### The bytes that `Commit` writes (R48) -/

/-- The writes in an abandoned tail stay in its first five bytes and inside `MEM`. -/
theorem tailWrites_index {c : Config} {v : Byte} {q : Nat} {x : Nat × Byte} (h : x ∈ tailWrites c v q) :
    q ≤ x.1 ∧ x.1 < q + 5 ∧ x.1 < c.cap := by
  unfold tailWrites at h
  split at h
  · rename_i hlong
    simp only [List.mem_cons, List.not_mem_nil, or_false, minSpan] at h hlong
    rcases h with rfl | rfl | rfl | rfl | rfl <;> simp only <;> omega
  · rename_i hshort
    simp only [List.mem_map, List.mem_range, minSpan] at h hshort
    obtain ⟨k, hk, rfl⟩ := h
    simp only
    omega

/-- Two writes of an abandoned tail at one index write the same byte. -/
theorem tailWrites_agree {c : Config} {v : Byte} {q : Nat} {x y : Nat × Byte} (hx : x ∈ tailWrites c v q)
    (hy : y ∈ tailWrites c v q) (h : x.1 = y.1) : x.2 = y.2 := by
  unfold tailWrites at hx hy
  split at hx
  · rw [if_pos ‹_›] at hy
    simp only [List.mem_cons, List.not_mem_nil, or_false] at hx hy
    rcases hx with rfl | rfl | rfl | rfl | rfl <;> rcases hy with rfl | rfl | rfl | rfl | rfl <;> simp_all
  · rw [if_neg ‹_›] at hy
    simp only [List.mem_map] at hx hy
    obtain ⟨j, -, rfl⟩ := hx
    obtain ⟨k, -, rfl⟩ := hy
    rfl

theorem packetWrites_index {s : State} {x : Nat × Byte} (h : x ∈ packetWrites s) :
    (s.w ≤ x.1 ∧ x.1 < s.w + 4) ∨ x.1 = s.w + 4 + s.len.toNat := by
  rcases packetWrites_cases h with rfl | rfl | rfl | rfl | rfl <;> simp

theorem mem_commitWrites {s : State} {x : Nat × Byte} : x ∈ commitWrites s ↔ x ∈ packetWrites s ∨
    (s.cfg.cap - (s.w + s.len.toNat + 5) < maxSpan ∧ x ∈ tailWrites s.cfg s.src (s.w + s.len.toNat + 5)) := by
  unfold commitWrites
  split <;> simp_all

theorem memRead_commit (s : State) (a : Nat) : memRead (commit s) a = memRead (writeBytes (commitWrites s) s) a :=
  memRead_congr (by simp) (by simp) (by simp) a

section
variable {s : State} (hend : s.w + s.len.toNat + 5 ≤ s.cfg.cap)
include hend

/-- `Commit` leaves every byte alone that is no byte of the header, nor the trailing zero, nor one of the first five bytes of an
abandoned tail. -/
theorem memRead_commit_frame {a : Nat} (ha : a < s.cfg.cap) (hheader : ¬ (s.w ≤ a ∧ a < s.w + 4))
    (htrailer : a ≠ s.w + 4 + s.len.toNat)
    (htail : ¬ (s.cfg.cap - (s.w + s.len.toNat + 5) < maxSpan ∧ s.w + s.len.toNat + 5 ≤ a ∧ a < s.w + s.len.toNat + 5 + 5)) :
    memRead (commit s) a = memRead s a := by
  rw [memRead_commit]
  refine memRead_writeBytes_other fun x hx => ?_
  rw [maskIndex_of_lt ha]
  rcases mem_commitWrites.mp hx with hp | ⟨hwrap, ht⟩
  · have hindex := packetWrites_index hp
    rw [maskIndex_of_lt (a := x.1) (by omega)]
    omega
  · obtain ⟨hlo, hhi, hinside⟩ := tailWrites_index ht
    rw [maskIndex_of_lt hinside]
    rintro rfl
    exact htail ⟨hwrap, hlo, hhi⟩

/-- An early wrap leaves the bytes of `tailWrites` in the abandoned tail. -/
theorem memRead_commit_tail (hwrap : s.cfg.cap - (s.w + s.len.toNat + 5) < maxSpan) {a : Nat} {v : Byte}
    (h : (a, v) ∈ tailWrites s.cfg s.src (s.w + s.len.toNat + 5)) : memRead (commit s) a = v := by
  obtain ⟨hlo, -, hinside⟩ := tailWrites_index h
  rw [memRead_commit]
  refine memRead_writeBytes_mem ⟨(a, v), mem_commitWrites.mpr (.inr ⟨hwrap, h⟩), rfl⟩ fun x hx heq => ?_
  rw [maskIndex_of_lt hinside] at heq
  rcases mem_commitWrites.mp hx with hp | ⟨-, ht⟩
  · have hindex := packetWrites_index hp
    rw [maskIndex_of_lt (a := x.1) (by omega)] at heq
    simp only at heq hlo
    omega
  · obtain ⟨-, -, hinside'⟩ := tailWrites_index ht
    rw [maskIndex_of_lt hinside'] at heq
    exact (tailWrites_agree h ht heq).symm

/-- A tail that a header fits in becomes a sentinel (R48). -/
theorem memRead_commit_sentinel (hwrap : s.cfg.cap - (s.w + s.len.toNat + 5) < maxSpan)
    (hlong : minSpan ≤ s.cfg.cap - (s.w + s.len.toNat + 5)) {x : Nat × Byte}
    (hx : x ∈ [(s.w + s.len.toNat + 5, s.src), (s.w + s.len.toNat + 5 + 1, flagDeleted), (s.w + s.len.toNat + 5 + 2, 0x00#8),
      (s.w + s.len.toNat + 5 + 3, 0x00#8), (s.w + s.len.toNat + 5 + 4, 0x00#8)]) : memRead (commit s) x.1 = x.2 :=
  memRead_commit_tail hend hwrap (by rw [tailWrites, if_pos hlong]; exact hx)

/-- A shorter tail is filled with zeros (R48). -/
theorem memRead_commit_zeros (hshort : s.cfg.cap - (s.w + s.len.toNat + 5) < minSpan) {a : Nat}
    (hlo : s.w + s.len.toNat + 5 ≤ a) (hhi : a < s.cfg.cap) : memRead (commit s) a = 0x00#8 := by
  simp only [minSpan] at hshort
  refine memRead_commit_tail hend (by simp only [maxSpan]; omega) ?_
  rw [tailWrites, if_neg (by simp only [minSpan]; omega), List.mem_map]
  exact ⟨a - (s.w + s.len.toNat + 5), by rw [List.mem_range]; omega, by rw [Nat.add_sub_cancel' hlo]⟩

end

/-! ### The statements -/

/-- Settles O24: in packet mode the effect is the decoding step after the error fold, one case for each kind of byte with and
without an escape pending. -/
theorem rxByteDecodesPacketMode : Obligations.RxByteDecodesPacketMode := by
  intro b e s hrun hmode
  refine ⟨encode_rxByte b e, fun hplain hb => ?delim, fun hplain hb => ?esc, fun hplain hdelim hesc htakes => ?data,
    fun hplain hdelim hesc hfull => ?full, fun hpending hb => ?escDelim, fun hpending hb => ?escEsc,
    fun hpending hdelim hesc => ?bad⟩
  case delim =>
    subst hb
    exact (exec_rxByte_of_decodeStep hrun hmode (decodeStep_on_delim (s := foldErrors e s) hplain)).trans
      (exec_finish_eq (s := foldErrors e s) hrun).symm
  case esc =>
    subst hb
    exact exec_rxByte_of_decodeStep hrun hmode (decodeStep_on_esc (s := foldErrors e s) hplain)
  case data =>
    refine ⟨_, exec_rxByte_of_decodeStep hrun hmode (decodeStep_on_data (s := foldErrors e s) hplain hdelim hesc), ?_⟩
    exact hplain ▸ appendedByte_respond_appendByte (s := foldErrors e s) b htakes
  case full =>
    exact exec_rxByte_of_decodeStep hrun hmode
      ((decodeStep_on_data (s := foldErrors e s) hplain hdelim hesc).trans (appendByte_of_not_takesByte b hfull))
  case escDelim =>
    subst hb
    exact (exec_rxByte_of_decodeStep hrun hmode (decodeStep_escDelim (s := foldErrors e s) hpending)).trans
      (exec_storeRaw_eq (s := setEscp false (foldErrors e s)) hrun).symm
  case escEsc =>
    subst hb
    exact (exec_rxByte_of_decodeStep hrun hmode (decodeStep_escEsc (s := foldErrors e s) hpending)).trans
      (exec_storeRaw_eq (s := setEscp false (foldErrors e s)) hrun).symm
  case bad =>
    have hagain := exec_rxByte_of_decodeStep (b := b) (e := 0#4)
      (s := orFlags flagBadEscape (setEscp false (foldErrors e s))) hrun hmode rfl
    rw [foldErrors_zero] at hagain
    exact (exec_rxByte_of_decodeStep hrun hmode (decodeStep_bad_escape (s := foldErrors e s) hpending hdelim hesc)).trans
      hagain.symm

/-- Settles O25: the answer between the two commands is overwritten by the second, and `FINISH` does not look at it. -/
theorem rxByteByteModeIsStoreThenFinish : Obligations.RxByteByteModeIsStoreThenFinish := by
  intro b e s hrun hmode
  have hfinish := exec_finish_eq (s := setResponse .producer (answer 0#32) (appendByte b (foldErrors e s))) (by simpa using hrun)
  rw [doFinish_setResponse, setResponse_setResponse] at hfinish
  rw [exec_rxByte_byteMode hrun hmode]
  exact ((execAll_cons (exec_storeRaw_eq (s := foldErrors e s) hrun) _).trans (execAll_cons hfinish [])).symm

/-- Settles O26: the byte is taken, and the end of the Packet adds it at the back of the queue. -/
theorem rxByteByteModeMakesPacket : Obligations.RxByteByteModeMakesPacket := by
  intro b e s hinv hrun hmode hlen hroom
  have hfold : (foldErrors e s).Inv := hinv.foldErrors e
  have hnone : (foldErrors e s).len.toNat = 0 := by rw [foldErrors_len, hlen]; rfl
  have hfits : 6 ≤ room (foldErrors e s) := hroom
  have htakes : takesByte (foldErrors e s) := by unfold takesByte; omega
  have hstored : appendByte b (foldErrors e s) = _ := if_pos htakes
  have hone : (appendByte b (foldErrors e s)).len.toNat = 1 := by
    rw [hstored]
    exact (len_add_one (by rw [hnone]; decide)).trans (by rw [hnone])
  have hroom' : hdr + (appendByte b (foldErrors e s)).len.toNat + 1 ≤ room (appendByte b (foldErrors e s)) := by
    rw [hone, room_congr (s := foldErrors e s) (by simp) (by simp) (by simp) (by simp)]
    exact hfits
  refine ⟨_, exec_rxByte_byteMode hrun hmode, ?_, by simp, by simp, ?_⟩
  · rw [setResponse_npk, doFinish_eq_commit hroom', commit_npk, endEscape_npk, appendByte_npk, foldErrors_npk]
  · have hqueue : ∀ u : State, storedPackets (setResponse .producer (answer 0#32) u) = storedPackets u := fun u =>
      storedPackets_congr rfl rfl rfl rfl rfl
    have hpfl : (appendByte b (foldErrors e s)).pfl = s.pfl ||| e.setWidth 8 := by rw [hstored]; rfl
    have hdata : inProgressData (foldErrors e s) = [] := by rw [inProgressData, hnone]; rfl
    rcases storedPackets_doFinish (hfold.appendByte b) with ⟨-, hback⟩ | ⟨hshort, -⟩
    · rw [hqueue, hback, storedPackets_appendByte hfold, inProgressData_appendByte hfold b htakes.1 htakes.2, hdata, hpfl,
        storedPackets_congr (s := s) (t := foldErrors e s) rfl rfl rfl rfl rfl]
      cases hescp : s.escp <;> simp [hescp]
    · exact absurd hroom' (Nat.not_le.mpr hshort)

/-- Settles O27: `FINISH` is `Commit` once the pending escape is flagged, and `Commit`'s writes are read back one by one. -/
theorem finishCommitsPacket : Obligations.FinishCommitsPacket := by
  rintro s q hrun hw hlen hroom rfl
  have hcap := cap_ge s.cfg
  have hend : s.w + s.len.toNat + 5 ≤ s.cfg.cap := by omega
  have hend' : (endEscape s).w + (endEscape s).len.toNat + 5 ≤ (endEscape s).cfg.cap := by simpa using hend
  have hread : ∀ a, memRead (endEscape s) a = memRead s a := memRead_congr (by simp) (by simp) (by simp)
  have hresp : ∀ a, memRead (setResponse .producer (answer 0#32) (commit (endEscape s))) a = memRead (commit (endEscape s)) a :=
    memRead_congr rfl rfl rfl
  obtain ⟨hsrc, hfl, hcur, hlength, htr⟩ := memRead_commit_header hend'
  have hsentinel := memRead_commit_sentinel hend'
  have hzeros := fun hshort a => memRead_commit_zeros (a := a) hend' hshort
  have hframe := fun a => memRead_commit_frame (a := a) hend'
  simp only [endEscape_w, endEscape_len, endEscape_cfg, endEscape_src] at hsrc hfl hcur hlength htr hsentinel hzeros hframe
  refine ⟨rfl, setResponse .producer (answer 0#32) (commit (endEscape s)), ?exec, ?registers, ?_⟩
  case exec => rw [exec_finish_eq hrun, doFinish_eq_commit hroom]
  case registers =>
    exact congrArg (setResponse .producer (answer 0#32)) ((commit_eq (endEscape s)).trans (by rw [endEscape_eq s]; rfl))
  simp only [hresp]
  refine ⟨hsrc, hfl.trans (endEscape_pfl s), hcur, BitVec.eq_of_toNat_eq hlength, ?trailer, fun hwrap hlong => ?sentinel,
    hzeros, fun a ha hheader htrailer htail => (hframe a ha hheader htrailer htail).trans (hread a)⟩
  case trailer => rw [← hlength]; exact htr
  case sentinel =>
    have hbyte := @hsentinel hwrap hlong
    exact ⟨hbyte (x := (_, _)) (by simp), hbyte (x := (_, _)) (by simp), hbyte (x := (_, _)) (by simp),
      hbyte (x := (_, _)) (by simp), hbyte (x := (_, _)) (by simp)⟩

/-- Settles O28: with no room even for the header and the trailing zero the Packet is lost; data that were stored have room. -/
theorem finishLosesOnlyWhatCannotFit : Obligations.FinishLosesOnlyWhatCannotFit := by
  intro s hrun hshort
  refine ⟨?_, fun hinv => ?_⟩
  · rw [exec_finish_eq hrun, doFinish_eq_losePacket hshort, endEscape_eq]
    rfl
  · have hnone : s.len.toNat = 0 := by
      have := hinv.ring.dataPlaced
      simp only [hdr] at this
      omega
    exact ⟨BitVec.eq_of_toNat_eq hnone, by omega⟩

end Sys2Proof.Machine
end

section
/-! The consumer's commands and `SET_SOURCE` (R83 to R94): `Room()` under freeing (R45), the walk of `CHECK` along a list of
positions (R94), then the statements O32, O34 to O41, O43 and O44. -/

namespace Sys2Proof.Machine

/-! ### Room (R45) -/

/-- A block whose store is empty, or does not wrap, has room for a maximum-size Packet (R44). -/
theorem maxSpan_le_room {s : State} (h : s.RegisterInv) (hcase : s.npk = 0 ∨ s.old < s.w) : maxSpan ≤ room s := by
  have hcap := cap_ge s.cfg
  have hw := h.writeIndexPlaced
  have hroom := room_cases s
  simp only [maxSpan] at hw ⊢
  omega

/-- The effect of a consumer command leaves `W` alone and does not lessen the room. -/
theorem room_le_room_effect {i : Instr} {s : State} (h : s.Inv) (hport : i.port = .consumer) (hc : haltCode i s = none) :
    room s ≤ room (effect i s) := by
  have hw := h.registers.writeIndexPlaced
  cases i with
  | dispatchBegin =>
    rw [effect]
    split <;> exact Nat.le_refl _
  | dispatchEnd =>
    have hlock : s.lock = true := by simpa [haltCode] using hc
    exact (h.ring.room_freeOldest hw (h.registers.lockHoldsPacket hlock)).1
  | copyOut =>
    rw [effect]
    split
    · exact Nat.le_refl _
    · exact (h.ring.room_freeOldest hw (by omega)).1
  | count | isEmpty | rd | wrCursor | status | check | clearLost | nop => exact Nat.le_refl _
  | _ => cases hport

/-! ### Halting or not, command by command (R98, R100) -/

theorem sourceLegal_iff (v : Byte) : sourceLegal v = true ↔ v.toNat < 41 := decide_eq_true_iff

/-! ### The walk of `CHECK` along given positions (R94) -/

section
variable {s : State} {pos : Nat → Nat} (hnext : ∀ k, pos (k + 1) = advance s (pos k))
include hnext

/-- A walk from the first of the positions ends at the one it has counted to, and visits those before. -/
theorem walk_of_positions (k : Nat) : walkEnd s k (pos 0) = pos k ∧ walk s k (pos 0) = (List.range k).map pos := by
  induction k with
  | zero => exact ⟨rfl, rfl⟩
  | succ k ih =>
    obtain ⟨hend, hwalk⟩ := ih
    exact ⟨by rw [walkEnd_succ, hend, hnext], by rw [walk_succ, hend, hwalk, List.range_succ, List.map_append]; rfl⟩

theorem walkSound_iff_positions (k : Nat) :
    walkSound s k (pos 0) = true ↔ pos k = s.w ∧ ∀ j, j < k → packetSound s (pos j) = true := by
  obtain ⟨hend, hwalk⟩ := walk_of_positions hnext k
  rw [walkSound_iff, hend, hwalk, and_comm]
  simp

end

/-- Everything `CHECK` tests, written out (R94). -/
theorem checkPasses_iff (s : State) : checkPasses s = true ↔
    s.npk ≤ s.cfg.npkMax ∧ (s.lock = true → 1 ≤ s.npk) ∧ (s.npk = 0 → s.old = s.w) ∧ s.len.toNat ≤ maxLen
      ∧ walkSound s s.npk s.old = true := by
  have hlock : s.lock.toNat ≤ s.npk ↔ (s.lock = true → 1 ≤ s.npk) := by cases s.lock <;> simp
  have hempty : 0 < s.npk ∨ s.old = s.w ↔ (s.npk = 0 → s.old = s.w) := by
    rw [Nat.pos_iff_ne_zero, ← imp_iff_not_or]
  simp only [checkPasses, Bool.and_eq_true, Bool.or_eq_true, decide_eq_true_eq, beq_iff_eq, hlock, hempty, and_assoc]

/-! ### The statements -/

/-- Settles O32: the cases of `Room()` are its definition; of the consumer's commands only those that free a Packet change it. -/
theorem roomFollowsItsRule : Obligations.RoomFollowsItsRule := by
  refine ⟨fun s => ?_, fun s h hcase => maxSpan_le_room h hcase, fun i s t h hport e => ?_⟩
  · have hroom := room_cases s
    omega
  · have hwriter : t.w = s.w := by
      by_contra hne
      rcases writer_of_w (exec_field State.w (by simp) (by simp) e hne) with rfl | ⟨b, e, rfl⟩ <;> cases hport
    refine ⟨hwriter, ?_⟩
    have hresponse : ∀ p r u, room (setResponse p r u) = room u := fun p r u =>
      room_congr (by simp) (by simp) (by simp) (by simp)
    rcases exec_cases i s with ⟨-, e'⟩ | ⟨-, c, -, e'⟩ | ⟨-, hc, e'⟩ <;> cases e'.symm.trans e
    · exact (hresponse ..).ge
    · exact (room_congr (by simp) (by simp) (by simp) (by simp)).ge
    · exact (room_le_room_effect h hport hc).trans (hresponse ..).ge

/-- Settles O34: the one thing that halts `SET_SOURCE` is a tag out of range. -/
theorem setSourceWritesLegalTag : Obligations.SetSourceWritesLegalTag := fun v _ =>
  ⟨encode_setSource v, fun hrun hlt => exec_running hrun (if_pos ((sourceLegal_iff v).mpr hlt)),
    fun hrun hge => exec_fatal hrun (if_neg (mt (sourceLegal_iff v).mp (Nat.not_lt.mpr hge)))⟩

/-- Settles O35: outside a dispatch an empty store has no effect, and any other holds the Packet at `OLD`. -/
theorem dispatchBeginHoldsOldest : Obligations.DispatchBeginHoldsOldest := by
  refine fun s => ⟨rfl, fun hrun hlock => exec_fatal hrun (if_pos hlock), fun hrun hlock hn => ?_,
    fun hrun hlock hn hold => ⟨packetWord s.old (sourceAt s s.old), ?_, packetWord_toNat _ hold⟩⟩
  · rw [exec_running (i := .dispatchBegin) hrun (if_neg (ne_true_of_eq_false hlock)), answerValue, effect, if_pos hn, if_pos hn]
    rfl
  · rw [exec_running (i := .dispatchBegin) hrun (if_neg (ne_true_of_eq_false hlock)), answerValue, effect, if_neg hn, if_neg hn]
    rfl

/-- Settles O36: in a dispatch the effect is that of freeing the Packet at `OLD`, with `LOCK` cleared. -/
theorem dispatchEndFreesHeld : Obligations.DispatchEndFreesHeld := by
  rintro s q rfl
  exact ⟨rfl, fun hrun hlock => exec_fatal hrun (if_neg (ne_true_of_eq_false hlock)),
    fun hrun hlock => exec_running hrun (if_pos hlock)⟩

/-- Settles O37: outside a dispatch an empty store has no effect; any other emits the span of the Packet at `OLD` and frees it. -/
theorem copyOutStreamsOldest : Obligations.CopyOutStreamsOldest := by
  rintro s n q rfl rfl
  refine ⟨rfl, fun hrun hlock => exec_fatal hrun (if_pos hlock), fun hrun hlock hn => ?_,
    fun hrun hlock hn hold => ⟨packetWord s.old (memRead s (s.old + 3)), packetBytes s s.old, ?_, packetWord_toNat _ hold,
      length_readSpan _ _ _, fun j hj => getElem?_readSpan hj⟩⟩
  · rw [exec_running (i := .copyOut) hrun (if_neg (ne_true_of_eq_false hlock)), answerValue, emitted,
      effect, if_pos hn, if_pos hn, if_pos hn]
    rfl
  · rw [exec_running (i := .copyOut) hrun (if_neg (ne_true_of_eq_false hlock)), answerValue, emitted,
      effect, if_neg hn, if_neg hn, if_neg hn]
    rfl

/-- Settles O38: outside a dispatch no stored Packet has been held, so the cursor of each is 0. -/
theorem copiedCursorIsZero : Obligations.CopiedCursorIsZero := by
  intro s h hrun hlock hn
  refine ⟨_, _, exec_running (i := .copyOut) hrun (if_neg (ne_true_of_eq_false hlock)), lastResponse_setResponse _ _ _, ?_⟩
  have hcursor : cursorAt s s.old = 0x00#8 :=
    h.ring.cursorsUnread _ (by rw [hlock]; exact old_mem_occupying (Nat.pos_of_ne_zero hn))
  rw [emitted, if_neg hn, packetBytes, getElem?_readSpan (by omega)]
  exact congrArg some hcursor

/-- Settles O39: `RD` never halts a running block; its index is masked when it runs. -/
theorem rdReadsMaskedIndex : Obligations.RdReadsMaskedIndex := by
  intro a s
  rw [← maskIndex_eq_mod]
  exact ⟨encode_rd a, fun hrun => exec_running hrun rfl⟩

/-- Settles O40: read after write, with the indices masked; and the byte of an index that no write reached. -/
theorem memoryReadsWhatWasWritten : Obligations.MemoryReadsWhatWasWritten := fun s a b v =>
  ⟨by rw [memRead_memWrite, maskIndex_eq_mod, maskIndex_eq_mod], memRead_of_unwritten⟩

/-- Settles O41: in a dispatch, and within the held Packet's length, the effect is one write at `OLD + 2`. -/
theorem wrCursorWritesHeldCursor : Obligations.WrCursorWritesHeldCursor := by
  intro v s
  refine ⟨encode_wrCursor v, fun hrun hlock => exec_fatal hrun (if_neg (ne_true_of_eq_false hlock)), fun hrun hlock hgt => ?_,
    fun hrun hlock hle => ⟨_, exec_running hrun ((haltCode_wrCursor_eq_none_iff v s).mpr ⟨hlock, hle⟩), rfl,
      memRead_memWrite_same s _ v, fun a ha => memRead_memWrite_other (s := s) ?_⟩⟩
  · exact exec_fatal hrun ((if_pos hlock).trans (if_pos hgt))
  · rwa [maskIndex_eq_mod, maskIndex_eq_mod]

/-- Settles O43: `CLEAR_LOST` never halts a running block, and its effect is one register. -/
theorem clearLostClearsLost : Obligations.ClearLostClearsLost :=
  fun _ => ⟨rfl, fun hrun => exec_running hrun rfl⟩

/-- Settles O44: the walk of `CHECK` visits the given positions, and each test there is one of `packetSound`. -/
theorem checkWalksTheStore : Obligations.CheckWalksTheStore := by
  intro s pos hfirst hnext hrun ok hok
  have hpasses : checkPasses s = true ↔ ok := by
    rw [checkPasses_iff, ← hfirst, walkSound_iff_positions (s := s) hnext, hfirst, hok]
    simp only [packetSound_iff]
    rfl
  exact ⟨rfl, fun h => exec_running hrun (if_pos (hpasses.mpr h)), fun h => exec_fatal hrun (if_neg (mt hpasses.mp h))⟩

end Sys2Proof.Machine
end

section
/-! The queue of stored Packets (R46, R53, R86): which effects leave the stored Packets as they are, which add one and which take one,
then the statements O51, O52, O53 and O60. -/

namespace Sys2Proof.Machine

/-! ### Adding at the back (R86) -/

/-- `u` stores what `s` stores, or one Packet more at the back. -/
def AddsAtMostOne (s u : State) : Prop :=
  storedPackets u = storedPackets s ∨ ∃ v, storedPackets u = storedPackets s ++ [v]

theorem addsAtMostOne_doFinish {s : State} (h : s.Inv) : AddsAtMostOne s (doFinish s) :=
  (storedPackets_doFinish h).symm.imp And.right fun hback => ⟨_, hback.2⟩

/-- Adding is seen from any state that stores the same. -/
theorem AddsAtMostOne.of_eq {s s' u : State} (h : AddsAtMostOne s' u) (e : storedPackets s' = storedPackets s) :
    AddsAtMostOne s u := by
  rwa [AddsAtMostOne, e] at h

theorem addsAtMostOne_decodePlain {s : State} (h : s.Inv) (b : Byte) (d : Bool) : AddsAtMostOne s (decodePlain b d s) := by
  rcases decodePlain_cases b d s with ⟨-, -, e⟩ | ⟨-, e⟩ | ⟨-, -, e⟩ <;> rw [e]
  · exact addsAtMostOne_doFinish h
  · exact .inl (storedPackets_congr rfl rfl rfl rfl rfl)
  · exact .inl (storedPackets_appendByte h b)

/-- A pending escape that is cleared, and flagged, leaves the queue alone. -/
theorem storedPackets_setEscp (b : Bool) (s : State) : storedPackets (setEscp b s) = storedPackets s :=
  storedPackets_congr rfl rfl rfl rfl rfl

theorem storedPackets_orFlags (f : Byte) (s : State) : storedPackets (orFlags f s) = storedPackets s :=
  storedPackets_congr rfl rfl rfl rfl rfl

theorem addsAtMostOne_decodeStep {s : State} (h : s.Inv) (b : Byte) (d : Bool) : AddsAtMostOne s (decodeStep b d s) := by
  have happend : ∀ c, AddsAtMostOne s (appendByte c (setEscp false s)) := fun c =>
    .inl ((storedPackets_appendByte (h.setEscp false) c).trans (storedPackets_setEscp false s))
  rcases Bool.eq_false_or_eq_true s.escp with hpending | hplain
  · rcases decodeStep_escaped (b := b) (d := d) hpending with ⟨-, e⟩ | ⟨-, e⟩ | ⟨-, -, e⟩ <;> rw [e]
    · exact happend _
    · exact happend _
    · exact (addsAtMostOne_decodePlain ((h.setEscp false).orFlags (by decide)) b d).of_eq
        ((storedPackets_orFlags _ _).trans (storedPackets_setEscp false s))
  · rw [decodeStep_unescaped hplain]
    exact addsAtMostOne_decodePlain h b d

theorem addsAtMostOne_receiveByte {s : State} (h : s.Inv) (b : Byte) : AddsAtMostOne s (receiveByte b s) := by
  unfold receiveByte
  split
  · exact (addsAtMostOne_doFinish (h.appendByte b)).of_eq (storedPackets_appendByte h b)
  · exact addsAtMostOne_decodeStep h b true

/-- Without delimiter detection nothing is added (R78). -/
theorem storedPackets_decodeStep_off {s : State} (h : s.Inv) (b : Byte) :
    storedPackets (decodeStep b false s) = storedPackets s := by
  refine (decodeStep_keeps_off (P := fun u => u.Inv ∧ storedPackets u = storedPackets s) b ⟨h, rfl⟩ ?_ ?_ ?_ ?_).2
  · exact fun u hu => ⟨hu.1.setEscp false, (storedPackets_setEscp false u).trans hu.2⟩
  · exact fun u hu => ⟨hu.1.orFlags (by decide), (storedPackets_orFlags _ u).trans hu.2⟩
  · exact fun u hu => ⟨hu.1.setEscp true, (storedPackets_setEscp true u).trans hu.2⟩
  · exact fun c u hu => ⟨hu.1.appendByte c, (storedPackets_appendByte hu.1 c).trans hu.2⟩

theorem storedPackets_setResponse (p : Port) (r : Response) (s : State) :
    storedPackets (setResponse p r s) = storedPackets s :=
  storedPackets_congr (by simp) (by simp) (by simp) (by simp) (by simp)

/-! ### Taking at the front (R84, R85) -/

/-- A held Packet that is freed, and a Packet that is copied out, is the one at the front. -/
theorem storedPackets_of_removal {i : Instr} {s : State} (hn : 0 < s.npk) (hi : i = .dispatchEnd ∨ i = .copyOut) :
    storedPackets s = packetView s s.old :: storedPackets (effect i s) := by
  have hfreed : storedPackets (effect i s) = storedPackets (freeOldest s) := by
    rcases hi with rfl | rfl
    · exact storedPackets_congr rfl rfl rfl rfl rfl
    · rw [effect, if_neg (Nat.ne_of_gt hn)]
      exact storedPackets_congr rfl rfl rfl rfl rfl
  rw [hfreed]
  exact storedPackets_freeOldest hn

/-! ### What an effect does to the queue -/

/-- The queue's three cases for an effect (R86). -/
theorem storedPackets_effect {i : Instr} {s : State} (h : s.Inv) (hc : haltCode i s = none) :
    storedPackets (effect i s) = storedPackets s
      ∨ ((i = .finish ∨ ∃ b e, i = .rxByte b e) ∧ ∃ v, storedPackets (effect i s) = storedPackets s ++ [v])
      ∨ ((i = .dispatchEnd ∨ i = .copyOut) ∧ ∃ v, storedPackets s = v :: storedPackets (effect i s)) := by
  cases i with
  | finish => exact (addsAtMostOne_doFinish h).imp_right fun hv => .inl ⟨.inl rfl, hv⟩
  | rxByte b e =>
    exact ((addsAtMostOne_receiveByte (h.foldErrors e) b).of_eq (storedPackets_orFlags _ s)).imp_right
      fun hv => .inl ⟨.inr ⟨b, e, rfl⟩, hv⟩
  | dispatchEnd =>
    have hlock : s.lock = true := by simpa [haltCode] using hc
    exact .inr (.inr ⟨.inl rfl, _, storedPackets_of_removal (h.registers.lockHoldsPacket hlock) (.inl rfl)⟩)
  | copyOut =>
    rcases Nat.eq_zero_or_pos s.npk with hn | hn
    · exact .inl (by rw [effect, if_pos hn])
    · exact .inr (.inr ⟨.inr rfl, _, storedPackets_of_removal hn (.inr rfl)⟩)
  | storeRaw b => exact .inl (storedPackets_appendByte h b)
  | storeData b => exact .inl (storedPackets_decodeStep_off h b)
  | wrCursor v =>
    obtain ⟨hlock, -⟩ := (haltCode_wrCursor_eq_none_iff v s).mp hc
    exact .inl (storedPackets_writeCursor h (h.registers.lockHoldsPacket hlock) v)
  | setMode v => exact .inl (storedPackets_congr (by simp [effect]) (by simp [effect]) (by simp [effect]) (by simp [effect])
      (by simp [effect]))
  | dispatchBegin =>
    refine .inl ?_
    rw [effect]
    split
    · rfl
    · exact storedPackets_congr rfl rfl rfl rfl rfl
  | _ => exact .inl (storedPackets_congr rfl rfl rfl rfl rfl)

/-! ### The stored bytes (R53) -/

/-- `u` still stores the Packets of `s`, byte for byte, and meets the invariants. -/
structure Undisturbed (s u : State) : Prop where
  inv : u.Inv
  stored : ∀ p ∈ occupying s, p ∈ occupying u
  bytes : ∀ p ∈ occupying s, ∀ j, j < lengthAt s p + 5 → memRead u (p + j) = memRead s (p + j)

theorem Undisturbed.lengthAt_eq {s u : State} (h : Undisturbed s u) {p : Nat} (hp : p ∈ occupying s) :
    lengthAt u p = lengthAt s p :=
  (packet_congr (h.bytes p hp)).1

section
variable {s u : State} (h : Undisturbed s u)
include h

/-- An operation that leaves `OLD`, `NPK` and `MEM` alone disturbs nothing. -/
theorem Undisturbed.of_same {v : State} (hinv : v.Inv) (hc : v.cfg = u.cfg) (ho : v.old = u.old) (hn : v.npk = u.npk)
    (hm : v.mem = u.mem) (hd : v.draws = u.draws) : Undisturbed s v where
  inv := hinv
  stored p hp := by rw [occupying_congr hc ho hn hm hd]; exact h.stored p hp
  bytes p hp j hj := (memRead_congr hc hm hd _).trans (h.bytes p hp j hj)

theorem Undisturbed.appendByte (b : Byte) : Undisturbed s (appendByte b u) where
  inv := h.inv.appendByte b
  stored p hp := by
    have hlen : ∀ q ∈ occupying u, lengthAt (Machine.appendByte b u) q = lengthAt u q := fun _ hq =>
      (packet_congr fun _ => memRead_appendByte_stored h.inv b hq).1
    have hocc : occupying (Machine.appendByte b u) = occupying u := by
      rw [occupying, occupying, appendByte_npk, appendByte_old]
      exact (walk_congr (s := u) (by simp) _ _ hlen).1
    rw [hocc]
    exact h.stored p hp
  bytes p hp j hj :=
    (memRead_appendByte_stored h.inv b (h.stored p hp) (by rwa [h.lengthAt_eq hp])).trans (h.bytes p hp j hj)

theorem Undisturbed.commit (hroom : hdr + u.len.toNat + 1 ≤ room u) : Undisturbed s (commit u) := by
  obtain ⟨hbytes, hocc, -⟩ := occupying_commit h.inv.ring h.inv.registers.writeIndexPlaced hroom
  refine ⟨h.inv.commit hroom, fun p hp => ?_, fun p hp j hj => ?_⟩
  · rw [hocc]
    exact List.mem_append_left _ (h.stored p hp)
  · exact (hbytes p (h.stored p hp) j (by rwa [h.lengthAt_eq hp])).trans (h.bytes p hp j hj)

theorem Undisturbed.setEscp (b : Bool) : Undisturbed s (setEscp b u) :=
  h.of_same (h.inv.setEscp b) rfl rfl rfl rfl rfl

theorem Undisturbed.orFlags {f : Byte} (hf : f &&& 0xC0#8 = 0x00#8) : Undisturbed s (orFlags f u) :=
  h.of_same (h.inv.orFlags hf) rfl rfl rfl rfl rfl

theorem Undisturbed.doFinish : Undisturbed s (doFinish u) := by
  have hescape : Undisturbed s (endEscape u) :=
    h.of_same h.inv.endEscape (by simp) (by simp) (by simp) (by simp) (by simp)
  have hroom : room (endEscape u) = room u := room_congr (by simp) (by simp) (by simp) (by simp)
  rcases doFinish_cases u with ⟨hfits, e⟩ | ⟨-, e⟩ <;> rw [e]
  · exact hescape.commit (by simpa [hroom] using hfits)
  · exact hescape.of_same hescape.inv.losePacket rfl rfl rfl rfl rfl

theorem Undisturbed.decodeStep (b : Byte) (d : Bool) : Undisturbed s (decodeStep b d u) :=
  decodeStep_keeps b d h (fun _ hv => hv.setEscp false) (fun _ hv => hv.orFlags (by decide)) (fun _ hv => hv.doFinish)
    (fun _ hv => hv.setEscp true) (fun c _ hv => hv.appendByte c)

theorem Undisturbed.receiveByte (b : Byte) : Undisturbed s (receiveByte b u) := by
  unfold Machine.receiveByte
  split
  · exact (h.appendByte b).doFinish
  · exact h.decodeStep b true

end

theorem Undisturbed.refl {s : State} (h : s.Inv) : Undisturbed s s := ⟨h, fun _ hp => hp, fun _ _ _ _ => rfl⟩

/-- The effect of a producer or TX command disturbs no stored Packet. -/
theorem undisturbed_effect {i : Instr} {s : State} (h : s.Inv) (hport : i.port ≠ .consumer) (hc : haltCode i s = none) :
    Undisturbed s (effect i s) := by
  have hs := Undisturbed.refl h
  cases i with
  | rxByte b e => exact (hs.of_same (h.foldErrors e) rfl rfl rfl rfl rfl).receiveByte b
  | storeRaw b => exact hs.appendByte b
  | storeData b => exact hs.decodeStep b false
  | finish => exact hs.doFinish
  | setMode v =>
    exact hs.of_same (h.effect hc) (by simp [effect]) (by simp [effect]) (by simp [effect]) (by simp [effect]) (by simp [effect])
  | nop | forceSync | canAccept | isFull | setSource | txByte | txEnd => exact hs.of_same (h.effect hc) rfl rfl rfl rfl rfl
  | _ => exact absurd rfl hport

/-! ### The statements -/

/-- Settles O51: the queue's three cases for an effect; ignored or halting, a command leaves the queue as it is. -/
theorem ringIsFifoQueue : Obligations.RingIsFifoQueue := by
  intro i s t h e
  rcases exec_cases i s with ⟨-, e'⟩ | ⟨-, c, -, e'⟩ | ⟨-, hc, e'⟩ <;> cases e'.symm.trans e
  · exact .inl (storedPackets_setResponse _ _ s)
  · exact .inl (storedPackets_congr (by simp) (by simp) (by simp) (by simp) (by simp))
  · rw [respond, storedPackets_setResponse]
    exact storedPackets_effect h hc

/-- Settles O52: with room for the Packet the end of a Packet adds it at the back. -/
theorem finishAppendsInProgressPacket : Obligations.FinishAppendsInProgressPacket := by
  intro s h hrun hroom
  refine ⟨_, exec_finish_eq hrun, ?_⟩
  rw [storedPackets_setResponse]
  rcases storedPackets_doFinish h with ⟨-, hback⟩ | ⟨hshort, -⟩
  · exact hback
  · exact absurd hroom (Nat.not_le.mpr hshort)

/-- Settles O53: `OLD` and `LOCK` have consumer commands as their only writers, and no other effect disturbs a stored Packet. -/
theorem producerLeavesStoredPacketsAlone : Obligations.ProducerLeavesStoredPacketsAlone := by
  intro i s t h hport e
  refine ⟨?old, ?lock, fun p hp j hj => ?bytes⟩
  case old =>
    by_contra hne
    rcases writer_of_old (exec_field State.old (by simp) (by simp) e hne) with rfl | rfl <;> exact hport rfl
  case lock =>
    by_contra hne
    rcases writer_of_lock (exec_field State.lock (by simp) (by simp) e hne) with rfl | rfl <;> exact hport rfl
  case bytes =>
    rcases exec_cases i s with ⟨-, e'⟩ | ⟨-, c, -, e'⟩ | ⟨-, hc, e'⟩ <;> cases e'.symm.trans e
    · exact memRead_congr (by simp) (by simp) (by simp) _
    · exact memRead_congr (by simp) (by simp) (by simp) _
    · exact (memRead_congr (by simp [respond]) (by simp [respond]) (by simp [respond]) _).trans
        ((undisturbed_effect h hport hc).bytes p hp j hj)

/-- Settles O60: the Packet taken off the front is the one at `OLD`, read byte by byte. -/
theorem removalTakesOldestPacket : Obligations.RemovalTakesOldestPacket := by
  intro i s h hrun hcase
  have hremoves : haltCode i s = none ∧ 0 < s.npk ∧ (i = .dispatchEnd ∨ i = .copyOut) := by
    rcases hcase with ⟨rfl, hlock⟩ | ⟨rfl, hlock, hn⟩
    · exact ⟨if_pos hlock, h.registers.lockHoldsPacket hlock, .inl rfl⟩
    · exact ⟨if_neg (ne_true_of_eq_false hlock), Nat.pos_of_ne_zero hn, .inr rfl⟩
  obtain ⟨hc, hn, hi⟩ := hremoves
  refine ⟨_, packetView s s.old, exec_running hrun hc, ?_, rfl, length_readSpan _ _ _, fun j hj => getElem?_readSpan ?_⟩
  · rw [respond, storedPackets_setResponse]
    exact storedPackets_of_removal hn hi
  · rwa [packetView, length_readSpan] at hj

end Sys2Proof.Machine
end

section
/-! Streams of bytes: what `TX_PACKET` emits (R71 to R74), and a Packet collected byte by byte from an empty one (R73, R87), then the
statements O47 to O50. -/

namespace Sys2Proof.Machine

/-! ### What packet mode emits (R71, R74) -/

/-- The wire bytes of the data `d`, without the delimiter (R71). -/
def wireBytes (d : List Byte) : List Byte := d.flatMap (encodeTx .packet)

theorem wireBytes_append_singleton (d : List Byte) (b : Byte) : wireBytes (d ++ [b]) = wireBytes d ++ encodeTx .packet b := by
  simp [wireBytes]

/-- Packet mode escapes the two reserved bytes and sends every other one as it is. -/
theorem encodeTx_packet_cases (b : Byte) :
    (b = delim ∧ encodeTx .packet b = [esc, escDelim]) ∨ (b = esc ∧ encodeTx .packet b = [esc, escEsc]) ∨
      (b ≠ delim ∧ b ≠ esc ∧ encodeTx .packet b = [b]) := by
  simp only [encodeTx]
  split
  · exact .inl ⟨‹_›, rfl⟩
  split
  · exact .inr (.inl ⟨‹_›, rfl⟩)
  · exact .inr (.inr ⟨‹_›, ‹_›, rfl⟩)

theorem delim_not_mem_wireBytes (d : List Byte) : delim ∉ wireBytes d := by
  simp only [wireBytes, List.mem_flatMap, not_exists, not_and]
  intro b _
  rcases encodeTx_packet_cases b with ⟨-, e⟩ | ⟨-, e⟩ | ⟨hne, -, e⟩ <;> rw [e]
  · decide
  · decide
  · simpa using hne.symm

/-- Data bytes presented one after another come out as their wire bytes; the block stays running and in packet mode. -/
theorem execAll_txBytes (d : List Byte) {s : State} (hrun : s.halt = false) (hmode : s.outMode = .packet) :
    ∃ t, execAll (d.map .txByte) s = .next t ∧ t.halt = false ∧ t.outMode = .packet ∧ t.txOut = s.txOut ++ wireBytes d := by
  induction d using List.reverseRecOn with
  | nil => exact ⟨s, rfl, hrun, hmode, by simp [wireBytes]⟩
  | append_singleton d b ih =>
    obtain ⟨u, hu, hrun', hmode', hout⟩ := ih
    refine ⟨respond .tx 0#32 (encodeTx u.outMode b) (emitTx (encodeTx u.outMode b) u), ?_, hrun', hmode', ?_⟩
    · rw [List.map_append, execAll_append hu]
      exact execAll_cons (exec_running (i := .txByte b) hrun' rfl) []
    · rw [wireBytes_append_singleton, ← List.append_assoc, ← hout, ← hmode']
      rfl

/-- A Packet comes out as its wire bytes and one delimiter (R74). -/
theorem execAll_txPacket (d : List Byte) {s : State} (hrun : s.halt = false) (hmode : s.outMode = .packet) :
    ∃ t, execAll (d.map .txByte ++ [.txEnd]) s = .next t ∧ t.txOut = s.txOut ++ wireBytes d ++ [delim] := by
  obtain ⟨u, hu, hrun', hmode', hout⟩ := execAll_txBytes d hrun hmode
  refine ⟨_, (execAll_append hu).trans (execAll_cons (exec_running (i := .txEnd) hrun' rfl) []), ?_⟩
  have hend : endTx u.outMode = [delim] := by rw [hmode']; rfl
  rw [← hout, ← hend]
  rfl

/-- A byte received with no errors answers 0 from the state its decoding step gives (R68). -/
theorem exec_rxByte_noErrors {b : Byte} {s t : State} (hrun : s.halt = false) (hmode : s.inMode = .packet)
    (h : decodeStep b true s = t) : exec (.rxByte b 0#4) s = .next (setResponse .producer (answer 0#32) t) :=
  exec_rxByte_of_decodeStep hrun hmode (by rwa [foldErrors_zero])

/-! ### Collecting a Packet (R16, R47) -/

/-- `u` is `s` with the data `d` and the flags `f` collected in the in-progress Packet, and no escape pending. -/
structure Collecting (s : State) (d : List Byte) (f : Byte) (u : State) : Prop where
  inv : u.Inv
  running : u.halt = false
  cfg : u.cfg = s.cfg
  w : u.w = s.w
  old : u.old = s.old
  npk : u.npk = s.npk
  inMode : u.inMode = s.inMode
  src : u.src = s.src
  pfl : u.pfl = f
  plain : u.escp = false
  queue : storedPackets u = storedPackets s
  data : inProgressData u = d

/-- An empty Packet to begin with. -/
theorem Collecting.nil {s : State} (h : s.Inv) (hrun : s.halt = false) (hplain : s.escp = false) (hlen : s.len = 0#8)
    (hpfl : s.pfl = 0#8) : Collecting s [] 0#8 s :=
  ⟨h, hrun, rfl, rfl, rfl, rfl, rfl, rfl, hpfl, hplain, rfl, by rw [inProgressData, hlen]; rfl⟩

section
variable {s u : State} {d : List Byte} {f : Byte} (h : Collecting s d f u)
include h

theorem Collecting.len : u.len.toNat = d.length := by
  rw [← h.data, inProgressData, length_readSpan]

theorem Collecting.room_eq : room u = room s := room_congr h.cfg h.w h.old h.npk

theorem Collecting.setResponse (p : Port) (r : Response) : Collecting s d f (setResponse p r u) where
  inv := h.inv.setResponse p r
  running := by simpa using h.running
  cfg := by simpa using h.cfg
  w := by simpa using h.w
  old := by simpa using h.old
  npk := by simpa using h.npk
  inMode := by simpa using h.inMode
  src := by simpa using h.src
  pfl := by simpa using h.pfl
  plain := by simpa using h.plain
  queue := (storedPackets_setResponse p r u).trans h.queue
  data := (inProgressData_congr (by simp) (by simp) (by simp) (by simp) (by simp)).trans h.data

/-- A byte that fits is collected. -/
theorem Collecting.append (b : Byte) (hlt : d.length < 252) (hroom : d.length + 6 ≤ room s) :
    Collecting s (d ++ [b]) f (appendByte b u) := by
  have htakes : takesByte u := by
    have := h.len
    have := h.room_eq
    unfold takesByte
    omega
  have hpfl : (appendByte b u).pfl = u.pfl := by rw [appendByte, if_pos htakes]; rfl
  exact {
    inv := h.inv.appendByte b
    running := by simpa using h.running
    cfg := by simpa using h.cfg
    w := by simpa using h.w
    old := by simpa using h.old
    npk := by simpa using h.npk
    inMode := by simpa using h.inMode
    src := by simpa using h.src
    pfl := hpfl.trans h.pfl
    plain := by simpa using h.plain
    queue := (storedPackets_appendByte h.inv b).trans h.queue
    data := by rw [inProgressData_appendByte h.inv b htakes.1 htakes.2, h.data] }

/-- A byte past the longest Packet is discarded, and OVERFLOW set. -/
theorem Collecting.overflow (b : Byte) (hge : 252 ≤ d.length) : Collecting s d (f ||| flagOverflow) (appendByte b u) := by
  have hfull : ¬ takesByte u := fun htakes => by
    have := h.len
    have := htakes.1
    omega
  rw [appendByte_of_not_takesByte b hfull]
  exact ⟨h.inv.orFlags (by decide), h.running, h.cfg, h.w, h.old, h.npk, h.inMode, h.src, by rw [orFlags_pfl, h.pfl], h.plain,
    (storedPackets_orFlags _ u).trans h.queue, (inProgressData_congr rfl rfl rfl rfl rfl).trans h.data⟩

/-- The end of the Packet adds what was collected at the back of the queue (R48, R86). -/
theorem Collecting.finish (hroom : d.length + 5 ≤ room s) :
    storedPackets (doFinish u) = storedPackets s ++ [{ source := s.src, flags := f, data := d }]
      ∧ (doFinish u).npk = s.npk + 1 ∧ (doFinish u).w = nextPosition s.cfg (s.w + d.length + 5) := by
  have hfits : hdr + u.len.toNat + 1 ≤ room u := by rw [h.len, h.room_eq, hdr]; omega
  refine ⟨?_, ?_, ?_⟩
  · rcases storedPackets_doFinish h.inv with ⟨-, hback⟩ | ⟨hshort, -⟩
    · rw [hback, h.queue, h.src, h.pfl, h.data, h.plain]
      rfl
    · exact absurd hfits (Nat.not_le.mpr hshort)
  · rw [doFinish_eq_commit hfits, commit_npk, endEscape_npk, h.npk]
  · rw [doFinish_eq_commit hfits, commit_w, endEscape_cfg, endEscape_w, endEscape_len, h.cfg, h.w, h.len]

/-- Wire bytes received with no errors: a data byte is collected (R65, R71). -/
theorem Collecting.receive (hmode : s.inMode = .packet) (b : Byte) (hlt : d.length < 252) (hroom : d.length + 6 ≤ room s) :
    ∃ t, execAll ((encodeTx .packet b).map fun c => .rxByte c 0#4) u = .next t ∧ Collecting s (d ++ [b]) f t := by
  have hmode' := h.inMode.trans hmode
  have hescaped : ∀ c, decodeStep c true (Machine.setResponse .producer (answer 0#32) (setEscp true u))
        = appendByte b (setEscp false (Machine.setResponse .producer (answer 0#32) (setEscp true u))) →
      ∃ t, execAll [.rxByte esc 0#4, .rxByte c 0#4] u = .next t ∧ Collecting s (d ++ [b]) f t := by
    intro c hc
    have hcleared : setEscp false (Machine.setResponse .producer (answer 0#32) (setEscp true u))
        = Machine.setResponse .producer (answer 0#32) u := by
      simp [setEscp, Machine.setResponse, ← h.plain]
    rw [hcleared] at hc
    have hfirst := exec_rxByte_noErrors h.running hmode' (decodeStep_on_esc h.plain)
    have hsecond := exec_rxByte_noErrors (by simpa using h.running) (by simpa using hmode') hc
    exact ⟨_, (execAll_cons hfirst _).trans (execAll_cons hsecond []),
      ((h.setResponse _ _).append b hlt hroom).setResponse _ _⟩
  rcases encodeTx_packet_cases b with ⟨rfl, e⟩ | ⟨rfl, e⟩ | ⟨hdelim, hesc, e⟩ <;> rw [e]
  · exact hescaped escDelim (decodeStep_escDelim rfl)
  · exact hescaped escEsc (decodeStep_escEsc rfl)
  · exact ⟨_, execAll_cons (exec_rxByte_noErrors h.running hmode' (decodeStep_on_data h.plain hdelim hesc)) [],
      (h.append b hlt hroom).setResponse _ _⟩

end

/-- All the data bytes received, from their wire bytes (R73). -/
theorem collecting_of_wireBytes (d : List Byte) {s : State} (hstart : Collecting s [] 0#8 s) (hmode : s.inMode = .packet)
    (hlen : d.length ≤ 252) (hroom : d.length + 5 ≤ room s) :
    ∃ u, execAll ((wireBytes d).map fun c => .rxByte c 0#4) s = .next u ∧ Collecting s d 0#8 u := by
  induction d using List.reverseRecOn with
  | nil => exact ⟨s, rfl, hstart⟩
  | append_singleton d b ih =>
    rw [List.length_append, List.length_singleton] at hlen hroom
    obtain ⟨u, hu, hcollected⟩ := ih (by omega) (by omega)
    obtain ⟨t, ht, hnext⟩ := hcollected.receive hmode b (by omega) (by omega)
    refine ⟨t, ?_, hnext⟩
    rw [wireBytes_append_singleton, List.map_append, execAll_append hu]
    exact ht

/-- All the data bytes stored by `STORE_RAW`: at most 252 are kept, and more set OVERFLOW (R87). -/
theorem collecting_of_storeRaw (d : List Byte) {s : State} (hstart : Collecting s [] 0#8 s) (hroom : 257 ≤ room s) :
    ∃ u, execAll (d.map .storeRaw) s = .next u
      ∧ Collecting s (d.take 252) (if d.length ≤ 252 then 0#8 else flagOverflow) u := by
  induction d using List.reverseRecOn with
  | nil => exact ⟨s, rfl, hstart⟩
  | append_singleton d b ih =>
    obtain ⟨u, hu, hcollected⟩ := ih
    refine ⟨_, by rw [List.map_append, execAll_append hu]; exact execAll_cons (exec_storeRaw_eq hcollected.running) [], ?_⟩
    refine Collecting.setResponse ?_ _ _
    rw [List.length_append, List.length_singleton]
    rcases Nat.lt_or_ge d.length 252 with hlt | hge
    · rw [if_pos (by omega), List.take_of_length_le (by omega)] at hcollected
      rw [if_pos (by omega), List.take_of_length_le (by simp; omega)]
      exact hcollected.append b hlt (by omega)
    · have hover := hcollected.overflow b (by rw [List.length_take]; omega)
      rw [if_neg (by omega), List.take_append_of_le_length hge]
      split at hover <;> exact hover

/-! ### The statements -/

/-- Settles O47: `TX_END` never halts a running block, and emits what `endTx` gives for the mode. -/
theorem txEndEmitsDelimiter : Obligations.TxEndEmitsDelimiter := by
  intro s out hout
  obtain rfl : out = endTx s.outMode := by rw [hout]; cases s.outMode <;> rfl
  exact ⟨rfl, fun hrun => exec_running hrun rfl⟩

/-- Settles O48: the wire bytes hold no delimiter, and `TX_END` adds one. -/
theorem txStreamHasOneDelimiter : Obligations.TxStreamHasOneDelimiter := by
  intro d s hrun hmode
  obtain ⟨t, ht, hout⟩ := execAll_txPacket d hrun hmode
  exact ⟨t, wireBytes d, ht, hout, delim_not_mem_wireBytes d⟩

/-- Settles O49: the wire bytes are collected as the data they stand for, and the delimiter finishes the Packet. -/
theorem framingRoundTrip : Obligations.FramingRoundTrip := by
  intro d tx s htx hout hempty hlen hinv hrun hmode hplain hnone hpfl hroom
  obtain ⟨tx', htx', hwire⟩ := execAll_txPacket d htx hout
  obtain ⟨u, hu, hcollected⟩ := collecting_of_wireBytes d (Collecting.nil hinv hrun hplain hnone hpfl) hmode hlen hroom
  obtain ⟨hqueue, hnpk, -⟩ := hcollected.finish hroom
  rw [hempty, List.nil_append] at hwire
  have hend := exec_rxByte_noErrors hcollected.running (hcollected.inMode.trans hmode) (decodeStep_on_delim hcollected.plain)
  refine ⟨tx', setResponse .producer (answer 0#32) (doFinish u), htx', ?_, (storedPackets_setResponse _ _ _).trans hqueue,
    hnpk, doFinish_escp u, doFinish_len u⟩
  rw [hwire, List.map_append, execAll_append hu]
  exact execAll_cons hend []

/-- Settles O50: the first 252 bytes are collected, the others only set OVERFLOW, and `FINISH` adds the Packet. -/
theorem capacityPolicy : Obligations.CapacityPolicy := by
  intro d s hinv hrun hplain hnone hpfl hroom
  obtain ⟨u, hu, hcollected⟩ := collecting_of_storeRaw d (Collecting.nil hinv hrun hplain hnone hpfl) hroom
  have hlen : (d.take 252).length = min d.length 252 := by rw [List.length_take, Nat.min_comm]
  obtain ⟨hqueue, -, hw⟩ := hcollected.finish (by omega)
  refine ⟨_, (execAll_append hu).trans (execAll_cons (exec_finish_eq hcollected.running) []), ?_, ?_⟩
  · exact (storedPackets_setResponse _ _ _).trans hqueue
  · rw [hlen] at hw
    exact hw

end Sys2Proof.Machine
end
